-- ==== Sys2Proof/Word.lean ====
section
/-! DEFINITION. The two widths of jaide: a byte of memory and a 16-bit register, address or datum
(spec/00_scope.md R4, R9). -/

namespace Sys2Proof

/-- 16 bits: a register, an address, a datum, an immediate (R4: data width, register width, address width). -/
abbrev Word := BitVec 16

/-- 8 bits: the addressable unit (R4, R40). -/
abbrev Byte := BitVec 8

end Sys2Proof
end

