-- ==== Sys2Proof/Machine/Bytes.lean ====
section
/-! DEFINITION. Byte order and alignment (spec/20_memory.md R45, R52). -/

namespace Sys2Proof.Machine

/-- The little-endian word: `lo` is the byte at the lower address (R45, R48). -/
def wordOf (lo hi : Byte) : Word := hi ++ lo

/-- `v[7:0]`, the byte stored at the lower address (R45). -/
def lowByte (v : Word) : Byte := v.extractLsb' 0 8

/-- `v[15:8]`, the byte stored at the higher address (R45). -/
def highByte (v : Word) : Byte := v.extractLsb' 8 8

/-- An odd address (R52). -/
def isOdd (a : Word) : Bool := a.getLsbD 0

end Sys2Proof.Machine
end

