-- ==== Sys2Proof/Syntax.lean ====
section
/-! DEFINITION. The syntax of jaide: the 16 slots of the register file and one constructor of `Instr` per row of
spec/opcode_table.json, in the table's order (spec/30_encoding.md R77, R78). -/

namespace Sys2Proof

/-- The 16 slots of the register file (R10): seven general registers (R11), PC, SP, MB, F and Z (R9), and the four
slots reserved for floating point (R22). Which 4-bit number selects a slot is the parameter REGNUM (R12). -/
inductive Reg where
  | a | b | c | d | e | x | y
  | pc | sp | mb | f | z
  | r12 | r13 | r14 | r15
  deriving DecidableEq, Repr

/-- One form of one instruction. The register operands stand in the order of the fields `rC`, `rD` (R76). -/
inductive Instr where
  /-- `LOAD rC, [rD]` (R100): rC the destination, rD holds the address. -/
  | loadR (rC rD : Reg)
  /-- `LOAD rC, [imm16]` (R100): rC the destination, imm16 the address. -/
  | loadI (rC : Reg) (imm : Word)
  /-- `STORE [rC], rD` (R101): rC holds the address, rD the data. -/
  | storeR (rC rD : Reg)
  /-- `STORE [imm16], rC` (R101): rC the data, imm16 the address. -/
  | storeI (rC : Reg) (imm : Word)
  /-- `MOVE rC, rD` (R102). -/
  | moveR (rC rD : Reg)
  /-- `MOVE rC, imm16` (R102). -/
  | moveI (rC : Reg) (imm : Word)
  /-- `PUSH rC` (R103). -/
  | pushR (rC : Reg)
  /-- `PUSH imm16` (R103). -/
  | pushI (imm : Word)
  /-- `POP rC` (R104). -/
  | popR (rC : Reg)
  /-- `ADD rC, rD` (R111). -/
  | addR (rC rD : Reg)
  /-- `ADD rC, imm16` (R111). -/
  | addI (rC : Reg) (imm : Word)
  /-- `ADC rC, rD` (R112). -/
  | adcR (rC rD : Reg)
  /-- `ADC rC, imm16` (R112). -/
  | adcI (rC : Reg) (imm : Word)
  /-- `SUB rC, rD` (R113). -/
  | subR (rC rD : Reg)
  /-- `SUB rC, imm16` (R113). -/
  | subI (rC : Reg) (imm : Word)
  /-- `SBC rC, rD` (R114). -/
  | sbcR (rC rD : Reg)
  /-- `SBC rC, imm16` (R114). -/
  | sbcI (rC : Reg) (imm : Word)
  /-- `INC rC` (R115). -/
  | incR (rC : Reg)
  /-- `DEC rC` (R116). -/
  | decR (rC : Reg)
  /-- `SHL rC, rD` (R120). -/
  | shlR (rC rD : Reg)
  /-- `SHL rC, imm16` (R120). -/
  | shlI (rC : Reg) (imm : Word)
  /-- `SHR rC, rD` (R121). -/
  | shrR (rC rD : Reg)
  /-- `SHR rC, imm16` (R121). -/
  | shrI (rC : Reg) (imm : Word)
  /-- `AND rC, rD` (R122). -/
  | andR (rC rD : Reg)
  /-- `AND rC, imm16` (R122). -/
  | andI (rC : Reg) (imm : Word)
  /-- `OR rC, rD` (R123). -/
  | orR (rC rD : Reg)
  /-- `OR rC, imm16` (R123). -/
  | orI (rC : Reg) (imm : Word)
  /-- `NOR rC, rD` (R124). -/
  | norR (rC rD : Reg)
  /-- `NOR rC, imm16` (R124). -/
  | norI (rC : Reg) (imm : Word)
  /-- `NOT rC` (R125). -/
  | notR (rC : Reg)
  /-- `XOR rC, rD` (R126). -/
  | xorR (rC rD : Reg)
  /-- `XOR rC, imm16` (R126). -/
  | xorI (rC : Reg) (imm : Word)
  /-- `INB rC, port(rD)` (R130): rC the destination, rD holds the port number. -/
  | inbR (rC rD : Reg)
  /-- `INB rC, port(imm16)` (R130). -/
  | inbI (rC : Reg) (imm : Word)
  /-- `OUTB port(rC), rD` (R131): rC holds the port number, rD the data. -/
  | outbR (rC rD : Reg)
  /-- `OUTB port(imm16), rC` (R131): rC the data, imm16 the port number. -/
  | outbI (rC : Reg) (imm : Word)
  /-- `CMP rC, rD` (R135). -/
  | cmpR (rC rD : Reg)
  /-- `CMP rC, imm16` (R135). -/
  | cmpI (rC : Reg) (imm : Word)
  /-- `JMP rC` (R137). -/
  | jmpR (rC : Reg)
  /-- `JMP imm16` (R137). -/
  | jmpI (imm : Word)
  /-- `JZ rC` (R138). -/
  | jzR (rC : Reg)
  /-- `JZ imm16` (R138). -/
  | jzI (imm : Word)
  /-- `JNZ rC` (R139). -/
  | jnzR (rC : Reg)
  /-- `JNZ imm16` (R139). -/
  | jnzI (imm : Word)
  /-- `JC rC` (R140). -/
  | jcR (rC : Reg)
  /-- `JC imm16` (R140). -/
  | jcI (imm : Word)
  /-- `JNC rC` (R141). -/
  | jncR (rC : Reg)
  /-- `JNC imm16` (R141). -/
  | jncI (imm : Word)
  /-- `CALL rC` (R142). -/
  | callR (rC : Reg)
  /-- `CALL imm16` (R142). -/
  | callI (imm : Word)
  /-- `RET` (R143). -/
  | ret
  /-- `INT imm16` (R150). -/
  | intI (imm : Word)
  /-- `IRET` (R151). -/
  | iret
  /-- `HALT` (R152). -/
  | halt
  /-- `NOP` (R153). -/
  | nop
  deriving DecidableEq, Repr

/-- The length in bytes of an instruction: 4 when its format carries an immediate, else 2 (R74). -/
def Instr.len : Instr → Nat
  | .loadR _ _ => 2
  | .loadI _ _ => 4
  | .storeR _ _ => 2
  | .storeI _ _ => 4
  | .moveR _ _ => 2
  | .moveI _ _ => 4
  | .pushR _ => 2
  | .pushI _ => 4
  | .popR _ => 2
  | .addR _ _ => 2
  | .addI _ _ => 4
  | .adcR _ _ => 2
  | .adcI _ _ => 4
  | .subR _ _ => 2
  | .subI _ _ => 4
  | .sbcR _ _ => 2
  | .sbcI _ _ => 4
  | .incR _ => 2
  | .decR _ => 2
  | .shlR _ _ => 2
  | .shlI _ _ => 4
  | .shrR _ _ => 2
  | .shrI _ _ => 4
  | .andR _ _ => 2
  | .andI _ _ => 4
  | .orR _ _ => 2
  | .orI _ _ => 4
  | .norR _ _ => 2
  | .norI _ _ => 4
  | .notR _ => 2
  | .xorR _ _ => 2
  | .xorI _ _ => 4
  | .inbR _ _ => 2
  | .inbI _ _ => 4
  | .outbR _ _ => 2
  | .outbI _ _ => 4
  | .cmpR _ _ => 2
  | .cmpI _ _ => 4
  | .jmpR _ => 2
  | .jmpI _ => 4
  | .jzR _ => 2
  | .jzI _ => 4
  | .jnzR _ => 2
  | .jnzI _ => 4
  | .jcR _ => 2
  | .jcI _ => 4
  | .jncR _ => 2
  | .jncI _ => 4
  | .callR _ => 2
  | .callI _ => 4
  | .ret => 2
  | .intI _ => 4
  | .iret => 2
  | .halt => 2
  | .nop => 2

end Sys2Proof
end

