-- ==== Sys2Proof/Config.lean ====
section
/-! DEFINITION. The parameters the spec leaves open (spec/00_scope.md R4, second table) as plain data, and the free
values: constants with no body, of which nothing can be proved. The defaults are in Machine/Params.lean. -/

namespace Sys2Proof

/-- MISALIGNED (R52, decision D21): what a 16-bit data access at an odd address does. -/
inductive MisalignedPolicy where
  /-- Bytes `a` and `a + 1` are accessed separately, each under its own region's rules. -/
  | split
  /-- Bit 0 of the address is ignored. -/
  | mask
  /-- The access has no meaning (U5). -/
  | refuse
  deriving DecidableEq, Repr

/-- FETCH_ODD (R52, decision D22): what instruction fetch at an odd `pc` does. -/
inductive FetchOddPolicy where
  /-- The bytes at `pc`, `pc + 1`, … are fetched as at an even `pc`. -/
  | bytewise
  /-- The fetch has no meaning (U6). -/
  | refuse
  deriving DecidableEq, Repr

/-- IRET_MASKED (R151, decision D35): what IRET does when `F.I` = 0. -/
inductive IretMaskedPolicy where
  /-- Nothing but advance `pc`: the source's literal text. -/
  | nop
  /-- The test of `F.I` is dropped: the return always happens. -/
  | returns
  deriving DecidableEq, Repr

/-- VECTOR_LOW_ADDR (R63, decision D23): which byte of entry `n` the address 0xFFFF - 2n names. -/
inductive VectorReading where
  /-- It names the high byte: the low byte is at 0xFFFE - 2n. -/
  | lastByte
  /-- It names the low byte: a misaligned word read at 0xFFFF - 2n. -/
  | firstByte
  deriving DecidableEq, Repr

/-- LOADSTORE_INDIRECT_FORMAT (R78, decision D7): the format of `LOAD rC, [rD]` and `STORE [rC], rD`. -/
inductive IndirectFormat where
  | fmt3
  | fmt5
  deriving DecidableEq, Repr

/-- The two treatments that U8 lists for a byte of RAM nothing has written since reset (R53, decision D31). -/
inductive UnwrittenPolicy where
  /-- Any value, drawn afresh at every read. -/
  | anyValue
  /-- The read has no meaning. -/
  | refuse
  deriving DecidableEq, Repr

/-- SHIFT_FLAGS (R120, R121, decision D17): what SHL and SHR leave in `F.C`. (`F.O` is any value under both, U11.) -/
inductive ShiftFlagsPolicy where
  /-- The last bit shifted out, 0 for a count of 0 or above 16: the spec's default. -/
  | lastBit
  /-- Nothing is taken to be known of it: any value, drawn afresh at each execution. -/
  | anyValue
  deriving DecidableEq, Repr

/-- The five flags of F (R18). -/
inductive Flag where
  | c | z | n | o | i
  deriving DecidableEq, Repr

/-- FLAG_POS (R18, decision D3): the bit of F each flag occupies. -/
structure FlagPos where
  c : Fin 16
  z : Fin 16
  n : Fin 16
  o : Fin 16
  i : Fin 16
  deriving DecidableEq, Repr

/-- The bit position of one flag. -/
def FlagPos.pos (p : FlagPos) : Flag → Fin 16
  | .c => p.c
  | .z => p.z
  | .n => p.n
  | .o => p.o
  | .i => p.i

/-- Five different bits. -/
def FlagPos.distinct (p : FlagPos) : Bool :=
  decide ([p.c, p.z, p.n, p.o, p.i].Nodup)

/-- STACK_AREA (U9): the addresses software sets aside for its stack, both ends included. -/
structure StackArea where
  lo : Word
  hi : Word
  deriving DecidableEq, Repr

/-- The parameters of R4. (EXT_IRQ has its default only, none, log 27; the devices behind the ports are State's
`portIn` and `portLog`, log 25.) -/
structure Config where
  /-- REGNUM (R12, decision D1): the slots of the register file in the order of their numbers 0 to 15. -/
  regnum : List Reg
  flagPos : FlagPos
  indirectFmt : IndirectFormat
  shiftFlags : ShiftFlagsPolicy
  misaligned : MisalignedPolicy
  fetchOdd : FetchOddPolicy
  vectorLow : VectorReading
  iretMasked : IretMaskedPolicy
  /-- NBANKS (R43, decision D25): how many banks exist. -/
  nbanks : Nat
  /-- ROM_FILL (R88, decision D30): what ROM bytes the image does not cover hold, if anything is known of them. -/
  romFill : Option Byte
  /-- STACK_AREA (U9), where a claim supplies one. -/
  stackArea : Option StackArea
  /-- Which treatment of U8 is taken. -/
  unwritten : UnwrittenPolicy
  deriving DecidableEq, Repr

/-- What R4 requires of the parameters: REGNUM numbers the 16 slots, FLAG_POS gives five different bits, and there
are 1 to 256 banks. -/
def Config.wf (cfg : Config) : Bool :=
  decide (cfg.regnum.length = 16 ∧ cfg.regnum.Nodup ∧ cfg.flagPos.distinct = true ∧
    1 ≤ cfg.nbanks ∧ cfg.nbanks ≤ 256)

/-- One access to an I/O port (R60). -/
inductive PortEvent where
  /-- The device behind `port` supplied `v`. -/
  | read (port : Byte) (v : Word)
  /-- `v` was handed to the device behind `port`. -/
  | write (port : Byte) (v : Word)
  deriving DecidableEq, Repr

/-- FREE VALUE (U11, log 16): `F.O` after the shift that makes the k-th draw. -/
opaque Config.freeOverflow : Nat → Bool

/-- FREE VALUE (decision D17, log 15): `F.C` after the shift that makes the k-th draw, under SHIFT_FLAGS = any value. -/
opaque Config.freeCarry : Nat → Bool

/-- FREE VALUE (U8, log 30): the byte the k-th draw reads where nothing has been written. -/
opaque Config.freeByte : Nat → Byte

/-- FREE VALUE (R60, U10, log 25): what the device behind a port supplies after a history of port accesses. -/
opaque Config.portAnswer : Byte → List PortEvent → Word

end Sys2Proof
end

