-- ==== Sys2Proof/Machine/Params.lean ====
section
/-! DEFINITION. The values that the parameters of spec/00_scope.md R4 take in `State.reset`: the spec's defaults, and
where the spec gives none a DESIGN CHOICE with its log entry. -/

namespace Sys2Proof.Machine

/-- REGNUM's default, the listing order (R12, log 2). -/
def defaultRegnum : List Reg :=
  [.a, .b, .c, .d, .e, .x, .y, .pc, .sp, .mb, .f, .z, .r12, .r13, .r14, .r15]

/-- FLAG_POS's default: C=15 Z=14 N=13 O=12 I=11 (R18, log 4). -/
def defaultFlagPos : FlagPos := { c := 15, z := 14, n := 13, o := 12, i := 11 }

/-- The parameters of `State.reset`. `misaligned` (log 20), `fetchOdd` (log 21), `nbanks` (log 24) and `unwritten`
(log 30) are DESIGN CHOICES: the spec sets no default for them. The rest are R4's defaults. -/
def defaultConfig : Config where
  regnum := defaultRegnum
  flagPos := defaultFlagPos
  indirectFmt := .fmt3
  shiftFlags := .lastBit
  misaligned := .split
  fetchOdd := .bytewise
  vectorLow := .lastByte
  iretMasked := .nop
  nbanks := 256
  romFill := none
  stackArea := none
  unwritten := .anyValue

end Sys2Proof.Machine
end

