-- ==== Sys2Proof/Machine/State.lean ====
section
/-! DEFINITION. The state of one jaide machine as plain data (spec/10_state.md section 1), the machine right after
reset, the reasons a step can stop, and the named updates every operation goes through. -/

namespace Sys2Proof.Machine

/-- The bytes the machine holds, by storage location (`storageKey` of Machine/Memory.lean: ROM and RAM under their
addresses, bank k's byte o under 0x10000 + 0x4000 k + o). A location that is not listed has no value: nothing has
written it since reset, or the image does not cover it (R53, R88, log 41). -/
abbrev Memory := List Host.Cell

/-- The state: the registers of R11 and R15 to R20, the halted flag of R24, every byte of memory and of the banks
(R41, R43), and the model's own fields: what the ports supply and were handed (R60), a counter for free values, and
the parameters (R4). Register Z has no storage (R21). -/
structure State where
  a : Word
  b : Word
  c : Word
  d : Word
  e : Word
  x : Word
  y : Word
  pc : Word
  sp : Word
  mb : Word
  f : Word
  halted : Bool
  mem : Memory
  /-- Answers the devices have ready, oldest first: (port, value). -/
  portIn : List (Byte × Word)
  /-- The port accesses made so far, in program order. -/
  portLog : List PortEvent
  /-- How many free values have been drawn. -/
  draws : Nat
  cfg : Config
  deriving DecidableEq, Repr

/-- jaide raises no synchronous exception (R160), and what the spec leaves open may never be modelled as a trap
(93_implementation_defined.md): no fault exists, so the type has no constructor. -/
inductive Fault where
  deriving DecidableEq, Repr

/-- Why a step has no successor state. Each is SAFE: the model stops where the hardware's behaviour is not given. -/
inductive Refusal where
  /-- An instruction without a meaning in this model; no arm raises it. Safe. -/
  | notModelled (mnemonic : String)
  /-- Step: the bytes at `pc` have format 6 or 7 (R79, U1). Safe. -/
  | reservedFormat
  /-- Step: the bytes at `pc` have an (opcode, format) pair with no meaning (R80, R83, U1). Safe. -/
  | unassignedForm
  /-- Step, or any instruction: a register operand is one of the reserved slots (R81, U2). Safe. -/
  | reservedRegister
  /-- Step: fewer bytes than the format needs; fetch never produces them. Safe. -/
  | truncatedInstruction
  /-- A 16-bit data access at an odd address while MISALIGNED is `refuse` (R52, U5). Safe. -/
  | misaligned (addr : Word)
  /-- Step: an odd `pc` while FETCH_ODD is `refuse` (R52, U6). Safe. -/
  | oddFetch (pc : Word)
  /-- Any access to the window while MB names no bank (R43, U7). Safe. -/
  | absentBank (bank addr : Word)
  /-- A read of a byte of RAM or of a bank nothing has written, while that treatment is `refuse` (R53, U8). Safe. -/
  | unwrittenByte (addr : Word)
  /-- A push below STACK_AREA, where a claim supplies one (U9). Safe. -/
  | stackOverflow (sp : Word)
  /-- A pop above STACK_AREA, where a claim supplies one (U9). Safe. -/
  | stackUnderflow (sp : Word)
  /-- INB or OUTB: a port number above 255 (R60, R132, U10). Safe. -/
  | absentPort (port : Word)
  /-- INT, taken: an interrupt number above 127 (R150, U13). Safe. -/
  | absentInterrupt (number : Word)
  /-- A read of a ROM byte the image does not cover, while ROM_FILL is not given (R88, U14). Safe. -/
  | uncoveredRom (addr : Word)
  deriving DecidableEq, Repr

/-- What one step or one instruction answers. -/
abbrev Result := Host.Outcome State Fault Refusal

/-- The machine right after reset (R27, R180, R181): every register 0x0000, not halted, no byte of RAM or of a bank
with a value, and no image loaded. The parameters are `defaultConfig`; `portIn`, `portLog` and `draws` are empty by
DESIGN CHOICE (log 25, log 39). -/
def State.reset : State where
  a := 0#16
  b := 0#16
  c := 0#16
  d := 0#16
  e := 0#16
  x := 0#16
  y := 0#16
  pc := 0#16
  sp := 0#16
  mb := 0#16
  f := 0#16
  halted := false
  mem := []
  portIn := []
  portLog := []
  draws := 0
  cfg := defaultConfig

/-- Set the program counter. -/
def State.withPc (s : State) (v : Word) : State := { s with pc := v }

/-- Set the stack pointer. -/
def State.withSp (s : State) (v : Word) : State := { s with sp := v }

/-- Set the whole flags register. -/
def State.withF (s : State) (v : Word) : State := { s with f := v }

/-- Set the halted flag. -/
def State.withHalted (s : State) (v : Bool) : State := { s with halted := v }

/-- Replace the memory. -/
def State.withMem (s : State) (m : Memory) : State := { s with mem := m }

/-- Replace the devices' pending answers. -/
def State.withPortIn (s : State) (v : List (Byte × Word)) : State := { s with portIn := v }

/-- Replace the log of port accesses. -/
def State.withPortLog (s : State) (v : List PortEvent) : State := { s with portLog := v }

/-- Set the counter of free values. -/
def State.withDraws (s : State) (n : Nat) : State := { s with draws := n }

end Sys2Proof.Machine
end

