-- ==== Sys2Proof/Machine/Flags.lean ====
section
/-! DEFINITION. The flags register F and every flag computation of the spec (spec/10_state.md R18 to R20,
spec/41_arithmetic.md R110, spec/42_shift_logic.md R120, R121). -/

namespace Sys2Proof.Machine

/-- Write one bit of a word and leave every other bit unchanged (R6). -/
def setBit (w : Word) (p : Fin 16) (b : Bool) : Word :=
  if b then w ||| (1#16 <<< p.val) else w &&& ~~~(1#16 <<< p.val)

/-- `F.C`, `F.Z`, `F.N`, `F.O` or `F.I`: the bit of F at the flag's position (R6, R18). -/
def State.flag (s : State) (fl : Flag) : Bool := s.f.getLsbD (s.cfg.flagPos.pos fl).val

/-- Write one flag (R6, R20). -/
def State.setFlag (s : State) (fl : Flag) (b : Bool) : State :=
  s.withF (setBit s.f (s.cfg.flagPos.pos fl) b)

/-- A 16-bit result with the flags computed from it. -/
structure Alu where
  r : Word
  z : Bool
  c : Bool
  o : Bool
  deriving DecidableEq, Repr

/-- `AddFlags(a, b, cin)` (R110): C is the carry out of bit 15, O the signed overflow. -/
def addFlags (a b : Word) (cin : Bool) : Alu :=
  let t17 : BitVec 17 := a.setWidth 17 + b.setWidth 17 + (BitVec.ofBool cin).setWidth 17
  let r : Word := t17.setWidth 16
  { r := r
    z := r == 0#16
    c := t17.getLsbD 16
    o := (a.getLsbD 15 == b.getLsbD 15) && (r.getLsbD 15 != a.getLsbD 15) }

/-- `SubFlags(a, b, bin)` (R110): C is the borrow, O the signed overflow. -/
def subFlags (a b : Word) (bin : Bool) : Alu :=
  let r : Word := a - b - (BitVec.ofBool bin).setWidth 16
  { r := r
    z := r == 0#16
    c := decide (a.toNat < b.toNat + bin.toNat)
    o := (a.getLsbD 15 != b.getLsbD 15) && (r.getLsbD 15 != a.getLsbD 15) }

/-- The result of SHL: zeros enter at bit 0, and a count of 16 or more clears every bit (R120). -/
def shlResult (a n : Word) : Word := if 16 ≤ n.toNat then 0#16 else a <<< n.toNat

/-- C of SHL under SHIFT_FLAGS = last bit: the last bit shifted out of bit 15; 0 for a count of 0 or above 16 (R120, log 15). -/
def shlCarry (a n : Word) : Bool :=
  if 1 ≤ n.toNat ∧ n.toNat ≤ 16 then a.getLsbD (16 - n.toNat) else false

/-- The result of SHR: zeros enter at bit 15, and a count of 16 or more clears every bit (R121). -/
def shrResult (a n : Word) : Word := if 16 ≤ n.toNat then 0#16 else a >>> n.toNat

/-- C of SHR under SHIFT_FLAGS = last bit: the last bit shifted out of bit 0; 0 for a count of 0 or above 16 (R121, log 15). -/
def shrCarry (a n : Word) : Bool :=
  if 1 ≤ n.toNat ∧ n.toNat ≤ 16 then a.getLsbD (n.toNat - 1) else false

/-- `F.C` after a shift, `last` being the last bit shifted out: SHIFT_FLAGS decides (decision D17, log 15). -/
def shiftCarry (s : State) (last : Bool) : Bool :=
  match s.cfg.shiftFlags with
  | .lastBit => last
  | .anyValue => Config.freeCarry s.draws

/-- `F.O` after a shift: any value, drawn afresh at each execution (U11, log 16). -/
def shiftOverflow (s : State) : Bool := Config.freeOverflow s.draws

/-- The state after one free value has been drawn. -/
def State.drawn (s : State) : State := s.withDraws (s.draws + 1)

/-- Z, C and O written on top of whatever F holds, in the order of the rules' pseudocode (R20, R117). -/
def State.setZCO (s : State) (z c o : Bool) : State := ((s.setFlag .z z).setFlag .c c).setFlag .o o

end Sys2Proof.Machine
end

