-- ==== Sys2Proof/Machine/Memory.lean ====
section
/-! DEFINITION. Storage: the canonical list of cells, and which byte of storage an address reaches
(spec/20_memory.md R40 to R44, R47, R49). -/

namespace Sys2Proof.Machine

/-- What an unlisted location reads as: no value (R53, R88; log 30, log 41). -/
def unlisted : Option Byte := none

/-- The byte a location holds, if it has a value. -/
def Memory.read : Memory → Nat → Option Byte
  | [], _ => unlisted
  | (k, b) :: rest, key => if key = k then some b else Memory.read rest key

/-- Give a location a value, keeping the locations strictly rising. -/
def Memory.write : Memory → Nat → Byte → Memory
  | [], key, v => [(key, v)]
  | (k, b) :: rest, key, v =>
    if key < k then (key, v) :: (k, b) :: rest
    else if key = k then (key, v) :: rest
    else (k, b) :: Memory.write rest key v

/-- The canonical form: locations strictly rising. (No entry can equal what an unlisted location reads as, since that
is no value.) -/
def Memory.wf : Memory → Bool
  | [] => true
  | [_] => true
  | (k, _) :: (k', b') :: rest => decide (k < k') && Memory.wf ((k', b') :: rest)

/-- `InROM(a)`: `a <= 0x7FFF` (R42). -/
def inRom (a : Word) : Bool := decide (a.toNat < 0x8000)

/-- The banked window, 0x8000 to 0xBFFF (R43). -/
def inWindow (a : Word) : Bool := decide (0x8000 ≤ a.toNat) && decide (a.toNat < 0xC000)

/-- The location of byte `offset` of a bank. -/
def bankKey (bank offset : Nat) : Nat := 0x10000 + 0x4000 * bank + offset

/-- The location an address reaches while MB is `mb`: in the window, byte `a - 0x8000` of bank `mb`, where that bank
exists (R43); elsewhere the address itself. -/
def storageKey (cfg : Config) (mb a : Word) : Except Refusal Nat :=
  if inWindow a then
    if mb.toNat < cfg.nbanks then .ok (bankKey mb.toNat (a.toNat - 0x8000)) else .error (.absentBank mb a)
  else .ok a.toNat

/-- A location the machine has: a ROM or RAM address outside the window, or a byte of one of the NBANKS banks (R41,
R43). -/
def isLocation (cfg : Config) (key : Nat) : Bool :=
  decide (key < 0x8000) || (decide (0xC000 ≤ key) && decide (key < 0x10000)) ||
    (decide (0x10000 ≤ key) && decide (key < bankKey cfg.nbanks 0))

/-- Every listed location exists. -/
def Memory.within (cfg : Config) (m : Memory) : Bool := m.all fun cell => isLocation cfg cell.1

/-- The locations of ROM, which hardware never changes (R42). -/
def isRomKey (key : Nat) : Bool := decide (key < 0x8000)

end Sys2Proof.Machine
end

