-- ==== Sys2Proof/WellFormed.lean ====
section
/-! DEFINITION. Which terms of `Instr` are instructions of this hardware: no register operand is one of the four
reserved slots (spec/30_encoding.md R81, spec/10_state.md R22). Every immediate is admitted: an address, a target, a
count, a port or an interrupt number is any 16-bit value as far as the encoding goes (R73). -/

namespace Sys2Proof

/-- The twelve implemented slots (R10). -/
def Reg.implemented : Reg → Bool
  | .a | .b | .c | .d | .e | .x | .y => true
  | .pc | .sp | .mb | .f | .z => true
  | .r12 | .r13 | .r14 | .r15 => false

/-- No meaningful register field holds a reserved slot (R81). -/
def Instr.wf : Instr → Bool
  | .loadR rC rD => rC.implemented && rD.implemented
  | .loadI rC _ => rC.implemented
  | .storeR rC rD => rC.implemented && rD.implemented
  | .storeI rC _ => rC.implemented
  | .moveR rC rD => rC.implemented && rD.implemented
  | .moveI rC _ => rC.implemented
  | .pushR rC => rC.implemented
  | .pushI _ => true
  | .popR rC => rC.implemented
  | .addR rC rD => rC.implemented && rD.implemented
  | .addI rC _ => rC.implemented
  | .adcR rC rD => rC.implemented && rD.implemented
  | .adcI rC _ => rC.implemented
  | .subR rC rD => rC.implemented && rD.implemented
  | .subI rC _ => rC.implemented
  | .sbcR rC rD => rC.implemented && rD.implemented
  | .sbcI rC _ => rC.implemented
  | .incR rC => rC.implemented
  | .decR rC => rC.implemented
  | .shlR rC rD => rC.implemented && rD.implemented
  | .shlI rC _ => rC.implemented
  | .shrR rC rD => rC.implemented && rD.implemented
  | .shrI rC _ => rC.implemented
  | .andR rC rD => rC.implemented && rD.implemented
  | .andI rC _ => rC.implemented
  | .orR rC rD => rC.implemented && rD.implemented
  | .orI rC _ => rC.implemented
  | .norR rC rD => rC.implemented && rD.implemented
  | .norI rC _ => rC.implemented
  | .notR rC => rC.implemented
  | .xorR rC rD => rC.implemented && rD.implemented
  | .xorI rC _ => rC.implemented
  | .inbR rC rD => rC.implemented && rD.implemented
  | .inbI rC _ => rC.implemented
  | .outbR rC rD => rC.implemented && rD.implemented
  | .outbI rC _ => rC.implemented
  | .cmpR rC rD => rC.implemented && rD.implemented
  | .cmpI rC _ => rC.implemented
  | .jmpR rC => rC.implemented
  | .jmpI _ => true
  | .jzR rC => rC.implemented
  | .jzI _ => true
  | .jnzR rC => rC.implemented
  | .jnzI _ => true
  | .jcR rC => rC.implemented
  | .jcI _ => true
  | .jncR rC => rC.implemented
  | .jncI _ => true
  | .callR rC => rC.implemented
  | .callI _ => true
  | .ret => true
  | .intI _ => true
  | .iret => true
  | .halt => true
  | .nop => true

end Sys2Proof
end

