-- ==== Sys2Proof/Machine/Operands.lean ====
section
/-! DEFINITION. Operands: reading and writing the register file (spec/10_state.md R13, R14), and the operand kinds of
spec/30_encoding.md R76. -/

namespace Sys2Proof.Machine

/-- `npc`: the address of the next sequential instruction, for an instruction of `len` bytes at `pc` (R6, R15). -/
def nextPc (s : State) (len : Nat) : Word := s.pc + BitVec.ofNat 16 len

/-- The value `x[i]` has in an instruction of `len` bytes (R13): what the register holds; 0x0000 for Z; `npc` for PC.
The reserved slots, which have no value, are excluded by `readReg`. -/
def getReg (s : State) (len : Nat) : Reg → Word
  | .a => s.a
  | .b => s.b
  | .c => s.c
  | .d => s.d
  | .e => s.e
  | .x => s.x
  | .y => s.y
  | .pc => nextPc s len
  | .sp => s.sp
  | .mb => s.mb
  | .f => s.f
  | .z | .r12 | .r13 | .r14 | .r15 => 0#16

/-- `x[i] <- v` (R14): a write to PC or Z is discarded. The reserved slots are excluded by `writeReg`. -/
def putReg (s : State) (r : Reg) (v : Word) : State :=
  match r with
  | .a => { s with a := v }
  | .b => { s with b := v }
  | .c => { s with c := v }
  | .d => { s with d := v }
  | .e => { s with e := v }
  | .x => { s with x := v }
  | .y => { s with y := v }
  | .sp => { s with sp := v }
  | .mb => { s with mb := v }
  | .f => { s with f := v }
  | .pc | .z | .r12 | .r13 | .r14 | .r15 => s

/-- Read a register operand; a reserved slot has no meaning (R13, U2). -/
def readReg (s : State) (len : Nat) (r : Reg) : Except Refusal Word :=
  if r.implemented then .ok (getReg s len r) else .error .reservedRegister

/-- Write a register operand; a reserved slot has no meaning (R14, U2). -/
def writeReg (s : State) (r : Reg) (v : Word) : Except Refusal State :=
  if r.implemented then .ok (putReg s r v) else .error .reservedRegister

/-- An operand whose value an instruction takes: a register or the immediate (R76). -/
inductive Operand where
  | reg (r : Reg)
  | imm (v : Word)
  deriving DecidableEq, Repr

/-- The operand's value. -/
def readOperand (s : State) (len : Nat) : Operand → Except Refusal Word
  | .reg r => readReg s len r
  | .imm v => .ok v

/-- An operation that may have no meaning, as the answer of an instruction. -/
def finish : Except Refusal State → Result
  | .ok s => .next s
  | .error r => .refused r

end Sys2Proof.Machine
end

