-- ==== Sys2Proof/Machine/Ops.lean ====
section
/-! DEFINITION. The named operations over memory, the stack, the interrupt mechanism and the ports
(spec/20_memory.md R47 to R53, R60, R63; spec/45_system.md R150, R151; spec/60_exceptions.md R165, R167), and reset and
image loading (spec/70_reset_and_hazards.md R180, spec/30_encoding.md R88). A read answers its value and the state after
it, since reading an undefined byte may draw a free value. -/

namespace Sys2Proof.Machine

/-- The defined value of the byte at an address under the current MB, if it has one; it draws nothing. -/
def peek (s : State) (a : Word) : Option Byte :=
  match storageKey s.cfg s.mb a with
  | .error _ => none
  | .ok k =>
    match s.mem.read k with
    | some v => some v
    | none => if inRom a then s.cfg.romFill else none

/-- `MemRead(addr, 1)` (R47). A byte with no value is `UNSPECIFIED(U14)` in ROM and `UNSPECIFIED(U8)` elsewhere. -/
def readByte (s : State) (a : Word) : Except Refusal (Byte × State) :=
  match storageKey s.cfg s.mb a with
  | .error r => .error r
  | .ok _ =>
    match peek s a with
    | some v => .ok (v, s)
    | none =>
      if inRom a then .error (.uncoveredRom a)
      else
        match s.cfg.unwritten with
        | .refuse => .error (.unwrittenByte a)
        | .anyValue => .ok (Config.freeByte s.draws, s.drawn)

/-- `MemWrite(addr, 1, v)` (R49): nothing happens in ROM (R51). -/
def writeByte (s : State) (a : Word) (v : Byte) : Except Refusal State :=
  if inRom a then .ok s
  else
    match storageKey s.cfg s.mb a with
    | .error r => .error r
    | .ok k => .ok (s.withMem (s.mem.write k v))

/-- Where the lower byte of a 16-bit access at `a` lies (R48, R50): `a` when it is even; when it is odd MISALIGNED
decides (R52). -/
def wordBase (cfg : Config) (a : Word) : Except Refusal Word :=
  if isOdd a then
    match cfg.misaligned with
    | .split => .ok a
    | .mask => .ok (a - 1#16)
    | .refuse => .error (.misaligned a)
  else .ok a

/-- `MemRead(addr, 2)` (R48, R52): little-endian, the lower byte first, addresses modulo 2^16 (R54). -/
def readWord (s : State) (a : Word) : Except Refusal (Word × State) := do
  let base ← wordBase s.cfg a
  let (lo, s₁) ← readByte s base
  let (hi, s₂) ← readByte s₁ (base + 1#16)
  pure (wordOf lo hi, s₂)

/-- `MemWrite(addr, 2, v)` (R50, R52). -/
def writeWord (s : State) (a : Word) (v : Word) : Except Refusal State := do
  let base ← wordBase s.cfg a
  let s₁ ← writeByte s base (lowByte v)
  writeByte s₁ (base + 1#16) (highByte v)

/-- A push writes no byte below STACK_AREA, where a claim supplies one (U9). -/
def pushWithin (cfg : Config) (base : Word) : Bool :=
  match cfg.stackArea with
  | none => true
  | some area => decide (area.lo.toNat ≤ base.toNat)

/-- A pop reads no byte above STACK_AREA, where a claim supplies one (U9). -/
def popWithin (cfg : Config) (base : Word) : Bool :=
  match cfg.stackArea with
  | none => true
  | some area => decide (base.toNat ≤ area.hi.toNat) && decide ((base + 1#16).toNat ≤ area.hi.toNat)

/-- The write of a push: dropped while SP points into ROM (R51, decision D19), else a word at SP. -/
def stackWrite (s : State) (v : Word) : Except Refusal State :=
  if inRom s.sp then .ok s
  else do
    let base ← wordBase s.cfg s.sp
    if pushWithin s.cfg base then writeWord s s.sp v else .error (.stackOverflow s.sp)

/-- The push inside CALL and INT (R142, R150): the write, then SP down by 2 even if the write was dropped. -/
def pushWord (s : State) (v : Word) : Except Refusal State := do
  let s₁ ← stackWrite s v
  pure (s₁.withSp (s.sp - 2#16))

/-- A pop (R16, R104): SP up by 2, then the word at SP. -/
def popWord (s : State) : Except Refusal (Word × State) := do
  let sp := s.sp + 2#16
  let base ← wordBase s.cfg sp
  if popWithin s.cfg base then readWord (s.withSp sp) sp else .error (.stackUnderflow sp)

/-- `VECTOR_LOW_ADDR(n)` (R63): the address of the low byte of entry `n` of the interrupt table. -/
def vectorLowAddr (cfg : Config) (n : Word) : Word :=
  match cfg.vectorLow with
  | .lastByte => 0xFFFE#16 - 2#16 * n
  | .firstByte => 0xFFFF#16 - 2#16 * n

/-- Taking interrupt `n` (R150 steps 1 to 4, R165): push the return address, push all of F, clear `F.I`, go to the
address held in entry `n`. A number above 127 has no entry (U13). -/
def takeInterrupt (s : State) (n ret : Word) : Except Refusal State :=
  if 127 < n.toNat then .error (.absentInterrupt n)
  else do
    let s₁ ← pushWord s ret
    let s₂ ← pushWord s₁ s₁.f
    let s₃ := s₂.setFlag .i false
    let (handler, s₄) ← readWord s₃ (vectorLowAddr s₃.cfg n)
    pure (s₄.withPc handler)

/-- Returning from an interrupt (R151 steps 1 and 2, R167): pop all of F, then `pc`. -/
def returnFromInterrupt (s : State) : Except Refusal State := do
  let (flags, s₁) ← popWord s
  let (target, s₂) ← popWord (s₁.withF flags)
  pure (s₂.withPc target)

/-- The oldest answer pending from a port, and the answers left. -/
def takeAnswer (port : Byte) : List (Byte × Word) → Option (Word × List (Byte × Word))
  | [] => none
  | (p, v) :: rest =>
    if p = port then some (v, rest)
    else
      match takeAnswer port rest with
      | none => none
      | some (w, left) => some (w, (p, v) :: left)

/-- The port a 16-bit operand names: 0 to 255 (R60, R132, U10). -/
def portOf (p : Word) : Except Refusal Byte :=
  if 255 < p.toNat then .error (.absentPort p) else .ok (p.setWidth 8)

/-- `PortRead(p)` (R60): the device's pending answer if there is one, else any value; the access is logged. -/
def portRead (s : State) (p : Word) : Except Refusal (Word × State) :=
  match portOf p with
  | .error r => .error r
  | .ok port =>
    match takeAnswer port s.portIn with
    | some (v, left) => .ok (v, (s.withPortIn left).withPortLog (s.portLog ++ [.read port v]))
    | none =>
      let v := Config.portAnswer port s.portLog
      .ok (v, s.withPortLog (s.portLog ++ [.read port v]))

/-- `PortWrite(p, v)` (R60): the event is appended to the log. -/
def portWrite (s : State) (p v : Word) : Except Refusal State :=
  match portOf p with
  | .error r => .error r
  | .ok port => .ok (s.withPortLog (s.portLog ++ [.write port v]))

/-- The output log: what the devices were handed, in program order (R60, R190). -/
def outputLog : List PortEvent → List (Byte × Word)
  | [] => []
  | .write p v :: rest => (p, v) :: outputLog rest
  | .read _ _ :: rest => outputLog rest

/-- The bytes of the image from address `k` on that lie below 0x8000 (R88, decision D30). -/
def imageCells : Nat → List Byte → Memory
  | _, [] => []
  | k, v :: rest => if k < 0x8000 then (k, v) :: imageCells (k + 1) rest else []

/-- Loading a binary image: byte `k` of the image is ROM byte `k`, and bytes from 0x8000 on have no effect (R88). -/
def loadImage (s : State) (image : List Byte) : State := s.withMem (imageCells 0 image)

/-- A reset of a machine that has run (R180): registers and the halted flag 0, ROM as it was, every byte of RAM and of
the banks without a value. The parameters, the ports' side and the count of free values are not the machine's. -/
def resetMachine (s : State) : State :=
  { State.reset with
    mem := s.mem.filter fun cell => isRomKey cell.1
    portIn := s.portIn
    portLog := s.portLog
    draws := s.draws
    cfg := s.cfg }

end Sys2Proof.Machine
end

