-- ==== Sys2Proof/Machine/Arithmetic.lean ====
section
/-! DEFINITION. ADD, ADC, SUB, SBC, INC, DEC (spec/41_arithmetic.md R110 to R117). -/

namespace Sys2Proof.Machine

/-- The common shape (R117): both operands and `F.C` are read, the result goes to rC, then Z, C and O are written. -/
def arith (op : Word → Word → Bool → Alu) (len : Nat) (rC : Reg) (src : Operand) (s : State) : Result := finish do
  let a ← readReg s len rC
  let b ← readOperand s len src
  let res := op a b (s.flag .c)
  let s₁ ← writeReg s rC res.r
  pure ((s₁.setZCO res.z res.c res.o).withPc (nextPc s len))

/-- ADD's operation: no carry in (R111). -/
def addOp (a b : Word) (_ : Bool) : Alu := addFlags a b false

/-- ADC's operation: `F.C` is the carry in (R112). -/
def adcOp (a b : Word) (cin : Bool) : Alu := addFlags a b cin

/-- SUB's operation: no borrow in (R113). -/
def subOp (a b : Word) (_ : Bool) : Alu := subFlags a b false

/-- SBC's operation: `F.C` is the borrow in (R114). -/
def sbcOp (a b : Word) (bin : Bool) : Alu := subFlags a b bin

/-- `ADD rC, rD` (R111). -/
def execAddR (rC rD : Reg) (s : State) : Result := arith addOp 2 rC (.reg rD) s

/-- `ADD rC, imm16` (R111). -/
def execAddI (rC : Reg) (imm : Word) (s : State) : Result := arith addOp 4 rC (.imm imm) s

/-- `ADC rC, rD` (R112). -/
def execAdcR (rC rD : Reg) (s : State) : Result := arith adcOp 2 rC (.reg rD) s

/-- `ADC rC, imm16` (R112). -/
def execAdcI (rC : Reg) (imm : Word) (s : State) : Result := arith adcOp 4 rC (.imm imm) s

/-- `SUB rC, rD` (R113). -/
def execSubR (rC rD : Reg) (s : State) : Result := arith subOp 2 rC (.reg rD) s

/-- `SUB rC, imm16` (R113). -/
def execSubI (rC : Reg) (imm : Word) (s : State) : Result := arith subOp 4 rC (.imm imm) s

/-- `SBC rC, rD` (R114). -/
def execSbcR (rC rD : Reg) (s : State) : Result := arith sbcOp 2 rC (.reg rD) s

/-- `SBC rC, imm16` (R114). -/
def execSbcI (rC : Reg) (imm : Word) (s : State) : Result := arith sbcOp 4 rC (.imm imm) s

/-- `INC rC`: ADD with operand 2 equal to 1 (R115). -/
def execIncR (rC : Reg) (s : State) : Result := arith addOp 2 rC (.imm 1#16) s

/-- `DEC rC`: SUB with operand 2 equal to 1 (R116). -/
def execDecR (rC : Reg) (s : State) : Result := arith subOp 2 rC (.imm 1#16) s

end Sys2Proof.Machine
end

