-- ==== Sys2Proof/Machine/Control.lean ====
section
/-! DEFINITION. CMP, JMP, JZ, JNZ, JC, JNC, CALL, RET (spec/44_compare_control.md R135 to R144). -/

namespace Sys2Proof.Machine

/-- CMP: Z and C as after a subtraction; the result and O are discarded (R135). -/
def compareTo (len : Nat) (rC : Reg) (src : Operand) (s : State) : Result := finish do
  let a ← readReg s len rC
  let b ← readOperand s len src
  let res := subFlags a b false
  pure (((s.setFlag .z res.z).setFlag .c res.c).withPc (nextPc s len))

/-- A jump: to the operand's own value if the condition holds, else to the next instruction (R136). -/
def jumpIf (cond : Bool) (len : Nat) (target : Operand) (s : State) : Result := finish do
  let t ← readOperand s len target
  pure (s.withPc (if cond then t else nextPc s len))

/-- CALL: the target is read, the address of the next instruction is pushed, control transfers (R142). -/
def callTo (len : Nat) (target : Operand) (s : State) : Result := finish do
  let t ← readOperand s len target
  let s₁ ← pushWord s (nextPc s len)
  pure (s₁.withPc t)

/-- `CMP rC, rD` (R135). -/
def execCmpR (rC rD : Reg) (s : State) : Result := compareTo 2 rC (.reg rD) s

/-- `CMP rC, imm16` (R135). -/
def execCmpI (rC : Reg) (imm : Word) (s : State) : Result := compareTo 4 rC (.imm imm) s

/-- `JMP rC` (R137). -/
def execJmpR (rC : Reg) (s : State) : Result := jumpIf true 2 (.reg rC) s

/-- `JMP imm16` (R137). -/
def execJmpI (imm : Word) (s : State) : Result := jumpIf true 4 (.imm imm) s

/-- `JZ rC` (R138). -/
def execJzR (rC : Reg) (s : State) : Result := jumpIf (s.flag .z) 2 (.reg rC) s

/-- `JZ imm16` (R138). -/
def execJzI (imm : Word) (s : State) : Result := jumpIf (s.flag .z) 4 (.imm imm) s

/-- `JNZ rC` (R139). -/
def execJnzR (rC : Reg) (s : State) : Result := jumpIf (!s.flag .z) 2 (.reg rC) s

/-- `JNZ imm16` (R139). -/
def execJnzI (imm : Word) (s : State) : Result := jumpIf (!s.flag .z) 4 (.imm imm) s

/-- `JC rC` (R140). -/
def execJcR (rC : Reg) (s : State) : Result := jumpIf (s.flag .c) 2 (.reg rC) s

/-- `JC imm16` (R140). -/
def execJcI (imm : Word) (s : State) : Result := jumpIf (s.flag .c) 4 (.imm imm) s

/-- `JNC rC` (R141). -/
def execJncR (rC : Reg) (s : State) : Result := jumpIf (!s.flag .c) 2 (.reg rC) s

/-- `JNC imm16` (R141). -/
def execJncI (imm : Word) (s : State) : Result := jumpIf (!s.flag .c) 4 (.imm imm) s

/-- `CALL rC` (R142). -/
def execCallR (rC : Reg) (s : State) : Result := callTo 2 (.reg rC) s

/-- `CALL imm16` (R142). -/
def execCallI (imm : Word) (s : State) : Result := callTo 4 (.imm imm) s

/-- `RET` (R143): pop a word into `pc`. -/
def execRet (s : State) : Result := finish do
  let (target, s₁) ← popWord s
  pure (s₁.withPc target)

end Sys2Proof.Machine
end

