-- ==== Sys2Proof/Machine/DataMovement.lean ====
section
/-! DEFINITION. LOAD, STORE, MOVE, PUSH, POP (spec/40_data_movement.md R100 to R105). No flag is read or written. -/

namespace Sys2Proof.Machine

/-- LOAD from the address an operand gives (R100). -/
def loadFrom (len : Nat) (rC : Reg) (addr : Operand) (s : State) : Result := finish do
  let a ← readOperand s len addr
  let (v, s₁) ← readWord s a
  let s₂ ← writeReg s₁ rC v
  pure (s₂.withPc (nextPc s len))

/-- The write of a STORE: nothing in ROM (R51, R101). -/
def storeWord (s : State) (a v : Word) : Except Refusal State :=
  if inRom a then .ok s else writeWord s a v

/-- The push of a PUSH: nothing at all, SP included, with SP in ROM (R51, R103, decision D19). -/
def pushUnlessRom (s : State) (v : Word) : Except Refusal State :=
  if inRom s.sp then .ok s else pushWord s v

/-- STORE of a register to the address an operand gives (R101). -/
def storeTo (len : Nat) (addr : Operand) (data : Reg) (s : State) : Result := finish do
  let a ← readOperand s len addr
  let v ← readReg s len data
  let s₁ ← storeWord s a v
  pure (s₁.withPc (nextPc s len))

/-- MOVE (R102). -/
def moveTo (len : Nat) (rC : Reg) (src : Operand) (s : State) : Result := finish do
  let v ← readOperand s len src
  let s₁ ← writeReg s rC v
  pure (s₁.withPc (nextPc s len))

/-- PUSH (R103). -/
def pushOperand (len : Nat) (src : Operand) (s : State) : Result := finish do
  let v ← readOperand s len src
  let s₁ ← pushUnlessRom s v
  pure (s₁.withPc (nextPc s len))

/-- POP: the register write is the last effect on the register file (R104). -/
def popTo (len : Nat) (rC : Reg) (s : State) : Result := finish do
  let (v, s₁) ← popWord s
  let s₂ ← writeReg s₁ rC v
  pure (s₂.withPc (nextPc s len))

/-- `LOAD rC, [rD]` (R100). -/
def execLoadR (rC rD : Reg) (s : State) : Result := loadFrom 2 rC (.reg rD) s

/-- `LOAD rC, [imm16]` (R100). -/
def execLoadI (rC : Reg) (imm : Word) (s : State) : Result := loadFrom 4 rC (.imm imm) s

/-- `STORE [rC], rD` (R101). -/
def execStoreR (rC rD : Reg) (s : State) : Result := storeTo 2 (.reg rC) rD s

/-- `STORE [imm16], rC` (R101). -/
def execStoreI (rC : Reg) (imm : Word) (s : State) : Result := storeTo 4 (.imm imm) rC s

/-- `MOVE rC, rD` (R102). -/
def execMoveR (rC rD : Reg) (s : State) : Result := moveTo 2 rC (.reg rD) s

/-- `MOVE rC, imm16` (R102). -/
def execMoveI (rC : Reg) (imm : Word) (s : State) : Result := moveTo 4 rC (.imm imm) s

/-- `PUSH rC` (R103). -/
def execPushR (rC : Reg) (s : State) : Result := pushOperand 2 (.reg rC) s

/-- `PUSH imm16` (R103). -/
def execPushI (imm : Word) (s : State) : Result := pushOperand 4 (.imm imm) s

/-- `POP rC` (R104). -/
def execPopR (rC : Reg) (s : State) : Result := popTo 2 rC s

end Sys2Proof.Machine
end

