-- ==== Sys2Proof/Machine/Ports.lean ====
section
/-! DEFINITION. INB, OUTB (spec/43_io.md R130 to R132). -/

namespace Sys2Proof.Machine

/-- INB from the port an operand names: the value goes to rC, then Z is written from it (R130). -/
def inFrom (len : Nat) (rC : Reg) (port : Operand) (s : State) : Result := finish do
  let p ← readOperand s len port
  let (v, s₁) ← portRead s p
  let s₂ ← writeReg s₁ rC v
  pure ((s₂.setFlag .z (v == 0#16)).withPc (nextPc s len))

/-- OUTB of a register to the port an operand names; no flag is written (R131). -/
def outTo (len : Nat) (port : Operand) (data : Reg) (s : State) : Result := finish do
  let p ← readOperand s len port
  let v ← readReg s len data
  let s₁ ← portWrite s p v
  pure (s₁.withPc (nextPc s len))

/-- `INB rC, port(rD)` (R130). -/
def execInbR (rC rD : Reg) (s : State) : Result := inFrom 2 rC (.reg rD) s

/-- `INB rC, port(imm16)` (R130). -/
def execInbI (rC : Reg) (imm : Word) (s : State) : Result := inFrom 4 rC (.imm imm) s

/-- `OUTB port(rC), rD` (R131). -/
def execOutbR (rC rD : Reg) (s : State) : Result := outTo 2 (.reg rC) rD s

/-- `OUTB port(imm16), rC` (R131). -/
def execOutbI (rC : Reg) (imm : Word) (s : State) : Result := outTo 4 (.imm imm) rC s

end Sys2Proof.Machine
end

