-- ==== Sys2Proof/Machine/ShiftLogic.lean ====
section
/-! DEFINITION. SHL, SHR, AND, OR, NOR, NOT, XOR (spec/42_shift_logic.md R120 to R127). -/

namespace Sys2Proof.Machine

/-- The common shape of SHL and SHR (R127): the result goes to rC, then Z and C are written (C as SHIFT_FLAGS
says), and O with any value (U11), which is one draw. -/
def shift (result : Word → Word → Word) (carry : Word → Word → Bool) (len : Nat) (rC : Reg) (count : Operand)
    (s : State) : Result := finish do
  let a ← readReg s len rC
  let n ← readOperand s len count
  let r := result a n
  let s₁ ← writeReg s rC r
  pure (((s₁.setZCO (r == 0#16) (shiftCarry s (carry a n)) (shiftOverflow s)).drawn).withPc (nextPc s len))

/-- The common shape of the bitwise operations (R127): the result goes to rC, then Z is written, no other flag. -/
def logic (op : Word → Word → Word) (len : Nat) (rC : Reg) (src : Operand) (s : State) : Result := finish do
  let a ← readReg s len rC
  let b ← readOperand s len src
  let r := op a b
  let s₁ ← writeReg s rC r
  pure ((s₁.setFlag .z (r == 0#16)).withPc (nextPc s len))

/-- `a & b` (R122). -/
def andOp (a b : Word) : Word := a &&& b

/-- `a | b` (R123). -/
def orOp (a b : Word) : Word := a ||| b

/-- `~(a | b)` (R124). -/
def norOp (a b : Word) : Word := ~~~(a ||| b)

/-- `a ^ b` (R126). -/
def xorOp (a b : Word) : Word := a ^^^ b

/-- `~a` (R125): NOT has one operand, so the second is not used. -/
def notOp (a _ : Word) : Word := ~~~a

/-- `SHL rC, rD` (R120). -/
def execShlR (rC rD : Reg) (s : State) : Result := shift shlResult shlCarry 2 rC (.reg rD) s

/-- `SHL rC, imm16` (R120). -/
def execShlI (rC : Reg) (imm : Word) (s : State) : Result := shift shlResult shlCarry 4 rC (.imm imm) s

/-- `SHR rC, rD` (R121). -/
def execShrR (rC rD : Reg) (s : State) : Result := shift shrResult shrCarry 2 rC (.reg rD) s

/-- `SHR rC, imm16` (R121). -/
def execShrI (rC : Reg) (imm : Word) (s : State) : Result := shift shrResult shrCarry 4 rC (.imm imm) s

/-- `AND rC, rD` (R122). -/
def execAndR (rC rD : Reg) (s : State) : Result := logic andOp 2 rC (.reg rD) s

/-- `AND rC, imm16` (R122). -/
def execAndI (rC : Reg) (imm : Word) (s : State) : Result := logic andOp 4 rC (.imm imm) s

/-- `OR rC, rD` (R123). -/
def execOrR (rC rD : Reg) (s : State) : Result := logic orOp 2 rC (.reg rD) s

/-- `OR rC, imm16` (R123). -/
def execOrI (rC : Reg) (imm : Word) (s : State) : Result := logic orOp 4 rC (.imm imm) s

/-- `NOR rC, rD` (R124). -/
def execNorR (rC rD : Reg) (s : State) : Result := logic norOp 2 rC (.reg rD) s

/-- `NOR rC, imm16` (R124). -/
def execNorI (rC : Reg) (imm : Word) (s : State) : Result := logic norOp 4 rC (.imm imm) s

/-- `NOT rC` (R125). -/
def execNotR (rC : Reg) (s : State) : Result := logic notOp 2 rC (.imm 0#16) s

/-- `XOR rC, rD` (R126). -/
def execXorR (rC rD : Reg) (s : State) : Result := logic xorOp 2 rC (.reg rD) s

/-- `XOR rC, imm16` (R126). -/
def execXorI (rC : Reg) (imm : Word) (s : State) : Result := logic xorOp 4 rC (.imm imm) s

end Sys2Proof.Machine
end

