-- ==== Sys2Proof/Machine/System.lean ====
section
/-! DEFINITION. INT, IRET, HALT, NOP (spec/45_system.md R150 to R154). -/

namespace Sys2Proof.Machine

/-- `INT imm16` (R150): masked (`F.I` = 0) it only advances `pc`, whatever its number; else the interrupt is taken
with the address of the next instruction as return address (decision D14). -/
def execIntI (imm : Word) (s : State) : Result :=
  if s.flag .i then finish (takeInterrupt s imm (nextPc s 4)) else .next (s.withPc (nextPc s 4))

/-- `IRET` (R151): with `F.I` = 0 IRET_MASKED decides; else the return. -/
def execIret (s : State) : Result :=
  if s.flag .i || s.cfg.iretMasked == .returns then finish (returnFromInterrupt s)
  else .next (s.withPc (nextPc s 2))

/-- `HALT` (R152): the halted flag is set and `pc` advances (decision D27). -/
def execHalt (s : State) : Result := .next ((s.withHalted true).withPc (nextPc s 2))

/-- `NOP` (R153). -/
def execNop (s : State) : Result := .next (s.withPc (nextPc s 2))

end Sys2Proof.Machine
end

