-- ==== Sys2Proof/Machine/Dispatch.lean ====
section
/-! DEFINITION. The meaning of every instruction: one arm per constructor of `Instr`, each one call of its own
meaning. -/

namespace Sys2Proof.Machine

def exec (i : Instr) (s : State) : Host.Outcome State Fault Refusal :=
  match i with
  | .loadR rC rD => Sys2Proof.Machine.execLoadR rC rD s
  | .loadI rC imm => Sys2Proof.Machine.execLoadI rC imm s
  | .storeR rC rD => Sys2Proof.Machine.execStoreR rC rD s
  | .storeI rC imm => Sys2Proof.Machine.execStoreI rC imm s
  | .moveR rC rD => Sys2Proof.Machine.execMoveR rC rD s
  | .moveI rC imm => Sys2Proof.Machine.execMoveI rC imm s
  | .pushR rC => Sys2Proof.Machine.execPushR rC s
  | .pushI imm => Sys2Proof.Machine.execPushI imm s
  | .popR rC => Sys2Proof.Machine.execPopR rC s
  | .addR rC rD => Sys2Proof.Machine.execAddR rC rD s
  | .addI rC imm => Sys2Proof.Machine.execAddI rC imm s
  | .adcR rC rD => Sys2Proof.Machine.execAdcR rC rD s
  | .adcI rC imm => Sys2Proof.Machine.execAdcI rC imm s
  | .subR rC rD => Sys2Proof.Machine.execSubR rC rD s
  | .subI rC imm => Sys2Proof.Machine.execSubI rC imm s
  | .sbcR rC rD => Sys2Proof.Machine.execSbcR rC rD s
  | .sbcI rC imm => Sys2Proof.Machine.execSbcI rC imm s
  | .incR rC => Sys2Proof.Machine.execIncR rC s
  | .decR rC => Sys2Proof.Machine.execDecR rC s
  | .shlR rC rD => Sys2Proof.Machine.execShlR rC rD s
  | .shlI rC imm => Sys2Proof.Machine.execShlI rC imm s
  | .shrR rC rD => Sys2Proof.Machine.execShrR rC rD s
  | .shrI rC imm => Sys2Proof.Machine.execShrI rC imm s
  | .andR rC rD => Sys2Proof.Machine.execAndR rC rD s
  | .andI rC imm => Sys2Proof.Machine.execAndI rC imm s
  | .orR rC rD => Sys2Proof.Machine.execOrR rC rD s
  | .orI rC imm => Sys2Proof.Machine.execOrI rC imm s
  | .norR rC rD => Sys2Proof.Machine.execNorR rC rD s
  | .norI rC imm => Sys2Proof.Machine.execNorI rC imm s
  | .notR rC => Sys2Proof.Machine.execNotR rC s
  | .xorR rC rD => Sys2Proof.Machine.execXorR rC rD s
  | .xorI rC imm => Sys2Proof.Machine.execXorI rC imm s
  | .inbR rC rD => Sys2Proof.Machine.execInbR rC rD s
  | .inbI rC imm => Sys2Proof.Machine.execInbI rC imm s
  | .outbR rC rD => Sys2Proof.Machine.execOutbR rC rD s
  | .outbI rC imm => Sys2Proof.Machine.execOutbI rC imm s
  | .cmpR rC rD => Sys2Proof.Machine.execCmpR rC rD s
  | .cmpI rC imm => Sys2Proof.Machine.execCmpI rC imm s
  | .jmpR rC => Sys2Proof.Machine.execJmpR rC s
  | .jmpI imm => Sys2Proof.Machine.execJmpI imm s
  | .jzR rC => Sys2Proof.Machine.execJzR rC s
  | .jzI imm => Sys2Proof.Machine.execJzI imm s
  | .jnzR rC => Sys2Proof.Machine.execJnzR rC s
  | .jnzI imm => Sys2Proof.Machine.execJnzI imm s
  | .jcR rC => Sys2Proof.Machine.execJcR rC s
  | .jcI imm => Sys2Proof.Machine.execJcI imm s
  | .jncR rC => Sys2Proof.Machine.execJncR rC s
  | .jncI imm => Sys2Proof.Machine.execJncI imm s
  | .callR rC => Sys2Proof.Machine.execCallR rC s
  | .callI imm => Sys2Proof.Machine.execCallI imm s
  | .ret => Sys2Proof.Machine.execRet s
  | .intI imm => Sys2Proof.Machine.execIntI imm s
  | .iret => Sys2Proof.Machine.execIret s
  | .halt => Sys2Proof.Machine.execHalt s
  | .nop => Sys2Proof.Machine.execNop s

end Sys2Proof.Machine
end

