-- ==== Sys2Proof/Decode.lean ====
section
/-! DEFINITION. Decoding (total on any bytes, rejecting by name) and encoding, from the layout and the table of forms
of spec/30_encoding.md (R70 to R83). -/

namespace Sys2Proof

/-- Why bytes are no instruction. -/
inductive DecodeError where
  /-- There are fewer bytes than the format needs. -/
  | truncated
  /-- Format 6 or 7 (R79, U1). -/
  | reservedFormat
  /-- An (opcode, format) pair that is no row of the table of forms (R80, R83, U1). -/
  | unassignedForm
  /-- A meaningful register field that selects a reserved slot (R81, U2). -/
  | reservedRegister
  deriving DecidableEq, Repr

/-- The field `AAAAA`, `I0[7:3]` (R71). -/
def opcodeField (i0 : Byte) : Nat := i0.toNat / 8

/-- The field `BBB`, `I0[2:0]` (R71). -/
def formatField (i0 : Byte) : Nat := i0.toNat % 8

/-- The field `CCCC`, `I1[7:4]` (R71). -/
def fieldC (i1 : Byte) : Nat := i1.toNat / 16

/-- The field `DDDD`, `I1[3:0]` (R71). -/
def fieldD (i1 : Byte) : Nat := i1.toNat % 16

/-- An instruction's format carries an immediate: the length is known from `I0[2:0]` alone (R74). -/
def hasImm (i0 : Byte) : Bool := formatField i0 == 2 || formatField i0 == 4

/-- The operand fields a form uses, with the constructor they fill (R72, R76). -/
inductive Shape where
  | noOperand (i : Instr)
  | reg (mk : Reg → Instr)
  | imm (mk : Word → Instr)
  | regReg (mk : Reg → Reg → Instr)
  | regImm (mk : Reg → Word → Instr)

/-- A row of the table of assigned forms (R78). -/
structure FormRow where
  opcode : Nat
  format : Nat
  shape : Shape

/-- The format of a register-indirect LOAD or STORE (LOADSTORE_INDIRECT_FORMAT, R78). -/
def indirectFormat : IndirectFormat → Nat
  | .fmt3 => 3
  | .fmt5 => 5

/-- The assigned forms of opcodes 0 to 4 (R78). -/
def formsDataMovement (ind : IndirectFormat) : List FormRow :=
  [ ⟨0, indirectFormat ind, .regReg .loadR⟩,
    ⟨0, 4, .regImm .loadI⟩,
    ⟨1, indirectFormat ind, .regReg .storeR⟩,
    ⟨1, 4, .regImm .storeI⟩,
    ⟨2, 3, .regReg .moveR⟩,
    ⟨2, 4, .regImm .moveI⟩,
    ⟨3, 1, .reg .pushR⟩,
    ⟨3, 2, .imm .pushI⟩,
    ⟨4, 1, .reg .popR⟩ ]

/-- The assigned forms of opcodes 5 to 10 (R78). -/
def formsArithmetic : List FormRow :=
  [ ⟨5, 3, .regReg .addR⟩,
    ⟨5, 4, .regImm .addI⟩,
    ⟨6, 3, .regReg .adcR⟩,
    ⟨6, 4, .regImm .adcI⟩,
    ⟨7, 3, .regReg .subR⟩,
    ⟨7, 4, .regImm .subI⟩,
    ⟨8, 3, .regReg .sbcR⟩,
    ⟨8, 4, .regImm .sbcI⟩,
    ⟨9, 1, .reg .incR⟩,
    ⟨10, 1, .reg .decR⟩ ]

/-- The assigned forms of opcodes 11 to 17 (R78). -/
def formsShiftLogic : List FormRow :=
  [ ⟨11, 3, .regReg .shlR⟩,
    ⟨11, 4, .regImm .shlI⟩,
    ⟨12, 3, .regReg .shrR⟩,
    ⟨12, 4, .regImm .shrI⟩,
    ⟨13, 3, .regReg .andR⟩,
    ⟨13, 4, .regImm .andI⟩,
    ⟨14, 3, .regReg .orR⟩,
    ⟨14, 4, .regImm .orI⟩,
    ⟨15, 3, .regReg .norR⟩,
    ⟨15, 4, .regImm .norI⟩,
    ⟨16, 1, .reg .notR⟩,
    ⟨17, 3, .regReg .xorR⟩,
    ⟨17, 4, .regImm .xorI⟩ ]

/-- The assigned forms of opcodes 18 and 19 (R78). -/
def formsPort : List FormRow :=
  [ ⟨18, 3, .regReg .inbR⟩,
    ⟨18, 4, .regImm .inbI⟩,
    ⟨19, 3, .regReg .outbR⟩,
    ⟨19, 4, .regImm .outbI⟩ ]

/-- The assigned forms of opcodes 20 to 27 (R78). -/
def formsControl : List FormRow :=
  [ ⟨20, 3, .regReg .cmpR⟩,
    ⟨20, 4, .regImm .cmpI⟩,
    ⟨21, 1, .reg .jmpR⟩,
    ⟨21, 2, .imm .jmpI⟩,
    ⟨22, 1, .reg .jzR⟩,
    ⟨22, 2, .imm .jzI⟩,
    ⟨23, 1, .reg .jnzR⟩,
    ⟨23, 2, .imm .jnzI⟩,
    ⟨24, 1, .reg .jcR⟩,
    ⟨24, 2, .imm .jcI⟩,
    ⟨25, 1, .reg .jncR⟩,
    ⟨25, 2, .imm .jncI⟩,
    ⟨26, 1, .reg .callR⟩,
    ⟨26, 2, .imm .callI⟩,
    ⟨27, 0, .noOperand .ret⟩ ]

/-- The assigned forms of opcodes 28 to 31 (R78). -/
def formsSystem : List FormRow :=
  [ ⟨28, 2, .imm .intI⟩,
    ⟨29, 0, .noOperand .iret⟩,
    ⟨30, 0, .noOperand .halt⟩,
    ⟨31, 0, .noOperand .nop⟩ ]

/-- The 55 assigned forms (R78). -/
def assignedForms (ind : IndirectFormat) : List FormRow :=
  formsDataMovement ind ++ formsArithmetic ++ formsShiftLogic ++ formsPort ++ formsControl ++ formsSystem

/-- The assigned form of an opcode and a format, if there is one. -/
def lookupForm (ind : IndirectFormat) (opcode format : Nat) : Option Shape :=
  ((assignedForms ind).find? fun row => row.opcode == opcode && row.format == format).map FormRow.shape

/-- The slot a register number selects, unless it is reserved (R12, R81). -/
def decodeReg (cfg : Config) (number : Nat) : Except DecodeError Reg :=
  match cfg.regnum[number]? with
  | some r => if r.implemented then .ok r else .error .reservedRegister
  | none => .error .reservedRegister

/-- The fields a shape uses, put into its constructor; bits that are not meaningful are ignored (R82). -/
def decodeShape (cfg : Config) (sh : Shape) (i1 : Byte) (rest : List Byte) : Except DecodeError (Instr × List Byte) :=
  match sh, rest with
  | .noOperand i, rest => .ok (i, rest)
  | .reg mk, rest =>
    match decodeReg cfg (fieldC i1) with
    | .ok rC => .ok (mk rC, rest)
    | .error e => .error e
  | .regReg mk, rest =>
    match decodeReg cfg (fieldC i1), decodeReg cfg (fieldD i1) with
    | .ok rC, .ok rD => .ok (mk rC rD, rest)
    | .error e, _ => .error e
    | .ok _, .error e => .error e
  | .imm mk, i2 :: i3 :: rest => .ok (mk (Machine.wordOf i2 i3), rest)
  | .regImm mk, i2 :: i3 :: rest =>
    match decodeReg cfg (fieldC i1) with
    | .ok rC => .ok (mk rC (Machine.wordOf i2 i3), rest)
    | .error e => .error e
  | .imm _, _ => .error .truncated
  | .regImm _, _ => .error .truncated

/-- The instruction at the head of a list of bytes in memory order, and the bytes after it (R70 to R83). -/
def decode (cfg : Config) : List Byte → Except DecodeError (Instr × List Byte)
  | i0 :: i1 :: rest =>
    if 6 ≤ formatField i0 then .error .reservedFormat
    else
      match lookupForm cfg.indirectFmt (opcodeField i0) (formatField i0) with
      | none => .error .unassignedForm
      | some sh => decodeShape cfg sh i1 rest
  | _ => .error .truncated

/-- The number that selects a slot (REGNUM, R12). -/
def encodeReg (cfg : Config) (r : Reg) : Nat := cfg.regnum.idxOf r

/-- `I0` of an opcode and a format (R77: `I0 = opcode * 8 + fmt`). -/
def firstByte (opcode format : Nat) : Byte := BitVec.ofNat 8 (opcode * 8 + format)

/-- `I1` of two register numbers (R71). -/
def secondByte (c d : Nat) : Byte := BitVec.ofNat 8 (c * 16 + d)

/-- Format 0: no operands; the ignored bits are written as 0 (R82). -/
def encodeNone (opcode : Nat) : List Byte := [firstByte opcode 0, 0#8]

/-- Format 1: one register in `rC`. -/
def encodeR (cfg : Config) (opcode : Nat) (rC : Reg) : List Byte :=
  [firstByte opcode 1, secondByte (encodeReg cfg rC) 0]

/-- Format 2: an immediate, low byte first (R73). -/
def encodeI (opcode : Nat) (imm : Word) : List Byte :=
  [firstByte opcode 2, 0#8, Machine.lowByte imm, Machine.highByte imm]

/-- Format 3, or LOADSTORE_INDIRECT_FORMAT: two registers. -/
def encodeRR (cfg : Config) (opcode format : Nat) (rC rD : Reg) : List Byte :=
  [firstByte opcode format, secondByte (encodeReg cfg rC) (encodeReg cfg rD)]

/-- Format 4: a register in `rC` and an immediate. -/
def encodeRI (cfg : Config) (opcode : Nat) (rC : Reg) (imm : Word) : List Byte :=
  [firstByte opcode 4, secondByte (encodeReg cfg rC) 0, Machine.lowByte imm, Machine.highByte imm]

/-- The bytes of an instruction in memory order (R70 to R78). -/
def encode (cfg : Config) : Instr → List Byte
  | .loadR rC rD => encodeRR cfg 0 (indirectFormat cfg.indirectFmt) rC rD
  | .loadI rC imm => encodeRI cfg 0 rC imm
  | .storeR rC rD => encodeRR cfg 1 (indirectFormat cfg.indirectFmt) rC rD
  | .storeI rC imm => encodeRI cfg 1 rC imm
  | .moveR rC rD => encodeRR cfg 2 3 rC rD
  | .moveI rC imm => encodeRI cfg 2 rC imm
  | .pushR rC => encodeR cfg 3 rC
  | .pushI imm => encodeI 3 imm
  | .popR rC => encodeR cfg 4 rC
  | .addR rC rD => encodeRR cfg 5 3 rC rD
  | .addI rC imm => encodeRI cfg 5 rC imm
  | .adcR rC rD => encodeRR cfg 6 3 rC rD
  | .adcI rC imm => encodeRI cfg 6 rC imm
  | .subR rC rD => encodeRR cfg 7 3 rC rD
  | .subI rC imm => encodeRI cfg 7 rC imm
  | .sbcR rC rD => encodeRR cfg 8 3 rC rD
  | .sbcI rC imm => encodeRI cfg 8 rC imm
  | .incR rC => encodeR cfg 9 rC
  | .decR rC => encodeR cfg 10 rC
  | .shlR rC rD => encodeRR cfg 11 3 rC rD
  | .shlI rC imm => encodeRI cfg 11 rC imm
  | .shrR rC rD => encodeRR cfg 12 3 rC rD
  | .shrI rC imm => encodeRI cfg 12 rC imm
  | .andR rC rD => encodeRR cfg 13 3 rC rD
  | .andI rC imm => encodeRI cfg 13 rC imm
  | .orR rC rD => encodeRR cfg 14 3 rC rD
  | .orI rC imm => encodeRI cfg 14 rC imm
  | .norR rC rD => encodeRR cfg 15 3 rC rD
  | .norI rC imm => encodeRI cfg 15 rC imm
  | .notR rC => encodeR cfg 16 rC
  | .xorR rC rD => encodeRR cfg 17 3 rC rD
  | .xorI rC imm => encodeRI cfg 17 rC imm
  | .inbR rC rD => encodeRR cfg 18 3 rC rD
  | .inbI rC imm => encodeRI cfg 18 rC imm
  | .outbR rC rD => encodeRR cfg 19 3 rC rD
  | .outbI rC imm => encodeRI cfg 19 rC imm
  | .cmpR rC rD => encodeRR cfg 20 3 rC rD
  | .cmpI rC imm => encodeRI cfg 20 rC imm
  | .jmpR rC => encodeR cfg 21 rC
  | .jmpI imm => encodeI 21 imm
  | .jzR rC => encodeR cfg 22 rC
  | .jzI imm => encodeI 22 imm
  | .jnzR rC => encodeR cfg 23 rC
  | .jnzI imm => encodeI 23 imm
  | .jcR rC => encodeR cfg 24 rC
  | .jcI imm => encodeI 24 imm
  | .jncR rC => encodeR cfg 25 rC
  | .jncI imm => encodeI 25 imm
  | .callR rC => encodeR cfg 26 rC
  | .callI imm => encodeI 26 imm
  | .ret => encodeNone 27
  | .intI imm => encodeI 28 imm
  | .iret => encodeNone 29
  | .halt => encodeNone 30
  | .nop => encodeNone 31

/-- The four bytes of a number laid out as spec/opcode_table.json numbers it, in memory order: its first 16-bit word is
`{I0, I1}` (R71, R85), its second word is the immediate, low byte first (R73); bits from `nbits` up are 0. -/
def tableBytes (nbits w : Nat) : List Byte :=
  let v : BitVec 32 := BitVec.ofNat 32 (w % 2 ^ nbits)
  [v.extractLsb' 8 8, v.extractLsb' 0 8, v.extractLsb' 16 8, v.extractLsb' 24 8]

/-- The instruction the decoder reads, with the default parameters, from an instruction whose bits are `w`. -/
def decodeTableWord (nbits w : Nat) : Option Instr :=
  match decode Machine.defaultConfig (tableBytes nbits w) with
  | .ok (i, _) => some i
  | .error _ => none

end Sys2Proof
end

