-- ==== Sys2Proof/Machine/Fetch.lean ====
section
/-! DEFINITION. Fetching an instruction's bytes (spec/30_encoding.md R75 steps 1 and 3), the refusal of each decoding
error, and placing bytes where the next fetch reads them. -/

namespace Sys2Proof.Machine

/-- The 2 or 4 bytes of the instruction at `pc`, each read with the MB current at the start of the step, addresses
modulo 2^16 (R54, R59, R75); at an odd `pc` FETCH_ODD decides (R52). -/
def fetch (s : State) : Except Refusal (List Byte × State) :=
  if isOdd s.pc && s.cfg.fetchOdd == .refuse then .error (.oddFetch s.pc)
  else do
    let (i0, s₁) ← readByte s s.pc
    let (i1, s₂) ← readByte s₁ (s.pc + 1#16)
    if hasImm i0 then
      let (i2, s₃) ← readByte s₂ (s.pc + 2#16)
      let (i3, s₄) ← readByte s₃ (s.pc + 3#16)
      pure ([i0, i1, i2, i3], s₄)
    else pure ([i0, i1], s₂)

/-- A decoding error as the reason the step stops (R79 to R83). -/
def refusalOf : DecodeError → Refusal
  | .truncated => .truncatedInstruction
  | .reservedFormat => .reservedFormat
  | .unassignedForm => .unassignedForm
  | .reservedRegister => .reservedRegister

/-- Bytes put into storage from an address on, ROM included: a host's load, not an instruction's store. -/
def placeBytes (s : State) (a : Word) : List Byte → State
  | [] => s
  | v :: rest =>
    match storageKey s.cfg s.mb a with
    | .ok k => placeBytes (s.withMem (s.mem.write k v)) (a + 1#16) rest
    | .error _ => s

end Sys2Proof.Machine
end

