-- ==== Sys2Proof/Machine/Step.lean ====
section
/-! DEFINITION. One step of the machine (spec/30_encoding.md R75), and the state in which a given instruction is the
next one. -/

namespace Sys2Proof.Machine

/-- Fetch, decode, execute (R75). A halted machine stays in the same state for ever (R24, R152, U17). -/
def step (s : State) : Host.Outcome State Fault Refusal :=
  if s.halted then .next s
  else
    match fetch s with
    | .error r => .refused r
    | .ok (bytes, s₁) =>
      match decode s.cfg bytes with
      | .error e => .refused (refusalOf e)
      | .ok (i, _) => exec i s₁

/-- `s` with the instruction whose bits are `w` stored at `pc`, and not halted, so that the next step runs it: it
stands for a load from outside the machine (log 29, log 42). -/
def State.withFetchWord (s : State) (nbits w : Nat) : State :=
  placeBytes (s.withHalted false) s.pc (tableBytes nbits w)

end Sys2Proof.Machine
end

