-- ==== Sys2Proof/Safety.lean ====
section
/-! DEFINITION. What claims are stated in: the invariant of the state, which bytes an access can read or write, what a
store leaves in memory, and which registers, flags and locations an instruction may change (spec/10_state.md R19,
R26). -/

namespace Sys2Proof.Machine

/-- What every step keeps: the memory is in canonical form and lists only locations that exist, and the parameters are
admissible (log 1, log 41). -/
def State.inv (s : State) : Bool := s.mem.wf && s.mem.within s.cfg && s.cfg.wf

/-- The byte at an address exists and can be read: it has a value, or it is a byte of RAM nothing has written and U8 is
treated as any value (R47, R53). -/
def readable (s : State) (a : Word) : Prop :=
  (∃ k, storageKey s.cfg s.mb a = .ok k) ∧
    (peek s a ≠ none ∨ (inRom a = false ∧ s.cfg.unwritten = .anyValue))

/-- A 16-bit read at `a` accesses the bytes at `base` and `base + 1`, and both can be read (R48, R52). -/
def wordReadable (s : State) (a base : Word) : Prop :=
  wordBase s.cfg a = .ok base ∧ readable s base ∧ readable s (base + 1#16)

/-- The byte at an address is in ROM, where a write does nothing, or exists in RAM or a bank (R49). -/
def writable (s : State) (a : Word) : Prop :=
  inRom a = true ∨ ∃ k, storageKey s.cfg s.mb a = .ok k

/-- A 16-bit write at `a` accesses the bytes at `base` and `base + 1`, and both can be written (R50, R52). -/
def wordWritable (s : State) (a base : Word) : Prop :=
  wordBase s.cfg a = .ok base ∧ writable s base ∧ writable s (base + 1#16)

/-- `v` agrees with every byte that has a value at `base` (low byte) and `base + 1` (high byte): the other bytes are
free values (R45, R48, U8). -/
def agrees (s : State) (base v : Word) : Prop :=
  (∀ b, peek s base = some b → lowByte v = b) ∧ (∀ b, peek s (base + 1#16) = some b → highByte v = b)

/-- What a one-byte write at an address leaves at a location, if it touches it (R49, R51). -/
def storedByte (s : State) (a : Word) (v : Byte) (key : Nat) : Option Byte :=
  if inRom a then none
  else
    match storageKey s.cfg s.mb a with
    | .ok k => if k = key then some v else none
    | .error _ => none

/-- What location `key` holds after the word `v` was stored at `base`, `base + 1` (R50). -/
def byteAfterStore (s : State) (base v : Word) (key : Nat) : Option Byte :=
  match storedByte s (base + 1#16) (highByte v) key with
  | some b => some b
  | none =>
    match storedByte s base (lowByte v) key with
    | some b => some b
    | none => s.mem.read key

/-- A push at stack pointer `sp` can be carried out: it is dropped in ROM, else its word can be written at `base`, not
below STACK_AREA (R51, R103, U9). -/
def pushable (s : State) (sp base : Word) : Prop :=
  inRom sp = true ∨ (wordWritable s sp base ∧ pushWithin s.cfg base = true)

/-- What location `key` holds after the word `v` was pushed at `sp`, `base` being where its low byte goes. -/
def byteAfterPush (s : State) (sp base v : Word) (key : Nat) : Option Byte :=
  if inRom sp then s.mem.read key else byteAfterStore s base v key

/-- A pop that leaves SP at `sp` can be carried out (R104, U9). -/
def poppable (s : State) (sp base : Word) : Prop :=
  wordReadable s sp base ∧ popWithin s.cfg base = true

/-- The result is outside the signed 16-bit range. -/
def outOfSigned (v : Int) : Bool := decide (v < -32768 ∨ 32767 < v)

/-- The register operands of an instruction, in the order of the fields rC, rD that hold them (R76). -/
def operandRegs : Instr → List Reg
  | .loadR rC rD => [rC, rD]
  | .loadI rC _ => [rC]
  | .storeR rC rD => [rC, rD]
  | .storeI rC _ => [rC]
  | .moveR rC rD => [rC, rD]
  | .moveI rC _ => [rC]
  | .pushR rC => [rC]
  | .pushI _ => []
  | .popR rC => [rC]
  | .addR rC rD => [rC, rD]
  | .addI rC _ => [rC]
  | .adcR rC rD => [rC, rD]
  | .adcI rC _ => [rC]
  | .subR rC rD => [rC, rD]
  | .subI rC _ => [rC]
  | .sbcR rC rD => [rC, rD]
  | .sbcI rC _ => [rC]
  | .incR rC => [rC]
  | .decR rC => [rC]
  | .shlR rC rD => [rC, rD]
  | .shlI rC _ => [rC]
  | .shrR rC rD => [rC, rD]
  | .shrI rC _ => [rC]
  | .andR rC rD => [rC, rD]
  | .andI rC _ => [rC]
  | .orR rC rD => [rC, rD]
  | .orI rC _ => [rC]
  | .norR rC rD => [rC, rD]
  | .norI rC _ => [rC]
  | .notR rC => [rC]
  | .xorR rC rD => [rC, rD]
  | .xorI rC _ => [rC]
  | .inbR rC rD => [rC, rD]
  | .inbI rC _ => [rC]
  | .outbR rC rD => [rC, rD]
  | .outbI rC _ => [rC]
  | .cmpR rC rD => [rC, rD]
  | .cmpI rC _ => [rC]
  | .jmpR rC => [rC]
  | .jmpI _ => []
  | .jzR rC => [rC]
  | .jzI _ => []
  | .jnzR rC => [rC]
  | .jnzI _ => []
  | .jcR rC => [rC]
  | .jcI _ => []
  | .jncR rC => [rC]
  | .jncI _ => []
  | .callR rC => [rC]
  | .callI _ => []
  | .ret => []
  | .intI _ => []
  | .iret => []
  | .halt => []
  | .nop => []

/-- The register an instruction writes as its destination operand (R26). -/
def destination : Instr → Option Reg
  | .loadR rC _ => some rC
  | .loadI rC _ => some rC
  | .storeR _ _ => none
  | .storeI _ _ => none
  | .moveR rC _ => some rC
  | .moveI rC _ => some rC
  | .pushR _ => none
  | .pushI _ => none
  | .popR rC => some rC
  | .addR rC _ => some rC
  | .addI rC _ => some rC
  | .adcR rC _ => some rC
  | .adcI rC _ => some rC
  | .subR rC _ => some rC
  | .subI rC _ => some rC
  | .sbcR rC _ => some rC
  | .sbcI rC _ => some rC
  | .incR rC => some rC
  | .decR rC => some rC
  | .shlR rC _ => some rC
  | .shlI rC _ => some rC
  | .shrR rC _ => some rC
  | .shrI rC _ => some rC
  | .andR rC _ => some rC
  | .andI rC _ => some rC
  | .orR rC _ => some rC
  | .orI rC _ => some rC
  | .norR rC _ => some rC
  | .norI rC _ => some rC
  | .notR rC => some rC
  | .xorR rC _ => some rC
  | .xorI rC _ => some rC
  | .inbR rC _ => some rC
  | .inbI rC _ => some rC
  | .outbR _ _ => none
  | .outbI _ _ => none
  | .cmpR _ _ => none
  | .cmpI _ _ => none
  | .jmpR _ => none
  | .jmpI _ => none
  | .jzR _ => none
  | .jzI _ => none
  | .jnzR _ => none
  | .jnzI _ => none
  | .jcR _ => none
  | .jcI _ => none
  | .jncR _ => none
  | .jncI _ => none
  | .callR _ => none
  | .callI _ => none
  | .ret => none
  | .intI _ => none
  | .iret => none
  | .halt => none
  | .nop => none

/-- The flags an instruction writes as a side effect, besides those it writes by having F as destination (R19). IRET
restores all of F and is treated apart. -/
def flagsWritten : Instr → List Flag
  | .loadR _ _ => []
  | .loadI _ _ => []
  | .storeR _ _ => []
  | .storeI _ _ => []
  | .moveR _ _ => []
  | .moveI _ _ => []
  | .pushR _ => []
  | .pushI _ => []
  | .popR _ => []
  | .addR _ _ => [.z, .c, .o]
  | .addI _ _ => [.z, .c, .o]
  | .adcR _ _ => [.z, .c, .o]
  | .adcI _ _ => [.z, .c, .o]
  | .subR _ _ => [.z, .c, .o]
  | .subI _ _ => [.z, .c, .o]
  | .sbcR _ _ => [.z, .c, .o]
  | .sbcI _ _ => [.z, .c, .o]
  | .incR _ => [.z, .c, .o]
  | .decR _ => [.z, .c, .o]
  | .shlR _ _ => [.z, .c, .o]
  | .shlI _ _ => [.z, .c, .o]
  | .shrR _ _ => [.z, .c, .o]
  | .shrI _ _ => [.z, .c, .o]
  | .andR _ _ => [.z]
  | .andI _ _ => [.z]
  | .orR _ _ => [.z]
  | .orI _ _ => [.z]
  | .norR _ _ => [.z]
  | .norI _ _ => [.z]
  | .notR _ => [.z]
  | .xorR _ _ => [.z]
  | .xorI _ _ => [.z]
  | .inbR _ _ => [.z]
  | .inbI _ _ => [.z]
  | .outbR _ _ => []
  | .outbI _ _ => []
  | .cmpR _ _ => [.z, .c]
  | .cmpI _ _ => [.z, .c]
  | .jmpR _ => []
  | .jmpI _ => []
  | .jzR _ => []
  | .jzI _ => []
  | .jnzR _ => []
  | .jnzI _ => []
  | .jcR _ => []
  | .jcI _ => []
  | .jncR _ => []
  | .jncI _ => []
  | .callR _ => []
  | .callI _ => []
  | .ret => []
  | .intI _ => [.i]
  | .iret => []
  | .halt => []
  | .nop => []

/-- The instructions that move SP besides having it as destination (R16). -/
def movesSp : Instr → Bool
  | .loadR _ _ => false
  | .loadI _ _ => false
  | .storeR _ _ => false
  | .storeI _ _ => false
  | .moveR _ _ => false
  | .moveI _ _ => false
  | .pushR _ => true
  | .pushI _ => true
  | .popR _ => true
  | .addR _ _ => false
  | .addI _ _ => false
  | .adcR _ _ => false
  | .adcI _ _ => false
  | .subR _ _ => false
  | .subI _ _ => false
  | .sbcR _ _ => false
  | .sbcI _ _ => false
  | .incR _ => false
  | .decR _ => false
  | .shlR _ _ => false
  | .shlI _ _ => false
  | .shrR _ _ => false
  | .shrI _ _ => false
  | .andR _ _ => false
  | .andI _ _ => false
  | .orR _ _ => false
  | .orI _ _ => false
  | .norR _ _ => false
  | .norI _ _ => false
  | .notR _ => false
  | .xorR _ _ => false
  | .xorI _ _ => false
  | .inbR _ _ => false
  | .inbI _ _ => false
  | .outbR _ _ => false
  | .outbI _ _ => false
  | .cmpR _ _ => false
  | .cmpI _ _ => false
  | .jmpR _ => false
  | .jmpI _ => false
  | .jzR _ => false
  | .jzI _ => false
  | .jnzR _ => false
  | .jnzI _ => false
  | .jcR _ => false
  | .jcI _ => false
  | .jncR _ => false
  | .jncI _ => false
  | .callR _ => true
  | .callI _ => true
  | .ret => true
  | .intI _ => true
  | .iret => true
  | .halt => false
  | .nop => false

/-- The instructions that may set `pc` to anything but the address of the next instruction (R15). -/
def transfersControl : Instr → Bool
  | .loadR _ _ => false
  | .loadI _ _ => false
  | .storeR _ _ => false
  | .storeI _ _ => false
  | .moveR _ _ => false
  | .moveI _ _ => false
  | .pushR _ => false
  | .pushI _ => false
  | .popR _ => false
  | .addR _ _ => false
  | .addI _ _ => false
  | .adcR _ _ => false
  | .adcI _ _ => false
  | .subR _ _ => false
  | .subI _ _ => false
  | .sbcR _ _ => false
  | .sbcI _ _ => false
  | .incR _ => false
  | .decR _ => false
  | .shlR _ _ => false
  | .shlI _ _ => false
  | .shrR _ _ => false
  | .shrI _ _ => false
  | .andR _ _ => false
  | .andI _ _ => false
  | .orR _ _ => false
  | .orI _ _ => false
  | .norR _ _ => false
  | .norI _ _ => false
  | .notR _ => false
  | .xorR _ _ => false
  | .xorI _ _ => false
  | .inbR _ _ => false
  | .inbI _ _ => false
  | .outbR _ _ => false
  | .outbI _ _ => false
  | .cmpR _ _ => false
  | .cmpI _ _ => false
  | .jmpR _ => true
  | .jmpI _ => true
  | .jzR _ => true
  | .jzI _ => true
  | .jnzR _ => true
  | .jnzI _ => true
  | .jcR _ => true
  | .jcI _ => true
  | .jncR _ => true
  | .jncI _ => true
  | .callR _ => true
  | .callI _ => true
  | .ret => true
  | .intI _ => true
  | .iret => true
  | .halt => false
  | .nop => false

/-- The addresses at which an instruction may store a word, each computed as its meaning computes it: STORE at its
address operand, PUSH and CALL at SP, a taken INT at SP and SP - 2 (R101, R103, R142, R150). -/
def storeAddresses (s : State) : Instr → List Word
  | .loadR _ _ => []
  | .loadI _ _ => []
  | .storeR rC _ => [getReg s 2 rC]
  | .storeI _ imm => [imm]
  | .moveR _ _ => []
  | .moveI _ _ => []
  | .pushR _ => [s.sp]
  | .pushI _ => [s.sp]
  | .popR _ => []
  | .addR _ _ => []
  | .addI _ _ => []
  | .adcR _ _ => []
  | .adcI _ _ => []
  | .subR _ _ => []
  | .subI _ _ => []
  | .sbcR _ _ => []
  | .sbcI _ _ => []
  | .incR _ => []
  | .decR _ => []
  | .shlR _ _ => []
  | .shlI _ _ => []
  | .shrR _ _ => []
  | .shrI _ _ => []
  | .andR _ _ => []
  | .andI _ _ => []
  | .orR _ _ => []
  | .orI _ _ => []
  | .norR _ _ => []
  | .norI _ _ => []
  | .notR _ => []
  | .xorR _ _ => []
  | .xorI _ _ => []
  | .inbR _ _ => []
  | .inbI _ _ => []
  | .outbR _ _ => []
  | .outbI _ _ => []
  | .cmpR _ _ => []
  | .cmpI _ _ => []
  | .jmpR _ => []
  | .jmpI _ => []
  | .jzR _ => []
  | .jzI _ => []
  | .jnzR _ => []
  | .jnzI _ => []
  | .jcR _ => []
  | .jcI _ => []
  | .jncR _ => []
  | .jncI _ => []
  | .callR _ => [s.sp]
  | .callI _ => [s.sp]
  | .ret => []
  | .intI _ => if s.flag .i then [s.sp, s.sp - 2#16] else []
  | .iret => []
  | .halt => []
  | .nop => []

/-- Location `key` is one of the bytes that a word store at address `a` writes. -/
def storesTo (s : State) (a : Word) (key : Nat) : Prop :=
  ∃ base, wordBase s.cfg a = .ok base ∧
    (storageKey s.cfg s.mb base = .ok key ∨ storageKey s.cfg s.mb (base + 1#16) = .ok key)

/-- The instructions that access an I/O port (R40, R60). -/
def usesPort : Instr → Bool
  | .loadR _ _ => false
  | .loadI _ _ => false
  | .storeR _ _ => false
  | .storeI _ _ => false
  | .moveR _ _ => false
  | .moveI _ _ => false
  | .pushR _ => false
  | .pushI _ => false
  | .popR _ => false
  | .addR _ _ => false
  | .addI _ _ => false
  | .adcR _ _ => false
  | .adcI _ _ => false
  | .subR _ _ => false
  | .subI _ _ => false
  | .sbcR _ _ => false
  | .sbcI _ _ => false
  | .incR _ => false
  | .decR _ => false
  | .shlR _ _ => false
  | .shlI _ _ => false
  | .shrR _ _ => false
  | .shrI _ _ => false
  | .andR _ _ => false
  | .andI _ _ => false
  | .orR _ _ => false
  | .orI _ _ => false
  | .norR _ _ => false
  | .norI _ _ => false
  | .notR _ => false
  | .xorR _ _ => false
  | .xorI _ _ => false
  | .inbR _ _ => true
  | .inbI _ _ => true
  | .outbR _ _ => true
  | .outbI _ _ => true
  | .cmpR _ _ => false
  | .cmpI _ _ => false
  | .jmpR _ => false
  | .jmpI _ => false
  | .jzR _ => false
  | .jzI _ => false
  | .jnzR _ => false
  | .jnzI _ => false
  | .jcR _ => false
  | .jcI _ => false
  | .jncR _ => false
  | .jncI _ => false
  | .callR _ => false
  | .callI _ => false
  | .ret => false
  | .intI _ => false
  | .iret => false
  | .halt => false
  | .nop => false

/-- Bit `k` of F is occupied by one of the given flags (R18). -/
def isFlagBit (s : State) (flags : List Flag) (k : Nat) : Prop :=
  ∃ fl, fl ∈ flags ∧ (s.cfg.flagPos.pos fl).val = k

/-- The state after an arithmetic instruction with result and flags `res`: the result in rC, Z, C and O on top of it,
`pc` at the next instruction (R117). -/
def afterArith (s : State) (len : Nat) (rC : Reg) (res : Alu) : State :=
  ((putReg s rC res.r).setZCO res.z res.c res.o).withPc (nextPc s len)

/-- The state after a bitwise instruction with result `r`: the result in rC, Z on top of it, `pc` at the next
instruction (R127). -/
def afterLogic (s : State) (len : Nat) (rC : Reg) (r : Word) : State :=
  ((putReg s rC r).setFlag .z (r == 0#16)).withPc (nextPc s len)

/-- The state after a shift with result `r`, carry `c` and the value `o` in `F.O` (R127, U11). -/
def afterShift (s : State) (len : Nat) (rC : Reg) (r : Word) (c o : Bool) : State :=
  (((putReg s rC r).setZCO (r == 0#16) c o).drawn).withPc (nextPc s len)

/-- The state after INB received `v` from `port`: the answers left, the access at the end of the log, the value in rC,
Z on top of it, `pc` at the next instruction (R130). -/
def afterIn (s : State) (len : Nat) (rC : Reg) (port : Byte) (v : Word) (left : List (Byte × Word)) : State :=
  ((putReg ((s.withPortIn left).withPortLog (s.portLog ++ [.read port v])) rC v).setFlag .z (v == 0#16)).withPc
    (nextPc s len)

/-- `v` is the oldest answer pending from `port` and `left` are the answers left; if none is pending, `left` is all of
them and `v` is any value (R60). -/
def answered (s : State) (port : Byte) (v : Word) (left : List (Byte × Word)) : Prop :=
  (∀ pre w post, s.portIn = pre ++ (port, w) :: post → (∀ w', (port, w') ∉ pre) → v = w ∧ left = pre ++ post) ∧
    ((∀ w, (port, w) ∉ s.portIn) → left = s.portIn)

/-- A step that has a successor: the machine goes on (every other outcome is a stop by name). -/
def goesOn (r : Result) : Bool :=
  match r with
  | .next _ => true
  | .fault _ => false
  | .refused _ => false

end Sys2Proof.Machine
end

