-- ==== Sys2Proof/Certificates/Slice0/Obligations.lean ====
section
/-! DEFINITION. The statements about the model that the provers settle. "log n" is notes/assumptions/n.md. -/

open Sys2Proof Sys2Proof.Machine

/-! ## Encoding -/

/-- The words V7.1 to V7.6 of 95_test_vectors.md decode to the instructions they stand for, with the default REGNUM
(log 2), byte order (log 3) and formats (log 8). -/
def Obligations.SampleWordsDecode : Prop :=
  decode defaultConfig [0x14, 0xA0, 0x00, 0x08] = .ok (.moveI .f 0x0800, []) ∧
  decode defaultConfig [0x0B, 0x60] = .ok (.storeR .y .a, []) ∧
  decode defaultConfig [0xBA, 0x00, 0x08, 0x00] = .ok (.jnzI 0x0008, []) ∧
  decode defaultConfig [0xC1, 0x20] = .ok (.jcR .c, []) ∧
  decode defaultConfig [0xE8, 0x00] = .ok (.iret, []) ∧
  decode defaultConfig [0x9C, 0x40, 0x01, 0x00] = .ok (.outbI .e 0x0001, [])

/-- Decode and encode agree, for every instruction, every operand, every admissible REGNUM and both values of
LOADSTORE_INDIRECT_FORMAT, whatever bytes follow. -/
def Obligations.DecodeReadsBackEveryEncoding : Prop :=
  ∀ (cfg : Config) (i : Instr) (rest : List Byte), cfg.wf = true → i.wf = true →
    decode cfg (encode cfg i ++ rest) = .ok (i, rest)

/-- Bytes that decode are a well-formed instruction's own: as many as its length, with the first byte and the immediate
of its encoding, and with its register operands in the fields of the second byte that its format defines; so no
reserved encoding falls through to a neighbour. The bits that the format does not define may differ from the encoding's
zeros (decision D8, log 9). -/
def Obligations.DecodedBytesAgreeWithTheEncoding : Prop :=
  ∀ (cfg : Config) (bytes rest : List Byte) (i : Instr), decode cfg bytes = .ok (i, rest) →
    i.wf = true ∧ ∃ i0 i1 imm, bytes = i0 :: i1 :: (imm ++ rest) ∧ (i0 :: i1 :: imm).length = i.len ∧
      some i0 = (encode cfg i).head? ∧ imm = (encode cfg i).drop 2 ∧
      (∀ r, (operandRegs i)[0]? = some r → cfg.regnum[fieldC i1]? = some r) ∧
      (∀ r, (operandRegs i)[1]? = some r → cfg.regnum[fieldD i1]? = some r)

/-- Formats 6 and 7 are rejected for every opcode, format 5 and every pair outside the table are rejected, and so is a
register field that selects a reserved slot (log 10: the model stops there). -/
def Obligations.ReservedEncodingsAreRejected : Prop :=
  ∀ (cfg : Config) (i0 i1 : Byte) (rest : List Byte),
    (6 ≤ formatField i0 → decode cfg (i0 :: i1 :: rest) = .error .reservedFormat) ∧
    (formatField i0 < 6 → lookupForm cfg.indirectFmt (opcodeField i0) (formatField i0) = none →
      decode cfg (i0 :: i1 :: rest) = .error .unassignedForm) ∧
    (formatField i0 = 5 → cfg.indirectFmt = .fmt3 → decode cfg (i0 :: i1 :: rest) = .error .unassignedForm) ∧
    (∀ r, r.implemented = false → lookupForm cfg.indirectFmt (opcodeField i0) (formatField i0) ≠ none →
      (formatField i0 = 4 → 2 ≤ rest.length) →
      (formatField i0 ∈ [1, 3, 4, 5] ∧ cfg.regnum[fieldC i1]? = some r) ∨
        (formatField i0 ∈ [3, 5] ∧ cfg.regnum[fieldD i1]? = some r) →
      decode cfg (i0 :: i1 :: rest) = .error .reservedRegister)

/-- Bits that a format does not define do not matter: the whole second byte in formats 0 and 2, its low half in
formats 1 and 4 (decision D8, log 9). -/
def Obligations.UndefinedBitsAreIgnored : Prop :=
  ∀ (cfg : Config) (i0 i1 i1' : Byte) (rest : List Byte),
    (formatField i0 = 0 ∨ formatField i0 = 2 ∨
      ((formatField i0 = 1 ∨ formatField i0 = 4) ∧ fieldC i1 = fieldC i1')) →
    decode cfg (i0 :: i1 :: rest) = decode cfg (i0 :: i1' :: rest)

/-! ## The step, reset and the image -/

/-- When the bytes at `pc` have values and decode to `i`, the step is `exec i`, for a length of 2 and of 4. -/
def Obligations.StepRunsTheDecodedInstruction : Prop :=
  ∀ (s : State) (i0 i1 i2 i3 : Byte) (i : Instr), s.halted = false →
    (isOdd s.pc = false ∨ s.cfg.fetchOdd = .bytewise) →
    peek s s.pc = some i0 → peek s (s.pc + 1#16) = some i1 →
    (hasImm i0 = false → decode s.cfg [i0, i1] = .ok (i, []) → step s = exec i s) ∧
    (hasImm i0 = true → peek s (s.pc + 2#16) = some i2 → peek s (s.pc + 3#16) = some i3 →
      decode s.cfg [i0, i1, i2, i3] = .ok (i, []) → step s = exec i s)

/-- When the bytes at `pc` are no instruction (a reserved format, an unassigned form, a reserved register), the step
stops by that name, for a length of 2 and of 4; at an odd `pc` under FETCH_ODD = refuse it stops too (log 10, log 21). -/
def Obligations.StepStopsOnReservedEncodings : Prop :=
  ∀ (s : State) (i0 i1 i2 i3 : Byte) (e : DecodeError), s.halted = false →
    ((isOdd s.pc = false ∨ s.cfg.fetchOdd = .bytewise) → peek s s.pc = some i0 → peek s (s.pc + 1#16) = some i1 →
      (hasImm i0 = false → decode s.cfg [i0, i1] = .error e → step s = .refused (refusalOf e)) ∧
      (hasImm i0 = true → peek s (s.pc + 2#16) = some i2 → peek s (s.pc + 3#16) = some i3 →
        decode s.cfg [i0, i1, i2, i3] = .error e → step s = .refused (refusalOf e))) ∧
    (isOdd s.pc = true → s.cfg.fetchOdd = .refuse → step s = .refused (.oddFetch s.pc))

/-- A halted machine stays in the same state for ever, however many steps are taken. -/
def Obligations.HaltedMachineStays : Prop :=
  ∀ (s : State) (k : Nat), s.halted = true → step s = .next s ∧ Host.Core.run Sys2Proof.core k s = .next s

/-- Every step keeps the invariant: canonical memory, only existing locations listed, admissible parameters. -/
def Obligations.StepKeepsInvariant : Prop :=
  ∀ (s t : State), s.inv = true → step s = .next t → t.inv = true

/-- The invariant holds right after reset. -/
def Obligations.ResetMeetsInvariant : Prop := State.reset.inv = true

/-- Right after reset every register reads 0x0000, the machine is not halted (decision D27, log 26), interrupts are
masked, and no byte of memory has a value: RAM and the banks because their contents are undefined (decision D31,
log 30), ROM because State.reset holds no binary image, which is the model's choice (log 29), a byte without a value
being one that is not listed (log 41). The model's own fields are not spoken of. -/
def Obligations.ResetZeroesTheRegisters : Prop :=
  (∀ r len, r ≠ .pc → getReg State.reset len r = 0#16) ∧ State.reset.pc = 0#16 ∧ State.reset.halted = false ∧
    (∀ fl, State.reset.flag fl = false) ∧ ∀ key, State.reset.mem.read key = none

/-- A reset of a machine that has run: registers as after reset, every ROM byte as it was, every byte of RAM and of the
banks without a value (log 38). -/
def Obligations.ResetKeepsRomAndClearsTheRest : Prop :=
  ∀ (s : State), (∀ r, r ≠ .pc → getReg (resetMachine s) 2 r = 0#16) ∧ (resetMachine s).pc = 0#16 ∧
    (resetMachine s).halted = false ∧
    (∀ key, isRomKey key = true → (resetMachine s).mem.read key = s.mem.read key) ∧
    (∀ key, isRomKey key = false → (resetMachine s).mem.read key = none) ∧
    (s.inv = true → (resetMachine s).inv = true)

/-- Byte `k` of the binary image is the byte at address `k`, for `k` below 0x8000; nothing else has a value, however
long the image is (decision D30, log 29). -/
def Obligations.ImageBecomesRom : Prop :=
  ∀ (image : List Byte) (k : Nat),
    (loadImage State.reset image).mem.read k = (if k < 0x8000 then image[k]? else none) ∧
      (loadImage State.reset image).inv = true

/-! ## What no instruction does -/

/-- ROM is addresses 0x0000 to 0x7FFF; reads and instruction fetches return its contents; no step and no reset changes it; its contents are
the binary image. -/
def Obligations.HardwareNeverChangesRom : Prop :=
  (∀ a : Word, inRom a = true ↔ a.toNat ≤ 0x7FFF) ∧
  (∀ (s : State) (a : Word) (v : Byte), inRom a = true → s.mem.read a.toNat = some v → readByte s a = .ok (v, s)) ∧
  (∀ (s : State) (a : Word) (lo hi : Byte), isOdd a = false → inRom a = true → s.mem.read a.toNat = some lo →
    s.mem.read (a + 1#16).toNat = some hi → readWord s a = .ok (hi ++ lo, s)) ∧
  (∀ (s : State) (i0 i1 i2 i3 : Byte), isOdd s.pc = false → inRom s.pc = true →
    s.mem.read s.pc.toNat = some i0 → s.mem.read (s.pc + 1#16).toNat = some i1 →
    (hasImm i0 = false → fetch s = .ok ([i0, i1], s)) ∧
    (hasImm i0 = true → inRom (s.pc + 2#16) = true → s.mem.read (s.pc + 2#16).toNat = some i2 →
      s.mem.read (s.pc + 3#16).toNat = some i3 → fetch s = .ok ([i0, i1, i2, i3], s))) ∧
  (∀ (s t : State) (a : Word), step s = .next t → inRom a = true → t.mem.read a.toNat = s.mem.read a.toNat) ∧
  (∀ (s : State) (a : Word), inRom a = true → (resetMachine s).mem.read a.toNat = s.mem.read a.toNat) ∧
  (∀ (image : List Byte) (a : Word), inRom a = true →
    (loadImage State.reset image).mem.read a.toNat = image[a.toNat]?)

/-- A step changes no byte of a bank other than the one MB selects while it runs. -/
def Obligations.StepLeavesOtherBanksAlone : Prop :=
  ∀ (s t : State) (bank offset : Nat), step s = .next t → bank ≠ s.mb.toNat → offset < 0x4000 →
    t.mem.read (bankKey bank offset) = s.mem.read (bankKey bank offset)

/-- A step changes no parameter, and only adds to the log of port accesses. -/
def Obligations.StepKeepsParametersAndLog : Prop :=
  ∀ (s t : State), step s = .next t → t.cfg = s.cfg ∧ ∃ events, t.portLog = s.portLog ++ events ∧ events.length ≤ 1

/-- Frame, registers, every instruction: a register other than PC and F changes only as the destination operand, or SP
in the six instructions that push or pop; MB in particular changes only as destination. -/
def Obligations.OnlyDestinationsChange : Prop :=
  ∀ (i : Instr) (s t : State) (r : Reg), exec i s = .next t → r ≠ .pc → r ≠ .f → destination i ≠ some r →
    (r = .sp → movesSp i = false) → getReg t 2 r = getReg s 2 r

/-- Frame, flags, every instruction but IRET, where F is not the destination: each bit of F that is not one of the
flags the table of flag writers gives the instruction keeps its value. -/
def Obligations.OnlyListedFlagsChange : Prop :=
  ∀ (i : Instr) (s t : State) (k : Nat), exec i s = .next t → i ≠ .iret → destination i ≠ some .f →
    ¬ isFlagBit s (flagsWritten i) k → t.f.getLsbD k = s.f.getLsbD k

/-- No instruction computes N, and only INT clears I: with F not the destination and no IRET, N keeps its value, and I
keeps its value or is cleared by INT (decision D38, log 35). -/
def Obligations.NegativeAndInterruptFlagsKeep : Prop :=
  ∀ (i : Instr) (s t : State), s.cfg.flagPos.distinct = true → exec i s = .next t → i ≠ .iret →
    destination i ≠ some .f →
    t.flag .n = s.flag .n ∧ (t.flag .i = s.flag .i ∨ ((∃ n, i = .intI n) ∧ t.flag .i = false))

/-- Frame, memory, every instruction: a byte of ROM, RAM or any bank changes only if it is one of the bytes of a word
the instruction stores: STORE at its address operand, PUSH and CALL at SP, a taken INT at SP and SP - 2 (the push at SP
and the step of 2: decision D11, log 11). A store whose address is in ROM changes nothing, also where CALL or INT makes
it (decision D19, log 18). -/
def Obligations.OnlyStoredBytesChange : Prop :=
  ∀ (i : Instr) (s t : State) (key : Nat), exec i s = .next t →
    (∀ a ∈ storeAddresses s i, inRom a = true ∨ ¬ storesTo s a key) → t.mem.read key = s.mem.read key

/-- Frame, ports, every instruction: only INB and OUTB touch the ports' side, and each makes exactly one access. -/
def Obligations.OnlyPortInstructionsAccessPorts : Prop :=
  ∀ (i : Instr) (s t : State), exec i s = .next t →
    (usesPort i = false → t.portLog = s.portLog ∧ t.portIn = s.portIn) ∧
    (usesPort i = true → ∃ event, t.portLog = s.portLog ++ [event])

/-- Every instruction but JMP, JZ, JNZ, JC, JNC, CALL, RET, INT and IRET goes on at the next instruction, its own length
further (naming PC as destination does not change that, decision D5, log 6; of HALT this is the spec's own choice, on
which no program can rely: decision D27, U16, log 26); and only HALT changes the halted flag. -/
def Obligations.OtherInstructionsAdvanceAndOnlyHaltHalts : Prop :=
  ∀ (i : Instr) (s t : State), exec i s = .next t →
    (transfersControl i = false → t.pc = nextPc s i.len) ∧ (i ≠ .halt → t.halted = s.halted)

/-- An instruction that names a reserved register never has an effect (log 10). -/
def Obligations.ReservedRegistersNeverRun : Prop :=
  ∀ (i : Instr) (s : State), i.wf = false → ∃ r, exec i s = .refused r

/-! ## The register file, the flags, memory words -/

/-- The register file: a register reads back what was written to it, but PC, which reads as the next instruction's
address, and Z, which reads 0x0000; a write changes no other register; a reserved slot is neither read nor written
(decisions D5 and D6, log 6, log 7, log 10). -/
def Obligations.RegisterFileReadsBack : Prop :=
  ∀ (s : State) (r r' : Reg) (v : Word) (len : Nat),
    (r.implemented = true → readReg s len r = .ok (getReg s len r) ∧ writeReg s r v = .ok (putReg s r v)) ∧
    (r.implemented = false →
      readReg s len r = .error .reservedRegister ∧ writeReg s r v = .error .reservedRegister) ∧
    getReg s len .pc = nextPc s len ∧
    (getReg (putReg s r v) len r' =
      if r' = r ∧ r ≠ .pc ∧ r ≠ .z ∧ r.implemented = true then v else getReg s len r') ∧
    (putReg s r v).mem = s.mem ∧ (putReg s r v).pc = s.pc ∧ (putReg s r v).halted = s.halted

/-- Register Z always reads 0x0000, a write to it is discarded, and it stands where a register operand can: MOVE from
Z clears, CMP with Z compares with zero. -/
def Obligations.ZeroRegisterIsConstant : Prop :=
  (∀ (s : State) (len : Nat), readReg s len .z = .ok 0#16) ∧
  (∀ (s : State) (v : Word), writeReg s .z v = .ok s) ∧
  (∀ (s : State), exec (.moveR .a .z) s = .next ({ s with a := 0#16 }.withPc (nextPc s 2))) ∧
  (∀ (s t : State), s.cfg.flagPos.distinct = true → exec (.cmpR .a .z) s = .next t →
    t.flag .z = decide (s.a = 0#16) ∧ t.flag .c = false)

/-- Writing a flag changes its bit of F and no other bit; the flag then reads as written. -/
def Obligations.FlagWriteChangesOneBit : Prop :=
  ∀ (s : State) (fl : Flag) (b : Bool) (k : Nat), k < 16 →
    (s.setFlag fl b).f.getLsbD k = (if k = (s.cfg.flagPos.pos fl).val then b else s.f.getLsbD k) ∧
      (s.setFlag fl b).flag fl = b

/-- The flags of an addition: C is the unsigned outcome, O the signed one, Z the 16-bit result's (decision D16,
log 14). -/
def Obligations.AddFlagsReportTheSum : Prop :=
  ∀ (a b : Word) (cin : Bool),
    (addFlags a b cin).r.toNat = (a.toNat + b.toNat + cin.toNat) % 65536 ∧
    (addFlags a b cin).c = decide (65536 ≤ a.toNat + b.toNat + cin.toNat) ∧
    (addFlags a b cin).o = outOfSigned (a.toInt + b.toInt + cin.toNat) ∧
    (addFlags a b cin).z = decide ((a.toNat + b.toNat + cin.toNat) % 65536 = 0)

/-- The flags of a subtraction: C is 1 when a borrow occurred, compared without wrapping, O is the signed overflow
(decision D16, log 14). -/
def Obligations.SubFlagsReportTheDifference : Prop :=
  ∀ (a b : Word) (bin : Bool),
    (subFlags a b bin).r.toNat = (a.toNat + 131072 - b.toNat - bin.toNat) % 65536 ∧
    (subFlags a b bin).c = decide (a.toNat < b.toNat + bin.toNat) ∧
    (subFlags a b bin).o = outOfSigned (a.toInt - b.toInt - bin.toNat) ∧
    (subFlags a b bin).z = decide ((a.toNat + 131072 - b.toNat - bin.toNat) % 65536 = 0)

/-- A 16-bit access at an even address: the byte at the lower address is bits 7:0, both bytes lie in one region, and a
word in ROM is not written at all. -/
def Obligations.EvenWordIsTwoBytes : Prop :=
  ∀ (s : State) (a v : Word), isOdd a = false →
    (∀ lo hi s₁ s₂, readByte s a = .ok (lo, s₁) → readByte s₁ (a + 1#16) = .ok (hi, s₂) →
      readWord s a = .ok (hi ++ lo, s₂)) ∧
    (∀ s₁ s₂, writeByte s a (v.extractLsb' 0 8) = .ok s₁ → writeByte s₁ (a + 1#16) (v.extractLsb' 8 8) = .ok s₂ →
      writeWord s a v = .ok s₂) ∧
    inRom (a + 1#16) = inRom a ∧ inWindow (a + 1#16) = inWindow a ∧
    (inRom a = true → writeWord s a v = .ok s)

/-- A 16-bit access at an even address, and at an odd one under each MISALIGNED policy (log 20). Even, or odd under
`split`: a read gives the byte at `a` as low byte and the byte at `a + 1` as high byte, and a write puts the low byte at
`a` and the high byte at `a + 1`, each under its own region's rules and so dropped where it lies in ROM, and changes no
other byte. Odd under `mask`: the word at `a - 1`. Odd under `refuse`: a stop. -/
def Obligations.WordAccessFollowsAlignment : Prop :=
  ∀ (s : State) (a v : Word) (lo hi : Byte),
    (isOdd a = false ∨ s.cfg.misaligned = .split → peek s a = some lo → peek s (a + 1#16) = some hi →
      readWord s a = .ok (hi ++ lo, s)) ∧
    (isOdd a = false ∨ s.cfg.misaligned = .split → writable s a → writable s (a + 1#16) →
      ∃ m, writeWord s a v = .ok (s.withMem m) ∧
        (inRom a = false → peek (s.withMem m) a = some (v.extractLsb' 0 8)) ∧
        (inRom (a + 1#16) = false → peek (s.withMem m) (a + 1#16) = some (v.extractLsb' 8 8)) ∧
        (∀ key, isRomKey key = true → m.read key = s.mem.read key) ∧
        ∀ key, storageKey s.cfg s.mb a ≠ .ok key → storageKey s.cfg s.mb (a + 1#16) ≠ .ok key →
          m.read key = s.mem.read key) ∧
    (isOdd a = true → s.cfg.misaligned = .mask →
      readWord s a = readWord s (a - 1#16) ∧ writeWord s a v = writeWord s (a - 1#16) v) ∧
    (isOdd a = true → s.cfg.misaligned = .refuse →
      readWord s a = .error (.misaligned a) ∧ writeWord s a v = .error (.misaligned a))

/-- A load sees an earlier store: after a STORE of either form to an address outside ROM, a LOAD of either form from it
gives the stored word, at even addresses and at odd ones where the accesses are carried out (log 20, log 28). Under
MISALIGNED = split the address 0xFFFF is left out, since there the second byte is in ROM. -/
def Obligations.StoreThenLoadReturnsTheWord : Prop :=
  ∀ (s t : State) (rA rB rC rD : Reg) (a v : Word), rB.implemented = true → rD.implemented = true →
    inRom a = false → (a ≠ 0xFFFF#16 ∨ s.cfg.misaligned ≠ .split) →
    ((exec (.storeI rC a) s = .next t ∧ getReg s 4 rC = v) ∨
      (exec (.storeR rA rC) s = .next t ∧ getReg s 2 rA = a ∧ getReg s 2 rC = v)) →
    exec (.loadI rD a) t = .next ((putReg t rD v).withPc (nextPc t 4)) ∧
    (getReg t 2 rB = a → exec (.loadR rD rB) t = .next ((putReg t rD v).withPc (nextPc t 2)))

/-- LOAD and STORE, both forms, of bytes without a bank or a value, at an even address: in the window while MB names no
bank both stop (log 24); of a byte of RAM nothing has written a LOAD stops under the treatment `refuse` and completes
with some word under `any value` (log 30); of a ROM byte the image does not cover a LOAD stops while ROM_FILL is not
given (log 29). -/
def Obligations.BytesWithoutBankOrValue : Prop :=
  ∀ (s : State) (rA rC : Reg) (a : Word), rA.implemented = true → rC.implemented = true → isOdd a = false →
    (inWindow a = true → s.cfg.nbanks ≤ s.mb.toNat →
      (getReg s 2 rA = a →
        exec (.loadR rC rA) s = .refused (.absentBank s.mb a) ∧
        exec (.storeR rA rC) s = .refused (.absentBank s.mb a)) ∧
      exec (.loadI rC a) s = .refused (.absentBank s.mb a) ∧
      exec (.storeI rC a) s = .refused (.absentBank s.mb a)) ∧
    (peek s a = none → inRom a = false → inWindow a = false → s.cfg.unwritten = .refuse →
      (getReg s 2 rA = a → exec (.loadR rC rA) s = .refused (.unwrittenByte a)) ∧
      exec (.loadI rC a) s = .refused (.unwrittenByte a)) ∧
    (peek s a = none → inRom a = false → inWindow a = false → s.cfg.unwritten = .anyValue →
      (getReg s 2 rA = a → ∃ v n, exec (.loadR rC rA) s = .next ((putReg (s.withDraws n) rC v).withPc (nextPc s 2)) ∧
        ∀ b, peek s (a + 1#16) = some b → highByte v = b) ∧
      ∃ v n, exec (.loadI rC a) s = .next ((putReg (s.withDraws n) rC v).withPc (nextPc s 4)) ∧
        ∀ b, peek s (a + 1#16) = some b → highByte v = b) ∧
    (peek s a = none → inRom a = true →
      (getReg s 2 rA = a → exec (.loadR rC rA) s = .refused (.uncoveredRom a)) ∧
      exec (.loadI rC a) s = .refused (.uncoveredRom a))

/-! ## Data movement -/

/-- LOAD, both forms: where the word at the address can be read, it goes to the destination and `pc` advances; nothing
else of the machine changes. A byte without a value contributes any value (log 30). -/
def Obligations.LoadCompletes : Prop :=
  ∀ (s : State) (rC rD : Reg) (imm base : Word), rC.implemented = true →
    (rD.implemented = true → wordReadable s (getReg s 2 rD) base →
      ∃ v n, exec (.loadR rC rD) s = .next ((putReg (s.withDraws n) rC v).withPc (nextPc s 2)) ∧ agrees s base v) ∧
    (wordReadable s imm base →
      ∃ v n, exec (.loadI rC imm) s = .next ((putReg (s.withDraws n) rC v).withPc (nextPc s 4)) ∧ agrees s base v)

/-- STORE, both forms, outside ROM: the word's bytes go to the address and the next one, low byte first, and `pc`
advances; nothing else changes. -/
def Obligations.StoreCompletes : Prop :=
  ∀ (s : State) (rC rD : Reg) (imm base : Word), rC.implemented = true → rD.implemented = true →
    (inRom (getReg s 2 rC) = false → wordWritable s (getReg s 2 rC) base →
      ∃ m, exec (.storeR rC rD) s = .next ((s.withMem m).withPc (nextPc s 2)) ∧
        ∀ key, m.read key = byteAfterStore s base (getReg s 2 rD) key) ∧
    (inRom imm = false → wordWritable s imm base →
      ∃ m, exec (.storeI rC imm) s = .next ((s.withMem m).withPc (nextPc s 4)) ∧
        ∀ key, m.read key = byteAfterStore s base (getReg s 4 rC) key)

/-- STORE to a ROM address and PUSH with SP in ROM do nothing but advance `pc`, SP included (decision D19, log 18). -/
def Obligations.WritesToRomAreIgnored : Prop :=
  ∀ (s : State) (rC rD : Reg) (imm : Word), rC.implemented = true → rD.implemented = true →
    (inRom (getReg s 2 rC) = true → exec (.storeR rC rD) s = .next (s.withPc (nextPc s 2))) ∧
    (inRom imm = true → exec (.storeI rC imm) s = .next (s.withPc (nextPc s 4))) ∧
    (inRom s.sp = true → exec (.pushR rC) s = .next (s.withPc (nextPc s 2)) ∧
      exec (.pushI imm) s = .next (s.withPc (nextPc s 4)))

/-- MOVE, both forms: the value goes to the destination and `pc` advances; no flag and nothing else changes. -/
def Obligations.MoveCompletes : Prop :=
  ∀ (s : State) (rC rD : Reg) (imm : Word), rC.implemented = true →
    (rD.implemented = true →
      exec (.moveR rC rD) s = .next ((putReg s rC (getReg s 2 rD)).withPc (nextPc s 2))) ∧
    exec (.moveI rC imm) s = .next ((putReg s rC imm).withPc (nextPc s 4))

/-- PUSH, both forms, with SP outside ROM: the value the operand had before the instruction is stored at the old SP,
SP goes down by 2 (decision D11, log 11) and `pc` advances; nothing else changes. -/
def Obligations.PushCompletes : Prop :=
  ∀ (s : State) (rC : Reg) (imm base : Word), inRom s.sp = false → pushable s s.sp base →
    (rC.implemented = true →
      ∃ m, exec (.pushR rC) s = .next (((s.withMem m).withSp (s.sp - 2#16)).withPc (nextPc s 2)) ∧
        ∀ key, m.read key = byteAfterStore s base (getReg s 2 rC) key) ∧
    ∃ m, exec (.pushI imm) s = .next (((s.withMem m).withSp (s.sp - 2#16)).withPc (nextPc s 4)) ∧
      ∀ key, m.read key = byteAfterStore s base imm key

/-- POP: SP goes up by 2, the word there goes to the destination last, so that POP SP leaves the word in SP, and `pc`
advances; nothing else of the machine changes (decision D11, log 11). -/
def Obligations.PopCompletes : Prop :=
  ∀ (s : State) (rC : Reg) (base : Word), rC.implemented = true → poppable s (s.sp + 2#16) base →
    ∃ v n, exec (.popR rC) s =
        .next ((putReg ((s.withSp (s.sp + 2#16)).withDraws n) rC v).withPc (nextPc s 2)) ∧
      agrees s base v

/-- PUSH of either form, then POP, with SP even and outside ROM: the destination receives the pushed value and SP is
where it was (decision D11, log 11). -/
def Obligations.PushThenPopReturnsTheValue : Prop :=
  ∀ (s t : State) (rC rD : Reg) (v : Word), rD.implemented = true → isOdd s.sp = false → inRom s.sp = false →
    popWithin s.cfg s.sp = true →
    ((exec (.pushR rC) s = .next t ∧ getReg s 2 rC = v) ∨ exec (.pushI v) s = .next t) →
    exec (.popR rD) t = .next ((putReg (t.withSp s.sp) rD v).withPc (nextPc t 2))

/-- With STACK_AREA given (log 37), at an even stack pointer: a push that writes below the area stops PUSH, CALL and a
taken INT, the second push of INT too, unless SP is in ROM and nothing is written; a pop that reads above the area stops
POP, RET and IRET, the second pop of IRET too. -/
def Obligations.StackAreaStops : Prop :=
  ∀ (s : State) (rC : Reg) (imm : Word) (area : StackArea), rC.implemented = true → isOdd s.sp = false →
    s.cfg.stackArea = some area →
    (inRom s.sp = false → s.sp.toNat < area.lo.toNat →
      exec (.pushR rC) s = .refused (.stackOverflow s.sp) ∧ exec (.pushI imm) s = .refused (.stackOverflow s.sp) ∧
      exec (.callR rC) s = .refused (.stackOverflow s.sp) ∧ exec (.callI imm) s = .refused (.stackOverflow s.sp) ∧
      (s.flag .i = true → imm.toNat ≤ 127 → exec (.intI imm) s = .refused (.stackOverflow s.sp))) ∧
    (pushable s s.sp s.sp → inRom (s.sp - 2#16) = false → (s.sp - 2#16).toNat < area.lo.toNat → s.flag .i = true →
      imm.toNat ≤ 127 → exec (.intI imm) s = .refused (.stackOverflow (s.sp - 2#16))) ∧
    (area.hi.toNat < (s.sp + 3#16).toNat →
      exec (.popR rC) s = .refused (.stackUnderflow (s.sp + 2#16)) ∧
      exec .ret s = .refused (.stackUnderflow (s.sp + 2#16)) ∧
      (s.flag .i = true ∨ s.cfg.iretMasked = .returns →
        exec .iret s = .refused (.stackUnderflow (s.sp + 2#16)))) ∧
    (poppable s (s.sp + 2#16) (s.sp + 2#16) → area.hi.toNat < (s.sp + 5#16).toNat →
      s.flag .i = true ∨ s.cfg.iretMasked = .returns →
      exec .iret s = .refused (.stackUnderflow (s.sp + 4#16)))

/-! ## Arithmetic, shifts and logic -/

/-- ADD, SUB (both forms), INC and DEC: the result goes to rC, Z, C and O are written on top, `pc` advances, nothing
else changes; the carry flag is not read (decision D37, log 14; order of effects D18, log 17). -/
def Obligations.AddSubIncDecComplete : Prop :=
  ∀ (s : State) (rC rD : Reg) (imm : Word), rC.implemented = true →
    (rD.implemented = true →
      exec (.addR rC rD) s = .next (afterArith s 2 rC (addFlags (getReg s 2 rC) (getReg s 2 rD) false)) ∧
      exec (.subR rC rD) s = .next (afterArith s 2 rC (subFlags (getReg s 2 rC) (getReg s 2 rD) false))) ∧
    exec (.addI rC imm) s = .next (afterArith s 4 rC (addFlags (getReg s 4 rC) imm false)) ∧
    exec (.subI rC imm) s = .next (afterArith s 4 rC (subFlags (getReg s 4 rC) imm false)) ∧
    exec (.incR rC) s = .next (afterArith s 2 rC (addFlags (getReg s 2 rC) 1#16 false)) ∧
    exec (.decR rC) s = .next (afterArith s 2 rC (subFlags (getReg s 2 rC) 1#16 false))

/-- ADC and SBC, both forms: as ADD and SUB with `F.C` as the carry or borrow in. -/
def Obligations.AdcSbcComplete : Prop :=
  ∀ (s : State) (rC rD : Reg) (imm : Word), rC.implemented = true →
    (rD.implemented = true →
      exec (.adcR rC rD) s = .next (afterArith s 2 rC (addFlags (getReg s 2 rC) (getReg s 2 rD) (s.flag .c))) ∧
      exec (.sbcR rC rD) s = .next (afterArith s 2 rC (subFlags (getReg s 2 rC) (getReg s 2 rD) (s.flag .c)))) ∧
    exec (.adcI rC imm) s = .next (afterArith s 4 rC (addFlags (getReg s 4 rC) imm (s.flag .c))) ∧
    exec (.sbcI rC imm) s = .next (afterArith s 4 rC (subFlags (getReg s 4 rC) imm (s.flag .c)))

/-- The 32-bit addition of the pair (B:A) and the pair (D:C) by ADD A, C then ADC B, D gives the 32-bit sum modulo 2^32
and leaves its carry in `F.C`. -/
def Obligations.AddThenAdcAddsThirtyTwoBits : Prop :=
  ∀ (s t u : State), s.cfg.flagPos.distinct = true → exec (.addR .a .c) s = .next t →
    exec (.adcR .b .d) t = .next u →
    65536 * u.b.toNat + u.a.toNat =
      (65536 * s.b.toNat + s.a.toNat + (65536 * s.d.toNat + s.c.toNat)) % 4294967296 ∧
    u.flag .c = decide (4294967296 ≤ 65536 * s.b.toNat + s.a.toNat + (65536 * s.d.toNat + s.c.toNat))

/-- SHL and SHR, both forms: the count is the whole operand; the result is the product with, or the quotient by, the
power of two; C is the last bit shifted out under SHIFT_FLAGS = last bit, the default, and any value otherwise (decision
D17, log 15); O is any value (U11, log 16); `pc` advances and nothing else of the machine changes. -/
def Obligations.ShiftsComplete : Prop :=
  ∀ (s : State) (rC rD : Reg) (imm : Word), rC.implemented = true →
    (rD.implemented = true →
      (∃ c o, exec (.shlR rC rD) s = .next (afterShift s 2 rC
          (BitVec.ofNat 16 ((getReg s 2 rC).toNat * 2 ^ (getReg s 2 rD).toNat)) c o) ∧
        (s.cfg.shiftFlags = .lastBit → c = ((getReg s 2 rC).toNat * 2 ^ (getReg s 2 rD).toNat).testBit 16)) ∧
      (∃ c o, exec (.shrR rC rD) s = .next (afterShift s 2 rC
          (BitVec.ofNat 16 ((getReg s 2 rC).toNat / 2 ^ (getReg s 2 rD).toNat)) c o) ∧
        (s.cfg.shiftFlags = .lastBit →
          c = (2 * (getReg s 2 rC).toNat / 2 ^ (getReg s 2 rD).toNat).testBit 0))) ∧
    (∃ c o, exec (.shlI rC imm) s = .next (afterShift s 4 rC
        (BitVec.ofNat 16 ((getReg s 4 rC).toNat * 2 ^ imm.toNat)) c o) ∧
      (s.cfg.shiftFlags = .lastBit → c = ((getReg s 4 rC).toNat * 2 ^ imm.toNat).testBit 16)) ∧
    (∃ c o, exec (.shrI rC imm) s = .next (afterShift s 4 rC
        (BitVec.ofNat 16 ((getReg s 4 rC).toNat / 2 ^ imm.toNat)) c o) ∧
      (s.cfg.shiftFlags = .lastBit → c = (2 * (getReg s 4 rC).toNat / 2 ^ imm.toNat).testBit 0))

/-- AND, OR, NOR, XOR (both forms) and NOT: the result goes to rC, Z is written on top (D18, log 17), `pc` advances,
nothing else changes. -/
def Obligations.BitwiseOperationsComplete : Prop :=
  ∀ (s : State) (rC rD : Reg) (imm : Word), rC.implemented = true →
    (rD.implemented = true →
      exec (.andR rC rD) s = .next (afterLogic s 2 rC (getReg s 2 rC &&& getReg s 2 rD)) ∧
      exec (.orR rC rD) s = .next (afterLogic s 2 rC (getReg s 2 rC ||| getReg s 2 rD)) ∧
      exec (.norR rC rD) s = .next (afterLogic s 2 rC (~~~(getReg s 2 rC ||| getReg s 2 rD))) ∧
      exec (.xorR rC rD) s = .next (afterLogic s 2 rC (getReg s 2 rC ^^^ getReg s 2 rD))) ∧
    exec (.andI rC imm) s = .next (afterLogic s 4 rC (getReg s 4 rC &&& imm)) ∧
    exec (.orI rC imm) s = .next (afterLogic s 4 rC (getReg s 4 rC ||| imm)) ∧
    exec (.norI rC imm) s = .next (afterLogic s 4 rC (~~~(getReg s 4 rC ||| imm))) ∧
    exec (.xorI rC imm) s = .next (afterLogic s 4 rC (getReg s 4 rC ^^^ imm)) ∧
    exec (.notR rC) s = .next (afterLogic s 2 rC (~~~(getReg s 2 rC)))

/-! ## Ports -/

/-- INB, both forms, ports 0 to 255: the device's value goes to the destination, Z is written from it, the access is
logged, `pc` advances; nothing else changes. With no answer pending the value is any value (decision D26, log 25). -/
def Obligations.InbCompletes : Prop :=
  ∀ (s : State) (rC rD : Reg) (imm : Word), rC.implemented = true →
    (rD.implemented = true → (getReg s 2 rD).toNat ≤ 255 →
      ∃ v left, exec (.inbR rC rD) s = .next (afterIn s 2 rC ((getReg s 2 rD).setWidth 8) v left) ∧
        answered s ((getReg s 2 rD).setWidth 8) v left) ∧
    (imm.toNat ≤ 255 →
      ∃ v left, exec (.inbI rC imm) s = .next (afterIn s 4 rC (imm.setWidth 8) v left) ∧
        answered s (imm.setWidth 8) v left)

/-- OUTB, both forms, ports 0 to 255: the event is appended to the log and `pc` advances; no flag and nothing else
changes (decision D26, log 25). -/
def Obligations.OutbCompletes : Prop :=
  ∀ (s : State) (rC rD : Reg) (imm : Word), rC.implemented = true →
    (rD.implemented = true → (getReg s 2 rC).toNat ≤ 255 →
      exec (.outbR rC rD) s = .next ((s.withPortLog
        (s.portLog ++ [.write ((getReg s 2 rC).setWidth 8) (getReg s 2 rD)])).withPc (nextPc s 2))) ∧
    (imm.toNat ≤ 255 →
      exec (.outbI rC imm) s = .next ((s.withPortLog
        (s.portLog ++ [.write (imm.setWidth 8) (getReg s 4 rC)])).withPc (nextPc s 4)))

/-! ## Compare and control -/

/-- CMP, both forms: Z says equal, C says unsigned below; no register, no other flag and nothing else changes but
`pc`. -/
def Obligations.CmpCompletes : Prop :=
  ∀ (s : State) (rC rD : Reg) (imm : Word), rC.implemented = true →
    (rD.implemented = true →
      exec (.cmpR rC rD) s = .next (((s.setFlag .z (decide (getReg s 2 rC = getReg s 2 rD))).setFlag .c
        (decide ((getReg s 2 rC).toNat < (getReg s 2 rD).toNat))).withPc (nextPc s 2))) ∧
    exec (.cmpI rC imm) s = .next (((s.setFlag .z (decide (getReg s 4 rC = imm))).setFlag .c
      (decide ((getReg s 4 rC).toNat < imm.toNat))).withPc (nextPc s 4))

/-- JMP, JZ, JNZ, JC, JNC, both forms: `pc` is the operand's own value if the condition holds (decision D15, log 13),
else the next instruction; nothing else changes. -/
def Obligations.JumpsComplete : Prop :=
  ∀ (s : State) (rC : Reg) (imm : Word), rC.implemented = true →
    exec (.jmpR rC) s = .next (s.withPc (getReg s 2 rC)) ∧
    exec (.jmpI imm) s = .next (s.withPc imm) ∧
    exec (.jzR rC) s = .next (s.withPc (if s.flag .z = true then getReg s 2 rC else nextPc s 2)) ∧
    exec (.jzI imm) s = .next (s.withPc (if s.flag .z = true then imm else nextPc s 4)) ∧
    exec (.jnzR rC) s = .next (s.withPc (if s.flag .z = false then getReg s 2 rC else nextPc s 2)) ∧
    exec (.jnzI imm) s = .next (s.withPc (if s.flag .z = false then imm else nextPc s 4)) ∧
    exec (.jcR rC) s = .next (s.withPc (if s.flag .c = true then getReg s 2 rC else nextPc s 2)) ∧
    exec (.jcI imm) s = .next (s.withPc (if s.flag .c = true then imm else nextPc s 4)) ∧
    exec (.jncR rC) s = .next (s.withPc (if s.flag .c = false then getReg s 2 rC else nextPc s 2)) ∧
    exec (.jncI imm) s = .next (s.withPc (if s.flag .c = false then imm else nextPc s 4))

/-- CALL, both forms: the address of the next instruction is pushed (decision D13, log 12), the write being dropped
with SP in ROM while SP still moves (D19, log 18), and `pc` is the target, read before SP moved; nothing else changes. -/
def Obligations.CallCompletes : Prop :=
  ∀ (s : State) (rC : Reg) (imm base : Word), pushable s s.sp base →
    (rC.implemented = true →
      ∃ m, exec (.callR rC) s = .next (((s.withMem m).withSp (s.sp - 2#16)).withPc (getReg s 2 rC)) ∧
        ∀ key, m.read key = byteAfterPush s s.sp base (nextPc s 2) key) ∧
    ∃ m, exec (.callI imm) s = .next (((s.withMem m).withSp (s.sp - 2#16)).withPc imm) ∧
      ∀ key, m.read key = byteAfterPush s s.sp base (nextPc s 4) key

/-- RET: SP goes up by 2 and `pc` is the word there; nothing else of the machine changes. -/
def Obligations.RetCompletes : Prop :=
  ∀ (s : State) (base : Word), poppable s (s.sp + 2#16) base →
    ∃ v n, exec .ret s = .next (((s.withSp (s.sp + 2#16)).withDraws n).withPc v) ∧ agrees s base v

/-- A CALL of either form is undone by RET: from any state of the called function with SP, MB and memory as the CALL left
them, RET goes on after the CALL, with SP as it was before it (decisions D11 and D13, log 11, log 12). -/
def Obligations.RetReturnsAfterTheCall : Prop :=
  ∀ (s t u : State) (rC : Reg) (imm : Word) (len : Nat), isOdd s.sp = false → inRom s.sp = false →
    popWithin s.cfg s.sp = true →
    ((exec (.callR rC) s = .next t ∧ len = 2) ∨ (exec (.callI imm) s = .next t ∧ len = 4)) →
    u.sp = t.sp → u.mb = t.mb → u.mem = t.mem → u.cfg = t.cfg →
    exec .ret u = .next ((u.withSp s.sp).withPc (nextPc s len))

/-! ## System -/

/-- A taken INT, for numbers 0 to 127: the return address and then all of F are pushed, with writes dropped in ROM
(D19, log 18), `F.I` is cleared, `pc` is the word in the table entry (D23, log 22); nothing else of the machine
changes (D11, D14, log 11, log 12). -/
def Obligations.IntTakesTheInterrupt : Prop :=
  ∀ (s : State) (n base₁ base₂ vbase : Word), s.flag .i = true → n.toNat ≤ 127 → pushable s s.sp base₁ →
    pushable s (s.sp - 2#16) base₂ → wordReadable s (vectorLowAddr s.cfg n) vbase →
    ∃ m₁ m₂ d handler,
      exec (.intI n) s =
        .next (((((s.withMem m₂).withSp (s.sp - 4#16)).setFlag .i false).withDraws d).withPc handler) ∧
      (∀ key, m₁.read key = byteAfterPush s s.sp base₁ (nextPc s 4) key) ∧
      (∀ key, m₂.read key = byteAfterPush (s.withMem m₁) (s.sp - 2#16) base₂ s.f key) ∧
      agrees (s.withMem m₂) vbase handler

/-- One enable bit for all interrupts (R163): with `F.I` = 0 an INT of any number only advances `pc`; with `F.I` = 1 it
is taken, with the address of the next instruction as return address (decision D14, log 12) and SP 4 lower (decision
D11, log 11), and hardware clears the bit on entry; after reset the bit is 0; software sets it by MOVE F, OR F and
POP F; IRET restores it from the saved word; POP F and IRET take the word at SP + 2 (decisions D11 and D12, log 11). -/
def Obligations.OneInterruptEnableBit : Prop :=
  (∀ (s : State) (n : Word), s.flag .i = false → exec (.intI n) s = .next (s.withPc (nextPc s 4))) ∧
  (∀ (s t : State) (n : Word), s.flag .i = true → exec (.intI n) s = .next t →
    t.flag .i = false ∧ t.sp = s.sp - 4#16 ∧ takeInterrupt s n (nextPc s 4) = .ok t) ∧
  State.reset.flag .i = false ∧
  (∀ (s t : State) (imm : Word), exec (.moveI .f imm) s = .next t → t.f = imm) ∧
  (∀ (s t : State) (rD : Reg), exec (.moveR .f rD) s = .next t → t.f = getReg s 2 rD) ∧
  (∀ (s t : State) (imm : Word), s.cfg.flagPos.distinct = true → exec (.orI .f imm) s = .next t →
    t.flag .i = (s.f ||| imm).getLsbD s.cfg.flagPos.i.val) ∧
  (∀ (s t : State) (rD : Reg), s.cfg.flagPos.distinct = true → exec (.orR .f rD) s = .next t →
    t.flag .i = (s.f ||| getReg s 2 rD).getLsbD s.cfg.flagPos.i.val) ∧
  (∀ (s t : State), exec (.popR .f) s = .next t →
    ∃ base, wordBase s.cfg (s.sp + 2#16) = .ok base ∧ agrees s base t.f) ∧
  (∀ (s t : State), s.flag .i = true → exec .iret s = .next t →
    ∃ base, wordBase s.cfg (s.sp + 2#16) = .ok base ∧ agrees s base t.f)

/-- Entry `n` of the interrupt table, for `n` up to 127: with the default reading (decision D23, log 22) its low byte
is at 0xFFFE - 2n, an even address of fixed RAM in 0xFF00 to 0xFFFE, and different numbers have different entries. -/
def Obligations.InterruptTableEntries : Prop :=
  ∀ (cfg : Config) (n n' : Word), cfg.vectorLow = .lastByte → n.toNat ≤ 127 → n'.toNat ≤ 127 →
    (vectorLowAddr cfg n).toNat = 0xFFFE - 2 * n.toNat ∧ isOdd (vectorLowAddr cfg n) = false ∧
      0xFF00 ≤ (vectorLowAddr cfg n).toNat ∧ (vectorLowAddr cfg n = vectorLowAddr cfg n' → n = n')

/-- A port number above 255 names no port: INB and OUTB stop (log 25). A taken INT with a number above 127 has no entry
in the table: it stops (log 23). -/
def Obligations.NumbersOutOfRangeStop : Prop :=
  ∀ (s : State) (rC rD : Reg) (imm : Word), rC.implemented = true → rD.implemented = true →
    (255 < (getReg s 2 rD).toNat → exec (.inbR rC rD) s = .refused (.absentPort (getReg s 2 rD))) ∧
    (255 < (getReg s 2 rC).toNat → exec (.outbR rC rD) s = .refused (.absentPort (getReg s 2 rC))) ∧
    (255 < imm.toNat → exec (.inbI rC imm) s = .refused (.absentPort imm) ∧
      exec (.outbI rC imm) s = .refused (.absentPort imm)) ∧
    (s.flag .i = true → 127 < imm.toNat → exec (.intI imm) s = .refused (.absentInterrupt imm))

/-- IRET, with `F.I` = 1 or under IRET_MASKED = return: F and then `pc` are popped; nothing else of the machine
changes. With `F.I` = 0 under IRET_MASKED = nop it only advances `pc` (decisions D12 and D35, log 11, log 33). -/
def Obligations.IretCompletes : Prop :=
  ∀ (s : State) (base₁ base₂ : Word),
    ((s.flag .i = true ∨ s.cfg.iretMasked = .returns) → poppable s (s.sp + 2#16) base₁ →
      poppable s (s.sp + 4#16) base₂ →
      ∃ flags target d,
        exec .iret s = .next ((((s.withSp (s.sp + 4#16)).withF flags).withDraws d).withPc target) ∧
        agrees s base₁ flags ∧ agrees s base₂ target) ∧
    (s.flag .i = false → s.cfg.iretMasked = .nop → exec .iret s = .next (s.withPc (nextPc s 2)))

/-- IRET undoes INT: from any state of the handler with SP, MB and memory as the entry left them, and with `F.I` set
again or under IRET_MASKED = return, IRET restores F and SP and goes on after the INT; everything else is the
handler's (decisions D11, D12, D14, D35, log 11, log 12, log 33). -/
def Obligations.IretUndoesInt : Prop :=
  ∀ (s t u : State) (n : Word), s.flag .i = true → isOdd s.sp = false → inRom s.sp = false →
    inRom (s.sp - 2#16) = false → popWithin s.cfg s.sp = true → popWithin s.cfg (s.sp - 2#16) = true →
    exec (.intI n) s = .next t → u.sp = t.sp → u.mb = t.mb → u.mem = t.mem → u.cfg = t.cfg →
    (u.flag .i = true ∨ u.cfg.iretMasked = .returns) →
    exec .iret u = .next (((u.withSp s.sp).withF s.f).withPc (nextPc s 4))

/-- HALT sets the halted flag and advances `pc` (decision D27, log 26); nothing else changes, and the next step leaves
that state as it is. -/
def Obligations.HaltCompletes : Prop :=
  ∀ (s : State), exec .halt s = .next ((s.withHalted true).withPc (nextPc s 2)) ∧
    step ((s.withHalted true).withPc (nextPc s 2)) = .next ((s.withHalted true).withPc (nextPc s 2))

/-- NOP (R153): opcode 31, format 0, first byte 0xF8, 2 bytes, any second byte, since the bits of a format that are not
defined are ignored (decision D8, log 9); it advances `pc` and changes nothing else; at 0x0100 it gives `pc` = 0x0102. -/
def Obligations.NopCompletes : Prop :=
  (∀ (cfg : Config) (i1 : Byte), decode cfg [0xF8, i1] = .ok (.nop, [])) ∧ Instr.nop.len = 2 ∧
    (∀ cfg : Config, encode cfg .nop = [0xF8, 0x00]) ∧
    (∀ (s : State), exec .nop s = .next (s.withPc (s.pc + 2#16))) ∧
    ∀ (s : State), s.pc = 0x0100#16 → exec .nop s = .next (s.withPc 0x0102#16)
end

