-- ==== Sys2Proof/Laws/State.lean ====
section
/-! SUPPORT. One lemma per field and per named update of `State`. -/

namespace Sys2Proof.Machine

variable (s : State)

@[simp] theorem State.withPc_a (v : Word) : (s.withPc v).a = s.a := rfl
@[simp] theorem State.withPc_b (v : Word) : (s.withPc v).b = s.b := rfl
@[simp] theorem State.withPc_c (v : Word) : (s.withPc v).c = s.c := rfl
@[simp] theorem State.withPc_d (v : Word) : (s.withPc v).d = s.d := rfl
@[simp] theorem State.withPc_e (v : Word) : (s.withPc v).e = s.e := rfl
@[simp] theorem State.withPc_x (v : Word) : (s.withPc v).x = s.x := rfl
@[simp] theorem State.withPc_y (v : Word) : (s.withPc v).y = s.y := rfl
@[simp] theorem State.withPc_pc (v : Word) : (s.withPc v).pc = v := rfl
@[simp] theorem State.withPc_sp (v : Word) : (s.withPc v).sp = s.sp := rfl
@[simp] theorem State.withPc_mb (v : Word) : (s.withPc v).mb = s.mb := rfl
@[simp] theorem State.withPc_f (v : Word) : (s.withPc v).f = s.f := rfl
@[simp] theorem State.withPc_halted (v : Word) : (s.withPc v).halted = s.halted := rfl
@[simp] theorem State.withPc_mem (v : Word) : (s.withPc v).mem = s.mem := rfl
@[simp] theorem State.withPc_portIn (v : Word) : (s.withPc v).portIn = s.portIn := rfl
@[simp] theorem State.withPc_portLog (v : Word) : (s.withPc v).portLog = s.portLog := rfl
@[simp] theorem State.withPc_draws (v : Word) : (s.withPc v).draws = s.draws := rfl
@[simp] theorem State.withPc_cfg (v : Word) : (s.withPc v).cfg = s.cfg := rfl

@[simp] theorem State.withSp_a (v : Word) : (s.withSp v).a = s.a := rfl
@[simp] theorem State.withSp_b (v : Word) : (s.withSp v).b = s.b := rfl
@[simp] theorem State.withSp_c (v : Word) : (s.withSp v).c = s.c := rfl
@[simp] theorem State.withSp_d (v : Word) : (s.withSp v).d = s.d := rfl
@[simp] theorem State.withSp_e (v : Word) : (s.withSp v).e = s.e := rfl
@[simp] theorem State.withSp_x (v : Word) : (s.withSp v).x = s.x := rfl
@[simp] theorem State.withSp_y (v : Word) : (s.withSp v).y = s.y := rfl
@[simp] theorem State.withSp_pc (v : Word) : (s.withSp v).pc = s.pc := rfl
@[simp] theorem State.withSp_sp (v : Word) : (s.withSp v).sp = v := rfl
@[simp] theorem State.withSp_mb (v : Word) : (s.withSp v).mb = s.mb := rfl
@[simp] theorem State.withSp_f (v : Word) : (s.withSp v).f = s.f := rfl
@[simp] theorem State.withSp_halted (v : Word) : (s.withSp v).halted = s.halted := rfl
@[simp] theorem State.withSp_mem (v : Word) : (s.withSp v).mem = s.mem := rfl
@[simp] theorem State.withSp_portIn (v : Word) : (s.withSp v).portIn = s.portIn := rfl
@[simp] theorem State.withSp_portLog (v : Word) : (s.withSp v).portLog = s.portLog := rfl
@[simp] theorem State.withSp_draws (v : Word) : (s.withSp v).draws = s.draws := rfl
@[simp] theorem State.withSp_cfg (v : Word) : (s.withSp v).cfg = s.cfg := rfl

@[simp] theorem State.withF_a (v : Word) : (s.withF v).a = s.a := rfl
@[simp] theorem State.withF_b (v : Word) : (s.withF v).b = s.b := rfl
@[simp] theorem State.withF_c (v : Word) : (s.withF v).c = s.c := rfl
@[simp] theorem State.withF_d (v : Word) : (s.withF v).d = s.d := rfl
@[simp] theorem State.withF_e (v : Word) : (s.withF v).e = s.e := rfl
@[simp] theorem State.withF_x (v : Word) : (s.withF v).x = s.x := rfl
@[simp] theorem State.withF_y (v : Word) : (s.withF v).y = s.y := rfl
@[simp] theorem State.withF_pc (v : Word) : (s.withF v).pc = s.pc := rfl
@[simp] theorem State.withF_sp (v : Word) : (s.withF v).sp = s.sp := rfl
@[simp] theorem State.withF_mb (v : Word) : (s.withF v).mb = s.mb := rfl
@[simp] theorem State.withF_f (v : Word) : (s.withF v).f = v := rfl
@[simp] theorem State.withF_halted (v : Word) : (s.withF v).halted = s.halted := rfl
@[simp] theorem State.withF_mem (v : Word) : (s.withF v).mem = s.mem := rfl
@[simp] theorem State.withF_portIn (v : Word) : (s.withF v).portIn = s.portIn := rfl
@[simp] theorem State.withF_portLog (v : Word) : (s.withF v).portLog = s.portLog := rfl
@[simp] theorem State.withF_draws (v : Word) : (s.withF v).draws = s.draws := rfl
@[simp] theorem State.withF_cfg (v : Word) : (s.withF v).cfg = s.cfg := rfl

@[simp] theorem State.withHalted_a (v : Bool) : (s.withHalted v).a = s.a := rfl
@[simp] theorem State.withHalted_b (v : Bool) : (s.withHalted v).b = s.b := rfl
@[simp] theorem State.withHalted_c (v : Bool) : (s.withHalted v).c = s.c := rfl
@[simp] theorem State.withHalted_d (v : Bool) : (s.withHalted v).d = s.d := rfl
@[simp] theorem State.withHalted_e (v : Bool) : (s.withHalted v).e = s.e := rfl
@[simp] theorem State.withHalted_x (v : Bool) : (s.withHalted v).x = s.x := rfl
@[simp] theorem State.withHalted_y (v : Bool) : (s.withHalted v).y = s.y := rfl
@[simp] theorem State.withHalted_pc (v : Bool) : (s.withHalted v).pc = s.pc := rfl
@[simp] theorem State.withHalted_sp (v : Bool) : (s.withHalted v).sp = s.sp := rfl
@[simp] theorem State.withHalted_mb (v : Bool) : (s.withHalted v).mb = s.mb := rfl
@[simp] theorem State.withHalted_f (v : Bool) : (s.withHalted v).f = s.f := rfl
@[simp] theorem State.withHalted_halted (v : Bool) : (s.withHalted v).halted = v := rfl
@[simp] theorem State.withHalted_mem (v : Bool) : (s.withHalted v).mem = s.mem := rfl
@[simp] theorem State.withHalted_portIn (v : Bool) : (s.withHalted v).portIn = s.portIn := rfl
@[simp] theorem State.withHalted_portLog (v : Bool) : (s.withHalted v).portLog = s.portLog := rfl
@[simp] theorem State.withHalted_draws (v : Bool) : (s.withHalted v).draws = s.draws := rfl
@[simp] theorem State.withHalted_cfg (v : Bool) : (s.withHalted v).cfg = s.cfg := rfl

@[simp] theorem State.withMem_a (v : Memory) : (s.withMem v).a = s.a := rfl
@[simp] theorem State.withMem_b (v : Memory) : (s.withMem v).b = s.b := rfl
@[simp] theorem State.withMem_c (v : Memory) : (s.withMem v).c = s.c := rfl
@[simp] theorem State.withMem_d (v : Memory) : (s.withMem v).d = s.d := rfl
@[simp] theorem State.withMem_e (v : Memory) : (s.withMem v).e = s.e := rfl
@[simp] theorem State.withMem_x (v : Memory) : (s.withMem v).x = s.x := rfl
@[simp] theorem State.withMem_y (v : Memory) : (s.withMem v).y = s.y := rfl
@[simp] theorem State.withMem_pc (v : Memory) : (s.withMem v).pc = s.pc := rfl
@[simp] theorem State.withMem_sp (v : Memory) : (s.withMem v).sp = s.sp := rfl
@[simp] theorem State.withMem_mb (v : Memory) : (s.withMem v).mb = s.mb := rfl
@[simp] theorem State.withMem_f (v : Memory) : (s.withMem v).f = s.f := rfl
@[simp] theorem State.withMem_halted (v : Memory) : (s.withMem v).halted = s.halted := rfl
@[simp] theorem State.withMem_mem (v : Memory) : (s.withMem v).mem = v := rfl
@[simp] theorem State.withMem_portIn (v : Memory) : (s.withMem v).portIn = s.portIn := rfl
@[simp] theorem State.withMem_portLog (v : Memory) : (s.withMem v).portLog = s.portLog := rfl
@[simp] theorem State.withMem_draws (v : Memory) : (s.withMem v).draws = s.draws := rfl
@[simp] theorem State.withMem_cfg (v : Memory) : (s.withMem v).cfg = s.cfg := rfl

@[simp] theorem State.withPortIn_a (v : List (Byte × Word)) : (s.withPortIn v).a = s.a := rfl
@[simp] theorem State.withPortIn_b (v : List (Byte × Word)) : (s.withPortIn v).b = s.b := rfl
@[simp] theorem State.withPortIn_c (v : List (Byte × Word)) : (s.withPortIn v).c = s.c := rfl
@[simp] theorem State.withPortIn_d (v : List (Byte × Word)) : (s.withPortIn v).d = s.d := rfl
@[simp] theorem State.withPortIn_e (v : List (Byte × Word)) : (s.withPortIn v).e = s.e := rfl
@[simp] theorem State.withPortIn_x (v : List (Byte × Word)) : (s.withPortIn v).x = s.x := rfl
@[simp] theorem State.withPortIn_y (v : List (Byte × Word)) : (s.withPortIn v).y = s.y := rfl
@[simp] theorem State.withPortIn_pc (v : List (Byte × Word)) : (s.withPortIn v).pc = s.pc := rfl
@[simp] theorem State.withPortIn_sp (v : List (Byte × Word)) : (s.withPortIn v).sp = s.sp := rfl
@[simp] theorem State.withPortIn_mb (v : List (Byte × Word)) : (s.withPortIn v).mb = s.mb := rfl
@[simp] theorem State.withPortIn_f (v : List (Byte × Word)) : (s.withPortIn v).f = s.f := rfl
@[simp] theorem State.withPortIn_halted (v : List (Byte × Word)) : (s.withPortIn v).halted = s.halted := rfl
@[simp] theorem State.withPortIn_mem (v : List (Byte × Word)) : (s.withPortIn v).mem = s.mem := rfl
@[simp] theorem State.withPortIn_portIn (v : List (Byte × Word)) : (s.withPortIn v).portIn = v := rfl
@[simp] theorem State.withPortIn_portLog (v : List (Byte × Word)) : (s.withPortIn v).portLog = s.portLog := rfl
@[simp] theorem State.withPortIn_draws (v : List (Byte × Word)) : (s.withPortIn v).draws = s.draws := rfl
@[simp] theorem State.withPortIn_cfg (v : List (Byte × Word)) : (s.withPortIn v).cfg = s.cfg := rfl

@[simp] theorem State.withPortLog_a (v : List PortEvent) : (s.withPortLog v).a = s.a := rfl
@[simp] theorem State.withPortLog_b (v : List PortEvent) : (s.withPortLog v).b = s.b := rfl
@[simp] theorem State.withPortLog_c (v : List PortEvent) : (s.withPortLog v).c = s.c := rfl
@[simp] theorem State.withPortLog_d (v : List PortEvent) : (s.withPortLog v).d = s.d := rfl
@[simp] theorem State.withPortLog_e (v : List PortEvent) : (s.withPortLog v).e = s.e := rfl
@[simp] theorem State.withPortLog_x (v : List PortEvent) : (s.withPortLog v).x = s.x := rfl
@[simp] theorem State.withPortLog_y (v : List PortEvent) : (s.withPortLog v).y = s.y := rfl
@[simp] theorem State.withPortLog_pc (v : List PortEvent) : (s.withPortLog v).pc = s.pc := rfl
@[simp] theorem State.withPortLog_sp (v : List PortEvent) : (s.withPortLog v).sp = s.sp := rfl
@[simp] theorem State.withPortLog_mb (v : List PortEvent) : (s.withPortLog v).mb = s.mb := rfl
@[simp] theorem State.withPortLog_f (v : List PortEvent) : (s.withPortLog v).f = s.f := rfl
@[simp] theorem State.withPortLog_halted (v : List PortEvent) : (s.withPortLog v).halted = s.halted := rfl
@[simp] theorem State.withPortLog_mem (v : List PortEvent) : (s.withPortLog v).mem = s.mem := rfl
@[simp] theorem State.withPortLog_portIn (v : List PortEvent) : (s.withPortLog v).portIn = s.portIn := rfl
@[simp] theorem State.withPortLog_portLog (v : List PortEvent) : (s.withPortLog v).portLog = v := rfl
@[simp] theorem State.withPortLog_draws (v : List PortEvent) : (s.withPortLog v).draws = s.draws := rfl
@[simp] theorem State.withPortLog_cfg (v : List PortEvent) : (s.withPortLog v).cfg = s.cfg := rfl

@[simp] theorem State.withDraws_a (v : Nat) : (s.withDraws v).a = s.a := rfl
@[simp] theorem State.withDraws_b (v : Nat) : (s.withDraws v).b = s.b := rfl
@[simp] theorem State.withDraws_c (v : Nat) : (s.withDraws v).c = s.c := rfl
@[simp] theorem State.withDraws_d (v : Nat) : (s.withDraws v).d = s.d := rfl
@[simp] theorem State.withDraws_e (v : Nat) : (s.withDraws v).e = s.e := rfl
@[simp] theorem State.withDraws_x (v : Nat) : (s.withDraws v).x = s.x := rfl
@[simp] theorem State.withDraws_y (v : Nat) : (s.withDraws v).y = s.y := rfl
@[simp] theorem State.withDraws_pc (v : Nat) : (s.withDraws v).pc = s.pc := rfl
@[simp] theorem State.withDraws_sp (v : Nat) : (s.withDraws v).sp = s.sp := rfl
@[simp] theorem State.withDraws_mb (v : Nat) : (s.withDraws v).mb = s.mb := rfl
@[simp] theorem State.withDraws_f (v : Nat) : (s.withDraws v).f = s.f := rfl
@[simp] theorem State.withDraws_halted (v : Nat) : (s.withDraws v).halted = s.halted := rfl
@[simp] theorem State.withDraws_mem (v : Nat) : (s.withDraws v).mem = s.mem := rfl
@[simp] theorem State.withDraws_portIn (v : Nat) : (s.withDraws v).portIn = s.portIn := rfl
@[simp] theorem State.withDraws_portLog (v : Nat) : (s.withDraws v).portLog = s.portLog := rfl
@[simp] theorem State.withDraws_draws (v : Nat) : (s.withDraws v).draws = v := rfl
@[simp] theorem State.withDraws_cfg (v : Nat) : (s.withDraws v).cfg = s.cfg := rfl

@[simp] theorem State.setFlag_a (fl : Flag) (v : Bool) : (s.setFlag fl v).a = s.a := rfl
@[simp] theorem State.setFlag_b (fl : Flag) (v : Bool) : (s.setFlag fl v).b = s.b := rfl
@[simp] theorem State.setFlag_c (fl : Flag) (v : Bool) : (s.setFlag fl v).c = s.c := rfl
@[simp] theorem State.setFlag_d (fl : Flag) (v : Bool) : (s.setFlag fl v).d = s.d := rfl
@[simp] theorem State.setFlag_e (fl : Flag) (v : Bool) : (s.setFlag fl v).e = s.e := rfl
@[simp] theorem State.setFlag_x (fl : Flag) (v : Bool) : (s.setFlag fl v).x = s.x := rfl
@[simp] theorem State.setFlag_y (fl : Flag) (v : Bool) : (s.setFlag fl v).y = s.y := rfl
@[simp] theorem State.setFlag_pc (fl : Flag) (v : Bool) : (s.setFlag fl v).pc = s.pc := rfl
@[simp] theorem State.setFlag_sp (fl : Flag) (v : Bool) : (s.setFlag fl v).sp = s.sp := rfl
@[simp] theorem State.setFlag_mb (fl : Flag) (v : Bool) : (s.setFlag fl v).mb = s.mb := rfl
@[simp] theorem State.setFlag_f (fl : Flag) (v : Bool) :
    (s.setFlag fl v).f = setBit s.f (s.cfg.flagPos.pos fl) v := rfl
@[simp] theorem State.setFlag_halted (fl : Flag) (v : Bool) : (s.setFlag fl v).halted = s.halted := rfl
@[simp] theorem State.setFlag_mem (fl : Flag) (v : Bool) : (s.setFlag fl v).mem = s.mem := rfl
@[simp] theorem State.setFlag_portIn (fl : Flag) (v : Bool) : (s.setFlag fl v).portIn = s.portIn := rfl
@[simp] theorem State.setFlag_portLog (fl : Flag) (v : Bool) : (s.setFlag fl v).portLog = s.portLog := rfl
@[simp] theorem State.setFlag_draws (fl : Flag) (v : Bool) : (s.setFlag fl v).draws = s.draws := rfl
@[simp] theorem State.setFlag_cfg (fl : Flag) (v : Bool) : (s.setFlag fl v).cfg = s.cfg := rfl

@[simp] theorem State.setZCO_a (z c o : Bool) : (s.setZCO z c o).a = s.a := rfl
@[simp] theorem State.setZCO_b (z c o : Bool) : (s.setZCO z c o).b = s.b := rfl
@[simp] theorem State.setZCO_c (z c o : Bool) : (s.setZCO z c o).c = s.c := rfl
@[simp] theorem State.setZCO_d (z c o : Bool) : (s.setZCO z c o).d = s.d := rfl
@[simp] theorem State.setZCO_e (z c o : Bool) : (s.setZCO z c o).e = s.e := rfl
@[simp] theorem State.setZCO_x (z c o : Bool) : (s.setZCO z c o).x = s.x := rfl
@[simp] theorem State.setZCO_y (z c o : Bool) : (s.setZCO z c o).y = s.y := rfl
@[simp] theorem State.setZCO_pc (z c o : Bool) : (s.setZCO z c o).pc = s.pc := rfl
@[simp] theorem State.setZCO_sp (z c o : Bool) : (s.setZCO z c o).sp = s.sp := rfl
@[simp] theorem State.setZCO_mb (z c o : Bool) : (s.setZCO z c o).mb = s.mb := rfl
@[simp] theorem State.setZCO_halted (z c o : Bool) : (s.setZCO z c o).halted = s.halted := rfl
@[simp] theorem State.setZCO_mem (z c o : Bool) : (s.setZCO z c o).mem = s.mem := rfl
@[simp] theorem State.setZCO_portIn (z c o : Bool) : (s.setZCO z c o).portIn = s.portIn := rfl
@[simp] theorem State.setZCO_portLog (z c o : Bool) : (s.setZCO z c o).portLog = s.portLog := rfl
@[simp] theorem State.setZCO_draws (z c o : Bool) : (s.setZCO z c o).draws = s.draws := rfl
@[simp] theorem State.setZCO_cfg (z c o : Bool) : (s.setZCO z c o).cfg = s.cfg := rfl

@[simp] theorem State.drawn_a : s.drawn.a = s.a := rfl
@[simp] theorem State.drawn_b : s.drawn.b = s.b := rfl
@[simp] theorem State.drawn_c : s.drawn.c = s.c := rfl
@[simp] theorem State.drawn_d : s.drawn.d = s.d := rfl
@[simp] theorem State.drawn_e : s.drawn.e = s.e := rfl
@[simp] theorem State.drawn_x : s.drawn.x = s.x := rfl
@[simp] theorem State.drawn_y : s.drawn.y = s.y := rfl
@[simp] theorem State.drawn_pc : s.drawn.pc = s.pc := rfl
@[simp] theorem State.drawn_sp : s.drawn.sp = s.sp := rfl
@[simp] theorem State.drawn_mb : s.drawn.mb = s.mb := rfl
@[simp] theorem State.drawn_f : s.drawn.f = s.f := rfl
@[simp] theorem State.drawn_halted : s.drawn.halted = s.halted := rfl
@[simp] theorem State.drawn_mem : s.drawn.mem = s.mem := rfl
@[simp] theorem State.drawn_portIn : s.drawn.portIn = s.portIn := rfl
@[simp] theorem State.drawn_portLog : s.drawn.portLog = s.portLog := rfl
@[simp] theorem State.drawn_draws : s.drawn.draws = s.draws + 1 := rfl
@[simp] theorem State.drawn_cfg : s.drawn.cfg = s.cfg := rfl

@[simp] theorem putReg_pc (r : Reg) (v : Word) : (putReg s r v).pc = s.pc := by cases r <;> rfl
@[simp] theorem putReg_halted (r : Reg) (v : Word) : (putReg s r v).halted = s.halted := by cases r <;> rfl
@[simp] theorem putReg_mem (r : Reg) (v : Word) : (putReg s r v).mem = s.mem := by cases r <;> rfl
@[simp] theorem putReg_portIn (r : Reg) (v : Word) : (putReg s r v).portIn = s.portIn := by cases r <;> rfl
@[simp] theorem putReg_portLog (r : Reg) (v : Word) : (putReg s r v).portLog = s.portLog := by cases r <;> rfl
@[simp] theorem putReg_draws (r : Reg) (v : Word) : (putReg s r v).draws = s.draws := by cases r <;> rfl
@[simp] theorem putReg_cfg (r : Reg) (v : Word) : (putReg s r v).cfg = s.cfg := by cases r <;> rfl

theorem putReg_a (r : Reg) (v : Word) : (putReg s r v).a = if r = .a then v else s.a := by cases r <;> rfl
theorem putReg_b (r : Reg) (v : Word) : (putReg s r v).b = if r = .b then v else s.b := by cases r <;> rfl
theorem putReg_c (r : Reg) (v : Word) : (putReg s r v).c = if r = .c then v else s.c := by cases r <;> rfl
theorem putReg_d (r : Reg) (v : Word) : (putReg s r v).d = if r = .d then v else s.d := by cases r <;> rfl
theorem putReg_e (r : Reg) (v : Word) : (putReg s r v).e = if r = .e then v else s.e := by cases r <;> rfl
theorem putReg_x (r : Reg) (v : Word) : (putReg s r v).x = if r = .x then v else s.x := by cases r <;> rfl
theorem putReg_y (r : Reg) (v : Word) : (putReg s r v).y = if r = .y then v else s.y := by cases r <;> rfl
theorem putReg_sp (r : Reg) (v : Word) : (putReg s r v).sp = if r = .sp then v else s.sp := by cases r <;> rfl
theorem putReg_mb (r : Reg) (v : Word) : (putReg s r v).mb = if r = .mb then v else s.mb := by cases r <;> rfl
theorem putReg_f (r : Reg) (v : Word) : (putReg s r v).f = if r = .f then v else s.f := by cases r <;> rfl

/-- Updating one field twice keeps the last value; these put the updates of a meaning into one form. -/
@[simp] theorem State.withPc_withPc (v w : Word) : (s.withPc v).withPc w = s.withPc w := rfl
@[simp] theorem State.withSp_withSp (v w : Word) : (s.withSp v).withSp w = s.withSp w := rfl
@[simp] theorem State.withF_withF (v w : Word) : (s.withF v).withF w = s.withF w := rfl
@[simp] theorem State.withMem_withMem (m n : Memory) : (s.withMem m).withMem n = s.withMem n := rfl
@[simp] theorem State.withDraws_withDraws (m n : Nat) : (s.withDraws m).withDraws n = s.withDraws n := rfl
@[simp] theorem State.withMem_self : s.withMem s.mem = s := rfl
@[simp] theorem State.withDraws_self : s.withDraws s.draws = s := rfl
@[simp] theorem State.withSp_self : s.withSp s.sp = s := rfl
@[simp] theorem State.withF_self : s.withF s.f = s := rfl
@[simp] theorem State.withPc_self : s.withPc s.pc = s := rfl

end Sys2Proof.Machine
end

