-- ==== Sys2Proof/Laws/Flags.lean ====
section
/-! SUPPORT. Bits of words, the flags, and the register file. -/

namespace Sys2Proof.Machine

/-- Writing one bit changes that bit only. -/
theorem setBit_getLsbD (w : Word) (p : Fin 16) (b : Bool) (k : Nat) (hk : k < 16) :
    (setBit w p b).getLsbD k = if k = p.val then b else w.getLsbD k := by
  have hp := p.isLt
  unfold setBit
  cases b
  · simp only [Bool.false_eq_true, if_false, BitVec.getLsbD_and, BitVec.getLsbD_not, BitVec.getLsbD_shiftLeft, hk,
      decide_true, Bool.true_and]
    by_cases h : k = p.val
    · simp [h]
    · simp only [h, if_false]
      by_cases h2 : k < p.val
      · simp [h2]
      · have : (1#16).getLsbD (k - p.val) = false := by
          rw [BitVec.getLsbD_one]
          simp only [Bool.and_eq_false_iff, decide_eq_false_iff_not]
          right; omega
        simp [h2, this]
  · simp only [if_true, BitVec.getLsbD_or, BitVec.getLsbD_shiftLeft, hk, decide_true, Bool.true_and]
    by_cases h : k = p.val
    · simp [h]
    · simp only [h, if_false]
      by_cases h2 : k < p.val
      · simp [h2]
      · have : (1#16).getLsbD (k - p.val) = false := by
          rw [BitVec.getLsbD_one]
          simp only [Bool.and_eq_false_iff, decide_eq_false_iff_not]
          right; omega
        simp [h2, this]

/-- Writing a flag changes its bit of F only (R6, R20). -/
theorem State.setFlag_bit (s : State) (fl : Flag) (b : Bool) (k : Nat) (hk : k < 16) :
    (s.setFlag fl b).f.getLsbD k = if k = (s.cfg.flagPos.pos fl).val then b else s.f.getLsbD k := by
  rw [State.setFlag_f, setBit_getLsbD _ _ _ _ hk]

/-- A flag reads as it was written. -/
@[simp] theorem State.flag_setFlag_same (s : State) (fl : Flag) (b : Bool) : (s.setFlag fl b).flag fl = b := by
  have h := State.setFlag_bit s fl b (s.cfg.flagPos.pos fl).val (s.cfg.flagPos.pos fl).isLt
  simpa [State.flag] using h

/-- Writing a flag leaves the flags at other positions alone. -/
theorem State.flag_setFlag_other (s : State) (fl fl' : Flag) (b : Bool)
    (h : s.cfg.flagPos.pos fl' ≠ s.cfg.flagPos.pos fl) : (s.setFlag fl b).flag fl' = s.flag fl' := by
  have hb := State.setFlag_bit s fl b (s.cfg.flagPos.pos fl').val (s.cfg.flagPos.pos fl').isLt
  have hne : (s.cfg.flagPos.pos fl').val ≠ (s.cfg.flagPos.pos fl).val := fun he => h (Fin.ext he)
  simp only [hne, if_false] at hb
  simpa [State.flag] using hb

/-- FLAG_POS gives two flags two positions. -/
theorem FlagPos_pos_ne {p : FlagPos} (h : p.distinct = true) {fl fl' : Flag} (hne : fl' ≠ fl) :
    p.pos fl' ≠ p.pos fl := by
  simp only [FlagPos.distinct, decide_eq_true_eq, List.nodup_cons, List.mem_cons, List.not_mem_nil, or_false, not_or] at h
  obtain ⟨⟨h1, h2, h3, h4⟩, ⟨h5, h6, h7⟩, ⟨h8, h9⟩, h10, -⟩ := h
  cases fl <;> cases fl' <;>
    first
      | exact absurd rfl hne
      | intro he
        simp only [FlagPos.pos] at he
        simp_all

/-- Reading an implemented register operand. -/
@[simp] theorem readReg_implemented (s : State) (len : Nat) {r : Reg} (h : r.implemented = true) :
    readReg s len r = .ok (getReg s len r) := by simp [readReg, h]

/-- Writing an implemented register operand. -/
@[simp] theorem writeReg_implemented (s : State) {r : Reg} (v : Word) (h : r.implemented = true) :
    writeReg s r v = .ok (putReg s r v) := by simp [writeReg, h]

/-- A register read that succeeds is of an implemented register. -/
theorem readReg_ok {s : State} {len : Nat} {r : Reg} {v : Word} (h : readReg s len r = .ok v) :
    r.implemented = true ∧ v = getReg s len r := by
  unfold readReg at h
  split at h
  · next hr => exact ⟨hr, (Except.ok.inj h).symm⟩
  · cases h

/-- A register write that succeeds is of an implemented register. -/
theorem writeReg_ok {s t : State} {r : Reg} {v : Word} (h : writeReg s r v = .ok t) :
    r.implemented = true ∧ t = putReg s r v := by
  unfold writeReg at h
  split at h
  · next hr => exact ⟨hr, (Except.ok.inj h).symm⟩
  · cases h

/-- What an operand that can be read gives. -/
def operandValue (s : State) (len : Nat) : Operand → Word
  | .reg r => getReg s len r
  | .imm v => v

/-- The operand is an immediate or an implemented register. -/
def operandOk : Operand → Bool
  | .reg r => r.implemented
  | .imm _ => true

/-- An immediate operand is its own value. -/
@[simp] theorem readOperand_imm (s : State) (len : Nat) (v : Word) : readOperand s len (.imm v) = .ok v := rfl

/-- A register operand is read from the register file. -/
@[simp] theorem readOperand_reg (s : State) (len : Nat) (r : Reg) : readOperand s len (.reg r) = readReg s len r := rfl

theorem readOperand_eq (s : State) (len : Nat) {o : Operand} (h : operandOk o = true) :
    readOperand s len o = .ok (operandValue s len o) := by
  cases o with
  | reg r => exact readReg_implemented s len h
  | imm v => rfl

theorem readOperand_ok {s : State} {len : Nat} {o : Operand} {v : Word} (h : readOperand s len o = .ok v) :
    operandOk o = true ∧ v = operandValue s len o := by
  cases o with
  | reg r => exact readReg_ok h
  | imm w => exact ⟨rfl, (Except.ok.inj h).symm⟩

@[simp] theorem ok_bind {α β ε : Type} (a : α) (f : α → Except ε β) : (Except.ok a >>= f) = f a := rfl

@[simp] theorem error_bind {α β ε : Type} (e : ε) (f : α → Except ε β) :
    ((Except.error e : Except ε α) >>= f) = Except.error e := rfl

@[simp] theorem pure_eq_ok {α ε : Type} (a : α) : (pure a : Except ε α) = Except.ok a := rfl

/-- A sequence that succeeds succeeds in its first part. -/
theorem bind_ok {α β ε : Type} {x : Except ε α} {f : α → Except ε β} {b : β} (h : (x >>= f) = .ok b) :
    ∃ a, x = .ok a ∧ f a = .ok b := by
  cases x with
  | error e => cases h
  | ok a => exact ⟨a, rfl, h⟩

@[simp] theorem finish_ok (s : State) : finish (.ok s) = .next s := rfl

@[simp] theorem finish_error (r : Refusal) : finish (.error r) = .refused r := rfl

/-- An operation whose answer is a next state succeeded. -/
theorem finish_next {x : Except Refusal State} {t : State} (h : finish x = .next t) : x = .ok t := by
  cases x with
  | ok s => simpa [finish] using h
  | error r => cases h

end Sys2Proof.Machine
end

