-- ==== Sys2Proof/Laws/Memory.lean ====
section
/-! SUPPORT. The cells of storage: read after write, the canonical form, and which location an address reaches. -/

namespace Sys2Proof.Machine

@[simp] theorem Memory.read_nil (key : Nat) : Memory.read [] key = none := rfl

/-- A location reads as what was last written to it. -/
@[simp] theorem Memory.read_write_same (m : Memory) (key : Nat) (v : Byte) : (m.write key v).read key = some v := by
  induction m with
  | nil => simp [Memory.write, Memory.read]
  | cons cell rest ih =>
    obtain ⟨k, b⟩ := cell
    simp only [Memory.write]
    split
    · simp [Memory.read]
    · split
      · simp [Memory.read]
      · rename_i h
        simp [Memory.read, h, ih]

/-- A write leaves every other location alone. -/
theorem Memory.read_write_other (m : Memory) (key key' : Nat) (v : Byte) (h : key' ≠ key) :
    (m.write key v).read key' = m.read key' := by
  induction m with
  | nil => simp [Memory.write, Memory.read, h, unlisted]
  | cons cell rest ih =>
    obtain ⟨k, b⟩ := cell
    simp only [Memory.write]
    split
    · simp [Memory.read, h]
    · split
      · rename_i hk
        simp [Memory.read, h, ← hk]
      · simp [Memory.read, ih]

/-- Reading any location after a write. -/
theorem Memory.read_write (m : Memory) (key key' : Nat) (v : Byte) :
    (m.write key v).read key' = if key' = key then some v else m.read key' := by
  split
  · next h => subst h; simp
  · next h => exact Memory.read_write_other m key key' v h

/-- A write never leaves a location without a value that had one. -/
theorem Memory.read_write_ne_none {m : Memory} {key key' : Nat} {v : Byte} (h : m.read key' ≠ none) :
    (m.write key v).read key' ≠ none := by
  rw [Memory.read_write]; split <;> simp [h]

/-- A canonical memory that starts at location `k` has a canonical tail, all of it above `k`. -/
theorem Memory.wf_cons {k : Nat} {b : Byte} {rest : Memory} (h : Memory.wf ((k, b) :: rest) = true) :
    Memory.wf rest = true ∧ ∀ k' b', rest.head? = some (k', b') → k < k' := by
  cases rest with
  | nil => simp [Memory.wf]
  | cons cell tail =>
    obtain ⟨k', b'⟩ := cell
    simp only [Memory.wf, Bool.and_eq_true, decide_eq_true_eq] at h
    refine ⟨h.2, ?_⟩
    intro k'' b'' heq
    simp only [List.head?_cons, Option.some.injEq, Prod.mk.injEq] at heq
    omega

/-- A head below a canonical memory makes a canonical memory. -/
theorem Memory.wf_of_cons {k : Nat} {b : Byte} {rest : Memory} (h : Memory.wf rest = true)
    (hk : ∀ k' b', rest.head? = some (k', b') → k < k') : Memory.wf ((k, b) :: rest) = true := by
  cases rest with
  | nil => simp [Memory.wf]
  | cons cell tail =>
    obtain ⟨k', b'⟩ := cell
    simp only [Memory.wf, Bool.and_eq_true, decide_eq_true_eq]
    exact ⟨hk k' b' rfl, h⟩

/-- The first location after a write is the written one or the first one before. -/
theorem Memory.head_write (m : Memory) (key : Nat) (v : Byte) (k' : Nat) (b' : Byte)
    (h : (m.write key v).head? = some (k', b')) : k' = key ∨ ∃ b, m.head? = some (k', b) := by
  cases m with
  | nil =>
    simp only [Memory.write, List.head?_cons, Option.some.injEq, Prod.mk.injEq] at h
    exact .inl h.1.symm
  | cons cell rest =>
    obtain ⟨k, b⟩ := cell
    simp only [Memory.write] at h
    split at h
    · simp only [List.head?_cons, Option.some.injEq, Prod.mk.injEq] at h
      exact .inl h.1.symm
    · split at h
      · simp only [List.head?_cons, Option.some.injEq, Prod.mk.injEq] at h
        exact .inl h.1.symm
      · simp only [List.head?_cons, Option.some.injEq, Prod.mk.injEq] at h
        exact .inr ⟨b, by simp [h.1]⟩

/-- A write keeps the canonical form. -/
theorem Memory.wf_write (m : Memory) (key : Nat) (v : Byte) (h : m.wf = true) : (m.write key v).wf = true := by
  induction m with
  | nil => rfl
  | cons cell rest ih =>
    obtain ⟨k, b⟩ := cell
    have hc := Memory.wf_cons h
    simp only [Memory.write]
    split
    · next hlt =>
      refine Memory.wf_of_cons h ?_
      intro k' b' heq
      simp only [List.head?_cons, Option.some.injEq, Prod.mk.injEq] at heq
      omega
    · next hlt =>
      split
      · next heq =>
        subst heq
        exact Memory.wf_of_cons hc.1 hc.2
      · next hne =>
        refine Memory.wf_of_cons (ih hc.1) ?_
        intro k' b' heq
        rcases Memory.head_write rest key v k' b' heq with hk | ⟨b'', hb⟩
        · omega
        · exact hc.2 k' b'' hb

/-- A write at an existing location lists only existing locations. -/
theorem Memory.within_write (cfg : Config) (m : Memory) (key : Nat) (v : Byte) (hm : m.within cfg = true)
    (hk : isLocation cfg key = true) : (m.write key v).within cfg = true := by
  induction m with
  | nil => simp [Memory.write, Memory.within, hk]
  | cons cell rest ih =>
    obtain ⟨k, b⟩ := cell
    simp only [Memory.within, List.all_cons, Bool.and_eq_true] at hm ih
    simp only [Memory.write]
    split
    · simp [Memory.within, hk, hm]
    · split
      · simp [Memory.within, hk, hm]
      · simp [Memory.within, hm, ih hm.2]

/-- What an address reaches: in the window a byte of an existing bank, elsewhere the address itself (R43, R47). -/
theorem storageKey_cases {cfg : Config} {mb a : Word} {k : Nat} (h : storageKey cfg mb a = .ok k) :
    (0x8000 ≤ a.toNat ∧ a.toNat < 0xC000 ∧ mb.toNat < cfg.nbanks ∧ k = 32768 + 16384 * mb.toNat + a.toNat) ∨
      ((a.toNat < 0x8000 ∨ 0xC000 ≤ a.toNat) ∧ k = a.toNat) := by
  unfold storageKey at h
  split at h
  · next hw =>
    simp only [inWindow, Bool.and_eq_true, decide_eq_true_eq] at hw
    split at h
    · next hb =>
      have hk := Except.ok.inj h
      unfold bankKey at hk
      exact .inl ⟨hw.1, hw.2, hb, by omega⟩
    · cases h
  · next hw =>
    simp only [inWindow, Bool.and_eq_true, decide_eq_true_eq, not_and, not_lt] at hw
    have hk := Except.ok.inj h
    exact .inr ⟨by omega, hk.symm⟩

/-- Every location an address reaches exists. -/
theorem storageKey_isLocation {cfg : Config} {mb a : Word} {k : Nat} (h : storageKey cfg mb a = .ok k) :
    isLocation cfg k = true := by
  have ha := a.isLt
  unfold isLocation bankKey
  rw [Bool.or_eq_true, Bool.or_eq_true, Bool.and_eq_true, Bool.and_eq_true, decide_eq_true_eq, decide_eq_true_eq,
    decide_eq_true_eq, decide_eq_true_eq, decide_eq_true_eq]
  rcases storageKey_cases h with ⟨h1, h2, h3, h4⟩ | ⟨h1, h2⟩ <;> omega

/-- An address outside ROM reaches a location outside ROM. -/
theorem storageKey_not_rom {cfg : Config} {mb a : Word} {k : Nat} (h : storageKey cfg mb a = .ok k)
    (hr : inRom a = false) : isRomKey k = false := by
  unfold inRom at hr
  rw [decide_eq_false_iff_not] at hr
  unfold isRomKey
  rw [decide_eq_false_iff_not]
  rcases storageKey_cases h with ⟨h1, h2, h3, h4⟩ | ⟨h1, h2⟩ <;> omega

/-- Outside the window MB does not matter. -/
theorem storageKey_outside (cfg : Config) (mb : Word) {a : Word} (hw : inWindow a = false) :
    storageKey cfg mb a = .ok a.toNat := by
  simp [storageKey, hw]

/-- An address in ROM reaches the location of that number. -/
theorem storageKey_rom (cfg : Config) (mb : Word) {a : Word} (hr : inRom a = true) :
    storageKey cfg mb a = .ok a.toNat := by
  refine storageKey_outside cfg mb ?_
  unfold inRom at hr
  rw [decide_eq_true_eq] at hr
  unfold inWindow
  rw [Bool.and_eq_false_iff, decide_eq_false_iff_not]
  omega

/-- Two addresses reach the same location only if they are the same address. -/
theorem storageKey_injective {cfg : Config} {mb a a' : Word} {k : Nat} (h : storageKey cfg mb a = .ok k)
    (h' : storageKey cfg mb a' = .ok k) : a = a' := by
  have ha := a.isLt
  have ha' := a'.isLt
  apply BitVec.eq_of_toNat_eq
  rcases storageKey_cases h with ⟨h1, h2, h3, h4⟩ | ⟨h1, h2⟩ <;>
    rcases storageKey_cases h' with ⟨g1, g2, g3, g4⟩ | ⟨g1, g2⟩ <;> omega

/-- Two banks share no location, and a bank shares none with ROM and fixed RAM: an address reaches one location under
two values of MB only outside the window (R43). -/
theorem storageKey_other_bank {cfg : Config} {mb mb' a a' : Word} {k : Nat} (h : storageKey cfg mb a = .ok k)
    (h' : storageKey cfg mb' a' = .ok k) (hne : mb ≠ mb') : inWindow a = false ∧ inWindow a' = false := by
  have ha := a.isLt
  have ha' := a'.isLt
  have hmb : mb.toNat ≠ mb'.toNat := fun he => hne (BitVec.eq_of_toNat_eq he)
  unfold inWindow
  rw [Bool.and_eq_false_iff, Bool.and_eq_false_iff, decide_eq_false_iff_not, decide_eq_false_iff_not,
    decide_eq_false_iff_not, decide_eq_false_iff_not]
  rcases storageKey_cases h with ⟨h1, h2, h3, h4⟩ | ⟨h1, h2⟩ <;>
    rcases storageKey_cases h' with ⟨g1, g2, g3, g4⟩ | ⟨g1, g2⟩ <;> omega

/-- Right after reset the memory is in canonical form. -/
theorem State.reset_mem_wf : State.reset.mem.wf = true := rfl

end Sys2Proof.Machine
end

