-- ==== Sys2Proof/Laws/Ops.lean ====
section
/-! SUPPORT. For each shared operation: when it succeeds, and everything it can do when it does. -/

namespace Sys2Proof.Machine

/-- What a write of memory may do to the invariant: nothing. -/
def keepsCells (s : State) (m : Memory) : Prop :=
  (s.mem.wf = true → m.wf = true) ∧ (s.mem.within s.cfg = true → m.within s.cfg = true) ∧
    (∀ key, isRomKey key = true → m.read key = s.mem.read key) ∧ (∀ key, s.mem.read key ≠ none → m.read key ≠ none)

theorem keepsCells_refl (s : State) : keepsCells s s.mem := ⟨id, id, fun _ _ => rfl, fun _ => id⟩

/-- A read of a byte: its value and no effect, or a free value and one draw. -/
theorem readByte_ok {s t : State} {a : Word} {v : Byte} (h : readByte s a = .ok (v, t)) :
    (∃ k, storageKey s.cfg s.mb a = .ok k) ∧
      ((peek s a = some v ∧ t = s) ∨
        (peek s a = none ∧ inRom a = false ∧ s.cfg.unwritten = .anyValue ∧ v = Config.freeByte s.draws ∧
          t = s.drawn)) := by
  unfold readByte at h
  split at h
  · cases h
  · next k hk =>
    refine ⟨⟨k, hk⟩, ?_⟩
    split at h
    · next v' hp =>
      simp only [Except.ok.injEq, Prod.mk.injEq] at h
      exact .inl ⟨h.1 ▸ hp, h.2.symm⟩
    · next hp =>
      split at h
      · cases h
      · next hr =>
        split at h
        · cases h
        · next hu =>
          simp only [Except.ok.injEq, Prod.mk.injEq] at h
          exact .inr ⟨hp, by simpa using hr, hu, h.1.symm, h.2.symm⟩

/-- A read of a byte changes the count of draws at most. -/
theorem readByte_draws {s t : State} {a : Word} {v : Byte} (h : readByte s a = .ok (v, t)) :
    (∃ n, t = s.withDraws n) ∧ ∀ b, peek s a = some b → v = b := by
  obtain ⟨-, ⟨hp, ht⟩ | ⟨hp, -, -, -, ht⟩⟩ := readByte_ok h
  · exact ⟨⟨s.draws, ht⟩, fun b hb => by rw [hp] at hb; exact Option.some.inj hb⟩
  · exact ⟨⟨s.draws + 1, ht⟩, fun b hb => by rw [hp] at hb; cases hb⟩

/-- A readable byte can be read. -/
theorem readable_readByte {s : State} {a : Word} (h : readable s a) :
    ∃ v n, readByte s a = .ok (v, s.withDraws n) ∧ ∀ b, peek s a = some b → v = b := by
  obtain ⟨⟨k, hk⟩, hv⟩ := h
  unfold readByte
  rw [hk]
  cases hp : peek s a with
  | some b => exact ⟨b, s.draws, rfl, fun b' hb => Option.some.inj hb⟩
  | none =>
    rcases hv with hne | ⟨hr, hu⟩
    · exact absurd hp hne
    · refine ⟨Config.freeByte s.draws, s.draws + 1, ?_, fun b hb => by cases hb⟩
      simp only [hr, hu, Bool.false_eq_true, if_false]
      rfl

/-- A byte with a value reads as that value, and nothing changes. -/
theorem readByte_defined {s : State} {a : Word} {v : Byte} (h : peek s a = some v) : readByte s a = .ok (v, s) := by
  cases hk : storageKey s.cfg s.mb a with
  | error e => simp [peek, hk] at h
  | ok k => simp [readByte, hk, h]

/-- A byte that was read was readable. -/
theorem readByte_readable {s t : State} {a : Word} {v : Byte} (h : readByte s a = .ok (v, t)) : readable s a := by
  obtain ⟨hk, ⟨hp, -⟩ | ⟨-, hr, hu, -, -⟩⟩ := readByte_ok h
  · exact ⟨hk, .inl (by simp [hp])⟩
  · exact ⟨hk, .inr ⟨hr, hu⟩⟩

@[simp] theorem peek_withDraws (s : State) (n : Nat) (a : Word) : peek (s.withDraws n) a = peek s a := rfl
@[simp] theorem peek_withSp (s : State) (v a : Word) : peek (s.withSp v) a = peek s a := rfl
@[simp] theorem peek_withF (s : State) (v a : Word) : peek (s.withF v) a = peek s a := rfl
@[simp] theorem peek_withPc (s : State) (v a : Word) : peek (s.withPc v) a = peek s a := rfl
@[simp] theorem peek_setFlag (s : State) (fl : Flag) (b : Bool) (a : Word) : peek (s.setFlag fl b) a = peek s a := rfl

theorem readable_withDraws {s : State} {n : Nat} {a : Word} : readable (s.withDraws n) a ↔ readable s a := Iff.rfl

/-- The bits of a word built from two bytes. -/
theorem wordOf_getLsbD (lo hi : Byte) (i : Nat) :
    (wordOf lo hi).getLsbD i = if i < 8 then lo.getLsbD i else hi.getLsbD (i - 8) := by
  have h := BitVec.getLsbD_append (x := hi) (y := lo) (i := i)
  rw [← h]
  rfl

@[simp] theorem lowByte_wordOf (lo hi : Byte) : lowByte (wordOf lo hi) = lo := by
  apply BitVec.eq_of_getLsbD_eq
  intro i hi'
  rw [lowByte, BitVec.getLsbD_extractLsb', wordOf_getLsbD]
  simp [hi']

@[simp] theorem highByte_wordOf (lo hi : Byte) : highByte (wordOf lo hi) = hi := by
  apply BitVec.eq_of_getLsbD_eq
  intro i hi'
  rw [highByte, BitVec.getLsbD_extractLsb', wordOf_getLsbD]
  simp [hi']

@[simp] theorem wordOf_bytes (v : Word) : wordOf (lowByte v) (highByte v) = v := by
  apply BitVec.eq_of_getLsbD_eq
  intro i hi'
  rw [wordOf_getLsbD, lowByte, highByte, BitVec.getLsbD_extractLsb', BitVec.getLsbD_extractLsb']
  split
  · next h => simp [h]
  · next h =>
    rw [show 8 + (i - 8) = i by omega]
    have : i - 8 < 8 := by omega
    simp [this]

/-- Reading depends on the memory, on MB and on the parameters only. -/
theorem peek_congr {s t : State} (hc : t.cfg = s.cfg) (hb : t.mb = s.mb) (hm : t.mem = s.mem) (a : Word) :
    peek t a = peek s a := by unfold peek; rw [hc, hb, hm]

theorem readable_congr {s t : State} (hc : t.cfg = s.cfg) (hb : t.mb = s.mb) (hm : t.mem = s.mem) (a : Word) :
    readable t a ↔ readable s a := by unfold readable; rw [peek_congr hc hb hm, hc, hb]

theorem wordReadable_congr {s t : State} (hc : t.cfg = s.cfg) (hb : t.mb = s.mb) (hm : t.mem = s.mem)
    (a base : Word) : wordReadable t a base ↔ wordReadable s a base := by
  unfold wordReadable; rw [readable_congr hc hb hm, readable_congr hc hb hm, hc]

theorem agrees_congr {s t : State} (hc : t.cfg = s.cfg) (hb : t.mb = s.mb) (hm : t.mem = s.mem) (base v : Word) :
    agrees t base v ↔ agrees s base v := by
  unfold agrees; rw [peek_congr hc hb hm, peek_congr hc hb hm]

theorem poppable_congr {s t : State} (hc : t.cfg = s.cfg) (hb : t.mb = s.mb) (hm : t.mem = s.mem) (sp base : Word) :
    poppable t sp base ↔ poppable s sp base := by
  unfold poppable; rw [wordReadable_congr hc hb hm, hc]

/-- Writing depends on MB and on the parameters only. -/
theorem wordWritable_congr {s t : State} (hc : t.cfg = s.cfg) (hb : t.mb = s.mb) (a base : Word) :
    wordWritable t a base ↔ wordWritable s a base := by
  unfold wordWritable writable; rw [hc, hb]

theorem pushable_congr {s t : State} (hc : t.cfg = s.cfg) (hb : t.mb = s.mb) (sp base : Word) :
    pushable t sp base ↔ pushable s sp base := by
  unfold pushable; rw [wordWritable_congr hc hb, hc]

theorem byteAfterStore_congr {s t : State} (hc : t.cfg = s.cfg) (hb : t.mb = s.mb) (hm : t.mem = s.mem)
    (base v : Word) (key : Nat) : byteAfterStore t base v key = byteAfterStore s base v key := by
  unfold byteAfterStore storedByte; rw [hc, hb, hm]

theorem byteAfterPush_congr {s t : State} (hc : t.cfg = s.cfg) (hb : t.mb = s.mb) (hm : t.mem = s.mem)
    (sp base v : Word) (key : Nat) : byteAfterPush t sp base v key = byteAfterPush s sp base v key := by
  unfold byteAfterPush; rw [byteAfterStore_congr hc hb hm, hm]

/-- A word read: its bytes are the defined ones where they are defined, and it changes the count of draws at most. -/
theorem readWord_ok {s t : State} {a v : Word} (h : readWord s a = .ok (v, t)) :
    ∃ base n, wordReadable s a base ∧ t = s.withDraws n ∧ agrees s base v := by
  unfold readWord at h
  obtain ⟨base, hb, h⟩ := bind_ok h
  obtain ⟨⟨lo, s₁⟩, h₁, h⟩ := bind_ok h
  obtain ⟨⟨hi, s₂⟩, h₂, h⟩ := bind_ok h
  cases h
  have r₁ := readByte_readable h₁
  have r₂ := readByte_readable h₂
  obtain ⟨⟨n, rfl⟩, hlo⟩ := readByte_draws h₁
  obtain ⟨⟨n', rfl⟩, hhi⟩ := readByte_draws h₂
  refine ⟨base, n', ⟨hb, r₁, r₂⟩, rfl, ?_, ?_⟩
  · intro b hb'; rw [lowByte_wordOf]; exact hlo b hb'
  · intro b hb'; rw [highByte_wordOf]; exact hhi b hb'

/-- A word whose two bytes have values reads as the two bytes, and nothing changes. -/
theorem readWord_defined {s : State} {a base : Word} {lo hi : Byte} (hb : wordBase s.cfg a = .ok base)
    (hlo : peek s base = some lo) (hhi : peek s (base + 1#16) = some hi) : readWord s a = .ok (wordOf lo hi, s) := by
  simp [readWord, hb, readByte_defined hlo, readByte_defined hhi]

/-- A readable word can be read. -/
theorem wordReadable_readWord {s : State} {a base : Word} (h : wordReadable s a base) :
    ∃ v n, readWord s a = .ok (v, s.withDraws n) ∧ agrees s base v := by
  obtain ⟨hb, h₁, h₂⟩ := h
  obtain ⟨lo, n, hlo, hlo'⟩ := readable_readByte h₁
  obtain ⟨hi, n', hhi, hhi'⟩ := readable_readByte (s := s.withDraws n) h₂
  refine ⟨wordOf lo hi, n', ?_, ?_, ?_⟩
  · simp [readWord, hb, hlo, hhi]
  · intro b hb'; rw [lowByte_wordOf]; exact hlo' b hb'
  · intro b hb'; rw [highByte_wordOf]; exact hhi' b hb'

/-- A write of a byte changes memory at most, and there as `storedByte` says. -/
theorem writeByte_ok {s t : State} {a : Word} {v : Byte} (h : writeByte s a v = .ok t) :
    writable s a ∧ ∃ m, t = s.withMem m ∧ keepsCells s m ∧
      ∀ key, m.read key = match storedByte s a v key with | some b => some b | none => s.mem.read key := by
  unfold writeByte at h
  split at h
  · next hr =>
    cases h
    exact ⟨.inl hr, s.mem, rfl, keepsCells_refl s, fun key => by simp [storedByte, hr]⟩
  · next hr =>
    split at h
    · cases h
    · next k hk =>
      cases h
      have hr' : inRom a = false := by simpa using hr
      refine ⟨.inr ⟨k, hk⟩, s.mem.write k v, rfl, ⟨?_, ?_, ?_, ?_⟩, ?_⟩
      · exact Memory.wf_write _ _ _
      · exact fun hm => Memory.within_write _ _ _ _ hm (storageKey_isLocation hk)
      · intro key hkey
        have := storageKey_not_rom hk hr'
        exact Memory.read_write_other _ _ _ _ (fun he => by rw [he, this] at hkey; cases hkey)
      · exact fun key hne => Memory.read_write_ne_none hne
      · intro key
        rw [Memory.read_write]
        simp only [storedByte, hr', hk]
        by_cases he : key = k
        · simp [he]
        · simp [he, Ne.symm he]

/-- A writable byte can be written. -/
theorem writable_writeByte {s : State} {a : Word} (v : Byte) (h : writable s a) : ∃ t, writeByte s a v = .ok t := by
  unfold writeByte
  rcases h with hr | ⟨k, hk⟩
  · exact ⟨s, by simp [hr]⟩
  · by_cases hr : inRom a = true
    · exact ⟨s, by simp [hr]⟩
    · exact ⟨_, by simp [hr, hk]; rfl⟩

/-- A write of a word changes memory at most, and there as `byteAfterStore` says. -/
theorem writeWord_ok {s t : State} {a v : Word} (h : writeWord s a v = .ok t) :
    ∃ base m, wordWritable s a base ∧ t = s.withMem m ∧ keepsCells s m ∧
      ∀ key, m.read key = byteAfterStore s base v key := by
  unfold writeWord at h
  obtain ⟨base, hb, h⟩ := bind_ok h
  obtain ⟨s₁, h₁, h₂⟩ := bind_ok h
  obtain ⟨hw₁, m₁, rfl, ⟨k1, k2, k3, k4⟩, r₁⟩ := writeByte_ok h₁
  obtain ⟨hw₂, m₂, rfl, ⟨l1, l2, l3, l4⟩, r₂⟩ := writeByte_ok h₂
  refine ⟨base, m₂, ⟨hb, hw₁, hw₂⟩, rfl, ⟨fun h => l1 (k1 h), fun h => l2 (k2 h), ?_, ?_⟩, ?_⟩
  · intro key hkey; rw [l3 key hkey]; exact k3 key hkey
  · intro key hkey; exact l4 key (k4 key hkey)
  · intro key
    rw [r₂ key]
    unfold byteAfterStore
    rw [show storedByte (s.withMem m₁) (base + 1#16) (highByte v) key = storedByte s (base + 1#16) (highByte v) key from rfl]
    cases storedByte s (base + 1#16) (highByte v) key with
    | some b => rfl
    | none => exact r₁ key

/-- A writable word can be written. -/
theorem wordWritable_writeWord {s : State} {a base : Word} (v : Word) (h : wordWritable s a base) :
    ∃ m, writeWord s a v = .ok (s.withMem m) ∧ keepsCells s m ∧ ∀ key, m.read key = byteAfterStore s base v key := by
  obtain ⟨hb, h₁, h₂⟩ := h
  obtain ⟨t₁, e₁⟩ := writable_writeByte (lowByte v) h₁
  obtain ⟨-, m₁, rfl, -, -⟩ := writeByte_ok e₁
  obtain ⟨t₂, e₂⟩ := writable_writeByte (s := s.withMem m₁) (highByte v) h₂
  have e : writeWord s a v = .ok t₂ := by simp [writeWord, hb, e₁, e₂]
  obtain ⟨base', m, ⟨hb', -, -⟩, rfl, hk, hr⟩ := writeWord_ok e
  rw [hb] at hb'
  cases hb'
  exact ⟨m, e, hk, hr⟩

/-- The push inside CALL and INT: SP goes down by 2 and memory changes as `byteAfterPush` says. -/
theorem pushWord_ok {s t : State} {v : Word} (h : pushWord s v = .ok t) :
    ∃ base m, pushable s s.sp base ∧ t = (s.withMem m).withSp (s.sp - 2#16) ∧ keepsCells s m ∧
      ∀ key, m.read key = byteAfterPush s s.sp base v key := by
  unfold pushWord at h
  obtain ⟨s₁, h₁, h⟩ := bind_ok h
  cases h
  unfold stackWrite at h₁
  split at h₁
  · next hr =>
    cases h₁
    exact ⟨s.sp, s.mem, .inl hr, rfl, keepsCells_refl s, fun key => by simp [byteAfterPush, hr]⟩
  · next hr =>
    obtain ⟨base, hb, h₁⟩ := bind_ok h₁
    split at h₁
    · next hp =>
      obtain ⟨base', m, hw, rfl, hk, hm⟩ := writeWord_ok h₁
      have hbb : base' = base := Except.ok.inj (hw.1.symm.trans hb)
      subst hbb
      exact ⟨base', m, .inr ⟨hw, hp⟩, rfl, hk, fun key => by simp [byteAfterPush, hr, hm]⟩
    · cases h₁

/-- A push that can be carried out is. -/
theorem pushable_pushWord {s : State} {base : Word} (v : Word) (h : pushable s s.sp base) :
    ∃ m, pushWord s v = .ok ((s.withMem m).withSp (s.sp - 2#16)) ∧ keepsCells s m ∧
      ∀ key, m.read key = byteAfterPush s s.sp base v key := by
  by_cases hr : inRom s.sp = true
  · exact ⟨s.mem, by simp [pushWord, stackWrite, hr], keepsCells_refl s, fun key => by simp [byteAfterPush, hr]⟩
  · rcases h with hr' | ⟨hw, hp⟩
    · exact absurd hr' hr
    · obtain ⟨m, e, hk, hm⟩ := wordWritable_writeWord v hw
      refine ⟨m, ?_, hk, fun key => by simp [byteAfterPush, hr, hm]⟩
      simp [pushWord, stackWrite, hr, hw.1, hp, e]

/-- A pop: SP goes up by 2, nothing else changes but the count of draws. -/
theorem popWord_ok {s t : State} {v : Word} (h : popWord s = .ok (v, t)) :
    ∃ base n, poppable s (s.sp + 2#16) base ∧ t = (s.withSp (s.sp + 2#16)).withDraws n ∧ agrees s base v := by
  unfold popWord at h
  obtain ⟨base, hb, h⟩ := bind_ok h
  split at h
  · next hp =>
    obtain ⟨base', n, hw, rfl, ha⟩ := readWord_ok h
    have hbb : base' = base := Except.ok.inj (hw.1.symm.trans hb)
    subst hbb
    exact ⟨base', n, ⟨hw, hp⟩, rfl, ha⟩
  · cases h

/-- A pop that can be carried out is. -/
theorem poppable_popWord {s : State} {base : Word} (h : poppable s (s.sp + 2#16) base) :
    ∃ v n, popWord s = .ok (v, (s.withSp (s.sp + 2#16)).withDraws n) ∧ agrees s base v := by
  obtain ⟨hw, hp⟩ := h
  obtain ⟨v, n, e, ha⟩ := wordReadable_readWord (s := s.withSp (s.sp + 2#16)) hw
  refine ⟨v, n, ?_, ha⟩
  simp [popWord, hw.1, hp, e]

/-- Taking an interrupt: two pushes, `F.I` cleared, `pc` from the interrupt table; nothing else. -/
theorem takeInterrupt_ok {s t : State} {n ret : Word} (h : takeInterrupt s n ret = .ok t) :
    n.toNat ≤ 127 ∧ ∃ base₁ base₂ vbase m₁ m₂ d handler,
      pushable s s.sp base₁ ∧ pushable s (s.sp - 2#16) base₂ ∧
      (∀ key, m₁.read key = byteAfterPush s s.sp base₁ ret key) ∧
      (∀ key, m₂.read key = byteAfterPush (s.withMem m₁) (s.sp - 2#16) base₂ s.f key) ∧
      keepsCells s m₂ ∧ wordReadable (s.withMem m₂) (vectorLowAddr s.cfg n) vbase ∧
      agrees (s.withMem m₂) vbase handler ∧
      t = ((((s.withMem m₂).withSp (s.sp - 4#16)).setFlag .i false).withDraws d).withPc handler := by
  unfold takeInterrupt at h
  split at h
  · cases h
  · next hn =>
    obtain ⟨s₁, h₁, h⟩ := bind_ok h
    obtain ⟨s₂, h₂, h⟩ := bind_ok h
    obtain ⟨⟨handler, s₄⟩, h₄, h⟩ := bind_ok h
    obtain ⟨base₁, m₁, p₁, e₁, ⟨a1, a2, a3, a4⟩, r₁⟩ := pushWord_ok h₁
    obtain ⟨base₂, m₂, p₂, e₂, ⟨b1, b2, b3, b4⟩, r₂⟩ := pushWord_ok h₂
    obtain ⟨vbase, d, hv, e₄, ha⟩ := readWord_ok h₄
    have ht := Except.ok.inj h
    have c₁ : s₁.cfg = s.cfg := by rw [e₁]; rfl
    have mb₁ : s₁.mb = s.mb := by rw [e₁]; rfl
    have sp₁ : s₁.sp = s.sp - 2#16 := by rw [e₁]; rfl
    have f₁ : s₁.f = s.f := by rw [e₁]; rfl
    have mem₁ : s₁.mem = m₁ := by rw [e₁]; rfl
    have c₃ : (s₂.setFlag .i false).cfg = (s.withMem m₂).cfg := by rw [e₂, e₁]; rfl
    have mb₃ : (s₂.setFlag .i false).mb = (s.withMem m₂).mb := by rw [e₂, e₁]; rfl
    have mem₃ : (s₂.setFlag .i false).mem = (s.withMem m₂).mem := by rw [e₂, e₁]; rfl
    rw [sp₁, pushable_congr c₁ mb₁] at p₂
    rw [wordReadable_congr c₃ mb₃ mem₃, c₃] at hv
    rw [agrees_congr c₃ mb₃ mem₃] at ha
    rw [mem₁] at b1 b3 b4
    rw [mem₁, c₁] at b2
    refine ⟨by omega, base₁, base₂, vbase, m₁, m₂, d, handler, p₁, p₂, r₁, ?_, ?_, hv, ha, ?_⟩
    · intro key
      rw [r₂ key, sp₁, f₁]
      exact byteAfterPush_congr (s := s.withMem m₁) c₁ mb₁ mem₁ _ _ _ _
    · exact ⟨fun h => b1 (a1 h), fun h => b2 (a2 h), fun key hk => (b3 key hk).trans (a3 key hk),
        fun key hk => b4 key (a4 key hk)⟩
    · have hsp : s.sp - 2#16 - 2#16 = s.sp - 4#16 := by bv_omega
      rw [← ht, e₄, e₂, sp₁, hsp, e₁]
      rfl

/-- More defined bytes make more bytes readable. -/
theorem readable_mono {s : State} {m : Memory} (hk : ∀ key, s.mem.read key ≠ none → m.read key ≠ none) {a : Word}
    (h : readable s a) : readable (s.withMem m) a := by
  obtain ⟨⟨k, hs⟩, hv⟩ := h
  refine ⟨⟨k, hs⟩, ?_⟩
  rcases hv with hne | hv
  · left
    have hs' : storageKey (s.withMem m).cfg (s.withMem m).mb a = .ok k := hs
    unfold peek at hne ⊢
    rw [hs] at hne
    rw [hs']
    have hk' := hk k
    change (match m.read k with | some v => some v | none => if inRom a then s.cfg.romFill else none) ≠ none
    cases hm : m.read k with
    | some v => simp
    | none =>
      cases hms : s.mem.read k with
      | some v => exact absurd hm (hk' (by simp [hms]))
      | none => simpa [hms] using hne
  · exact .inr hv

theorem wordReadable_mono {s : State} {m : Memory} (hk : ∀ key, s.mem.read key ≠ none → m.read key ≠ none)
    {a base : Word} (h : wordReadable s a base) : wordReadable (s.withMem m) a base :=
  ⟨h.1, readable_mono hk h.2.1, readable_mono hk h.2.2⟩

/-- An interrupt 0 to 127 whose pushes can be carried out and whose entry can be read is taken. -/
theorem takeInterrupt_complete {s : State} {n : Word} (ret : Word) {base₁ base₂ vbase : Word} (hn : n.toNat ≤ 127)
    (p₁ : pushable s s.sp base₁) (p₂ : pushable s (s.sp - 2#16) base₂)
    (hv : wordReadable s (vectorLowAddr s.cfg n) vbase) : ∃ t, takeInterrupt s n ret = .ok t := by
  obtain ⟨m₁, e₁, ⟨-, -, -, a4⟩, -⟩ := pushable_pushWord ret p₁
  have p₂' : pushable ((s.withMem m₁).withSp (s.sp - 2#16)) ((s.withMem m₁).withSp (s.sp - 2#16)).sp base₂ := p₂
  obtain ⟨m₂, e₂, ⟨-, -, -, b4⟩, -⟩ := pushable_pushWord s.f p₂'
  have hv₂ := wordReadable_mono (fun key hk => b4 key (a4 key hk)) hv
  generalize hs₃ : ((((s.withMem m₁).withSp (s.sp - 2#16)).withMem m₂).withSp
    (((s.withMem m₁).withSp (s.sp - 2#16)).sp - 2#16)).setFlag .i false = s₃ at *
  have c₃ : s₃.cfg = (s.withMem m₂).cfg := by rw [← hs₃]; rfl
  have mb₃ : s₃.mb = (s.withMem m₂).mb := by rw [← hs₃]; rfl
  have mem₃ : s₃.mem = (s.withMem m₂).mem := by rw [← hs₃]; rfl
  have hv₃ := (wordReadable_congr c₃ mb₃ mem₃ _ _).2 hv₂
  obtain ⟨v, d, e₃, -⟩ := wordReadable_readWord hv₃
  have hc : s₃.cfg = s.cfg := c₃
  refine ⟨(s₃.withDraws d).withPc v, ?_⟩
  have : ¬ 127 < n.toNat := by omega
  have hf : ((s.withMem m₁).withSp (s.sp - 2#16)).f = s.f := rfl
  simp only [takeInterrupt, this, if_false, e₁, ok_bind, hf, e₂, hs₃, hc, e₃, pure_eq_ok]

/-- Returning from an interrupt: two pops, into F and `pc`; nothing else. -/
theorem returnFromInterrupt_ok {s t : State} (h : returnFromInterrupt s = .ok t) :
    ∃ base₁ base₂ flags target d, poppable s (s.sp + 2#16) base₁ ∧ poppable s (s.sp + 4#16) base₂ ∧
      agrees s base₁ flags ∧ agrees s base₂ target ∧
      t = (((s.withSp (s.sp + 4#16)).withF flags).withDraws d).withPc target := by
  unfold returnFromInterrupt at h
  obtain ⟨⟨flags, s₁⟩, h₁, h⟩ := bind_ok h
  obtain ⟨⟨target, s₂⟩, h₂, h⟩ := bind_ok h
  obtain ⟨base₁, n₁, p₁, rfl, a₁⟩ := popWord_ok h₁
  obtain ⟨base₂, n₂, p₂, rfl, a₂⟩ := popWord_ok h₂
  have hsp : s.sp + 2#16 + 2#16 = s.sp + 4#16 := by bv_omega
  simp only [State.withF_sp, State.withDraws_sp, State.withSp_sp, hsp] at p₂ a₂
  refine ⟨base₁, base₂, flags, target, n₂, p₁, p₂, a₁, a₂, ?_⟩
  have := (Except.ok.inj h).symm
  simp only [State.withF_sp, State.withDraws_sp, State.withSp_sp, hsp] at this
  exact this

/-- A return whose pops can be carried out happens. -/
theorem returnFromInterrupt_complete {s : State} {base₁ base₂ : Word} (p₁ : poppable s (s.sp + 2#16) base₁)
    (p₂ : poppable s (s.sp + 4#16) base₂) : ∃ t, returnFromInterrupt s = .ok t := by
  obtain ⟨flags, d, e₁, -⟩ := poppable_popWord p₁
  generalize hs₁ : (((s.withSp (s.sp + 2#16)).withDraws d).withF flags) = s₁
  have hsp : s₁.sp + 2#16 = s.sp + 4#16 := by rw [← hs₁]; simp only [State.withF_sp, State.withDraws_sp, State.withSp_sp]; bv_omega
  have p₂' : poppable s₁ (s₁.sp + 2#16) base₂ := by
    rw [hsp]
    exact (poppable_congr (s := s) (by rw [← hs₁]; rfl) (by rw [← hs₁]; rfl) (by rw [← hs₁]; rfl) _ _).2 p₂
  obtain ⟨target, d', e₂, -⟩ := poppable_popWord p₂'
  refine ⟨((s₁.withSp (s₁.sp + 2#16)).withDraws d').withPc target, ?_⟩
  simp only [returnFromInterrupt, e₁, ok_bind, hs₁, e₂, pure_eq_ok]

/-- A read of a port: the answer, and the access at the end of the log. -/
theorem portRead_ok {s t : State} {p v : Word} (h : portRead s p = .ok (v, t)) :
    p.toNat ≤ 255 ∧ ∃ left, t = (s.withPortIn left).withPortLog (s.portLog ++ [.read (p.setWidth 8) v]) ∧
      (takeAnswer (p.setWidth 8) s.portIn = some (v, left) ∨
        (takeAnswer (p.setWidth 8) s.portIn = none ∧ left = s.portIn)) := by
  unfold portRead portOf at h
  by_cases hp : 255 < p.toNat
  · simp [hp] at h
  · simp only [hp, if_false] at h
    refine ⟨by omega, ?_⟩
    split at h
    · next w left hw =>
      simp only [Except.ok.injEq, Prod.mk.injEq] at h
      obtain ⟨rfl, rfl⟩ := h
      exact ⟨left, rfl, .inl hw⟩
    · next hw =>
      simp only [Except.ok.injEq, Prod.mk.injEq] at h
      obtain ⟨rfl, rfl⟩ := h
      exact ⟨s.portIn, rfl, .inr ⟨hw, rfl⟩⟩

/-- A port 0 to 255 can be read. -/
theorem portRead_complete (s : State) {p : Word} (hp : p.toNat ≤ 255) : ∃ v t, portRead s p = .ok (v, t) := by
  unfold portRead portOf
  have : ¬ 255 < p.toNat := by omega
  simp only [this, if_false]
  cases takeAnswer (p.setWidth 8) s.portIn with
  | none => exact ⟨_, _, rfl⟩
  | some w => exact ⟨_, _, rfl⟩

/-- A write of a port: the event at the end of the log. -/
theorem portWrite_ok {s t : State} {p v : Word} (h : portWrite s p v = .ok t) :
    p.toNat ≤ 255 ∧ t = s.withPortLog (s.portLog ++ [.write (p.setWidth 8) v]) := by
  unfold portWrite portOf at h
  by_cases hp : 255 < p.toNat
  · simp [hp] at h
  · simp only [hp, if_false] at h
    exact ⟨by omega, (Except.ok.inj h).symm⟩

/-- A port 0 to 255 can be written. -/
theorem portWrite_complete (s : State) {p : Word} (v : Word) (hp : p.toNat ≤ 255) :
    portWrite s p v = .ok (s.withPortLog (s.portLog ++ [.write (p.setWidth 8) v])) := by
  have : ¬ 255 < p.toNat := by omega
  simp [portWrite, portOf, this]

end Sys2Proof.Machine
end

