-- ==== Sys2Proof/Laws/Decode.lean ====
section
/-! SUPPORT. The fields of encoded bytes, REGNUM as a numbering, and which format each shape of operands has. -/

namespace Sys2Proof

theorem firstByte_toNat {opcode format : Nat} (ho : opcode < 32) (hf : format < 8) :
    (firstByte opcode format).toNat = opcode * 8 + format := by
  simp only [firstByte, BitVec.toNat_ofNat]
  omega

/-- The fields of `I0` are read as they were written (R71, R77). -/
theorem opcodeField_firstByte {opcode format : Nat} (ho : opcode < 32) (hf : format < 8) :
    opcodeField (firstByte opcode format) = opcode := by
  rw [opcodeField, firstByte_toNat ho hf]
  omega

theorem formatField_firstByte {opcode format : Nat} (ho : opcode < 32) (hf : format < 8) :
    formatField (firstByte opcode format) = format := by
  rw [formatField, firstByte_toNat ho hf]
  omega

/-- `I0` is determined by its two fields (R71). -/
theorem firstByte_fields (i0 : Byte) : firstByte (opcodeField i0) (formatField i0) = i0 := by
  apply BitVec.eq_of_toNat_eq
  simp only [firstByte, opcodeField, formatField, BitVec.toNat_ofNat]
  omega

theorem secondByte_toNat {c d : Nat} (hc : c < 16) (hd : d < 16) : (secondByte c d).toNat = c * 16 + d := by
  simp only [secondByte, BitVec.toNat_ofNat]
  omega

/-- The fields of `I1` are read as they were written (R71). -/
theorem fieldC_secondByte {c d : Nat} (hc : c < 16) (hd : d < 16) : fieldC (secondByte c d) = c := by
  rw [fieldC, secondByte_toNat hc hd]
  omega

theorem fieldD_secondByte {c d : Nat} (hc : c < 16) (hd : d < 16) : fieldD (secondByte c d) = d := by
  rw [fieldD, secondByte_toNat hc hd]
  omega

/-- A list of 16 different slots holds every slot. -/
theorem mem_of_nodup_sixteen {l : List Reg} (hn : l.Nodup) (hl : l.length = 16) (r : Reg) : r ∈ l := by
  by_contra hr
  have h1 : (r :: l).Nodup := List.nodup_cons.2 ⟨hr, hn⟩
  have h2 : (r :: l) ⊆ Machine.defaultRegnum := by intro q _; cases q <;> decide
  have h3 := (List.subperm_of_subset h1 h2).length_le
  rw [List.length_cons, hl] at h3
  exact absurd h3 (by decide)

/-- Every slot has a number below 16, and the number selects it (R12). -/
theorem encodeReg_spec {cfg : Config} (h : cfg.wf = true) (r : Reg) :
    encodeReg cfg r < 16 ∧ cfg.regnum[encodeReg cfg r]? = some r := by
  have h' := of_decide_eq_true h
  have hl := List.idxOf_lt_length_of_mem (mem_of_nodup_sixteen h'.2.1 h'.1 r)
  refine ⟨by rw [encodeReg]; omega, ?_⟩
  rw [encodeReg, List.getElem?_eq_getElem hl]
  simp

/-- The number of an implemented register decodes to it. -/
theorem decodeReg_encodeReg {cfg : Config} (h : cfg.wf = true) {r : Reg} (hr : r.implemented = true) :
    decodeReg cfg (encodeReg cfg r) = .ok r := by
  rw [decodeReg, (encodeReg_spec h r).2]
  simp [hr]

/-- A register number that decodes selects that register, which is an implemented one (R12, R81). -/
theorem decodeReg_ok {cfg : Config} {n : Nat} {r : Reg} (h : decodeReg cfg n = .ok r) :
    cfg.regnum[n]? = some r ∧ r.implemented = true := by
  unfold decodeReg at h
  split at h
  · next r' hr =>
    split at h
    · next hi => cases h; exact ⟨hr, hi⟩
    · cases h
  · cases h

/-- A register number that does not decode is a reserved one (R81). -/
theorem decodeReg_error {cfg : Config} {n : Nat} {e : DecodeError} (h : decodeReg cfg n = .error e) :
    e = .reservedRegister := by
  unfold decodeReg at h
  split at h
  · split at h
    · cases h
    · cases h; rfl
  · cases h; rfl

/-- The five shapes and the formats they have (R72, R78). -/
theorem assignedForms_format (ind : IndirectFormat) : ∀ row ∈ assignedForms ind,
    ((∃ i, row.shape = .noOperand i) ∧ row.format = 0) ∨ ((∃ mk, row.shape = .imm mk) ∧ row.format = 2) ∨
      ((∃ mk, row.shape = .reg mk) ∧ row.format = 1) ∨ ((∃ mk, row.shape = .regImm mk) ∧ row.format = 4) ∨
      ((∃ mk, row.shape = .regReg mk) ∧ (row.format = 3 ∨ row.format = 5 ∧ ind = .fmt5)) := by
  cases ind <;>
    simp [assignedForms, formsDataMovement, formsArithmetic, formsShiftLogic, formsPort, formsControl, formsSystem,
      indirectFormat]

/-- The same of a form that was looked up. -/
theorem lookupForm_format {ind : IndirectFormat} {opcode format : Nat} {sh : Shape}
    (h : lookupForm ind opcode format = some sh) :
    ((∃ i, sh = .noOperand i) ∧ format = 0) ∨ ((∃ mk, sh = .imm mk) ∧ format = 2) ∨
      ((∃ mk, sh = .reg mk) ∧ format = 1) ∨ ((∃ mk, sh = .regImm mk) ∧ format = 4) ∨
      ((∃ mk, sh = .regReg mk) ∧ (format = 3 ∨ format = 5 ∧ ind = .fmt5)) := by
  obtain ⟨row, hrow, rfl⟩ := Option.map_eq_some_iff.1 h
  have hm := List.mem_of_find?_eq_some hrow
  have hp := List.find?_some hrow
  simp only [Bool.and_eq_true, beq_iff_eq] at hp
  rw [← hp.2]
  exact assignedForms_format ind row hm

/-- Decoding an assigned first byte decodes its shape. -/
theorem decode_firstByte {cfg : Config} {opcode format : Nat} {sh : Shape} (ho : opcode < 32) (hf : format < 6)
    (hs : lookupForm cfg.indirectFmt opcode format = some sh) (i1 : Byte) (rest : List Byte) :
    decode cfg (firstByte opcode format :: i1 :: rest) = decodeShape cfg sh i1 rest := by
  simp only [decode, formatField_firstByte ho (by omega : format < 8), opcodeField_firstByte ho (by omega : format < 8),
    hs]
  rw [if_neg (by omega)]

end Sys2Proof
end

