-- ==== Sys2Proof/Laws/Meanings.lean ====
section
/-! SUPPORT. For each family's shared shape, everything an instruction of that shape can do when it answers a next
state. -/

namespace Sys2Proof.Machine

/-- LOAD: a readable word goes to an implemented register. -/
theorem loadFrom_next {len : Nat} {rC : Reg} {o : Operand} {s t : State} (h : loadFrom len rC o s = .next t) :
    ∃ base v n, operandOk o = true ∧ rC.implemented = true ∧ wordReadable s (operandValue s len o) base ∧
      agrees s base v ∧ t = (putReg (s.withDraws n) rC v).withPc (nextPc s len) := by
  obtain ⟨a, ha, h⟩ := bind_ok (finish_next h)
  obtain ⟨⟨v, s₁⟩, hv, h⟩ := bind_ok h
  obtain ⟨s₂, hw, h⟩ := bind_ok h
  obtain ⟨ho, rfl⟩ := readOperand_ok ha
  obtain ⟨base, n, hr, rfl, hag⟩ := readWord_ok hv
  obtain ⟨hi, rfl⟩ := writeReg_ok hw
  cases h
  exact ⟨base, v, n, ho, hi, hr, hag, rfl⟩

/-- STORE: nothing in ROM, else a word. -/
theorem storeTo_next {len : Nat} {o : Operand} {data : Reg} {s t : State} (h : storeTo len o data s = .next t) :
    operandOk o = true ∧ data.implemented = true ∧ ∃ m, t = (s.withMem m).withPc (nextPc s len) ∧ keepsCells s m ∧
      ((inRom (operandValue s len o) = true ∧ m = s.mem) ∨
        (inRom (operandValue s len o) = false ∧ ∃ base, wordWritable s (operandValue s len o) base ∧
          ∀ key, m.read key = byteAfterStore s base (getReg s len data) key)) := by
  obtain ⟨a, ha, h⟩ := bind_ok (finish_next h)
  obtain ⟨v, hv, h⟩ := bind_ok h
  obtain ⟨s₁, h₁, hf⟩ := bind_ok h
  obtain ⟨ho, rfl⟩ := readOperand_ok ha
  obtain ⟨hi, rfl⟩ := readReg_ok hv
  cases hf
  refine ⟨ho, hi, ?_⟩
  unfold storeWord at h₁
  split at h₁
  · next hr =>
    cases h₁
    exact ⟨s.mem, rfl, keepsCells_refl s, .inl ⟨hr, rfl⟩⟩
  · next hr =>
    obtain ⟨base, m, hw, rfl, hk, hm⟩ := writeWord_ok h₁
    exact ⟨m, rfl, hk, .inr ⟨by simpa using hr, base, hw, hm⟩⟩

/-- MOVE: a value goes to an implemented register. -/
theorem moveTo_next {len : Nat} {rC : Reg} {o : Operand} {s t : State} (h : moveTo len rC o s = .next t) :
    operandOk o = true ∧ rC.implemented = true ∧
      t = (putReg s rC (operandValue s len o)).withPc (nextPc s len) := by
  obtain ⟨a, ha, h⟩ := bind_ok (finish_next h)
  obtain ⟨s₁, hw, h⟩ := bind_ok h
  obtain ⟨ho, rfl⟩ := readOperand_ok ha
  obtain ⟨hi, rfl⟩ := writeReg_ok hw
  cases h
  exact ⟨ho, hi, rfl⟩

/-- PUSH: nothing with SP in ROM, else a word at SP and SP down by 2. -/
theorem pushOperand_next {len : Nat} {o : Operand} {s t : State} (h : pushOperand len o s = .next t) :
    operandOk o = true ∧
      ((inRom s.sp = true ∧ t = s.withPc (nextPc s len)) ∨
        (inRom s.sp = false ∧ ∃ base m, pushable s s.sp base ∧ keepsCells s m ∧
          (∀ key, m.read key = byteAfterPush s s.sp base (operandValue s len o) key) ∧
          t = ((s.withMem m).withSp (s.sp - 2#16)).withPc (nextPc s len))) := by
  obtain ⟨a, ha, h⟩ := bind_ok (finish_next h)
  obtain ⟨s₁, h₁, hf⟩ := bind_ok h
  obtain ⟨ho, rfl⟩ := readOperand_ok ha
  cases hf
  refine ⟨ho, ?_⟩
  unfold pushUnlessRom at h₁
  split at h₁
  · next hr =>
    cases h₁
    exact .inl ⟨hr, rfl⟩
  · next hr =>
    obtain ⟨base, m, hp, rfl, hk, hm⟩ := pushWord_ok h₁
    exact .inr ⟨by simpa using hr, base, m, hp, hk, hm, rfl⟩

/-- POP: SP up by 2, then a readable word goes to an implemented register. -/
theorem popTo_next {len : Nat} {rC : Reg} {s t : State} (h : popTo len rC s = .next t) :
    ∃ base v n, rC.implemented = true ∧ poppable s (s.sp + 2#16) base ∧ agrees s base v ∧
      t = (putReg ((s.withSp (s.sp + 2#16)).withDraws n) rC v).withPc (nextPc s len) := by
  obtain ⟨⟨v, s₁⟩, hv, h⟩ := bind_ok (finish_next h)
  obtain ⟨s₂, hw, h⟩ := bind_ok h
  obtain ⟨base, n, hp, rfl, hag⟩ := popWord_ok hv
  obtain ⟨hi, rfl⟩ := writeReg_ok hw
  cases h
  exact ⟨base, v, n, hi, hp, hag, rfl⟩

/-- ADD to DEC: the result goes to rC, then Z, C and O. -/
theorem arith_next {op : Word → Word → Bool → Alu} {len : Nat} {rC : Reg} {o : Operand} {s t : State}
    (h : arith op len rC o s = .next t) :
    operandOk o = true ∧ rC.implemented = true ∧ ∃ res,
      res = op (getReg s len rC) (operandValue s len o) (s.flag .c) ∧
      t = ((putReg s rC res.r).setZCO res.z res.c res.o).withPc (nextPc s len) := by
  obtain ⟨a, ha, h⟩ := bind_ok (finish_next h)
  obtain ⟨b, hb, h⟩ := bind_ok h
  obtain ⟨s₁, hw, h⟩ := bind_ok h
  obtain ⟨-, rfl⟩ := readReg_ok ha
  obtain ⟨ho, rfl⟩ := readOperand_ok hb
  obtain ⟨hi, rfl⟩ := writeReg_ok hw
  cases h
  exact ⟨ho, hi, _, rfl, rfl⟩

/-- SHL and SHR: the result goes to rC, then Z, C and any O. -/
theorem shift_next {result : Word → Word → Word} {carry : Word → Word → Bool} {len : Nat} {rC : Reg} {o : Operand}
    {s t : State} (h : shift result carry len rC o s = .next t) :
    operandOk o = true ∧ rC.implemented = true ∧ ∃ r,
      r = result (getReg s len rC) (operandValue s len o) ∧
      t = (((putReg s rC r).setZCO (r == 0#16) (shiftCarry s (carry (getReg s len rC) (operandValue s len o)))
        (shiftOverflow s)).drawn).withPc (nextPc s len) := by
  obtain ⟨a, ha, h⟩ := bind_ok (finish_next h)
  obtain ⟨b, hb, h⟩ := bind_ok h
  obtain ⟨s₁, hw, h⟩ := bind_ok h
  obtain ⟨-, rfl⟩ := readReg_ok ha
  obtain ⟨ho, rfl⟩ := readOperand_ok hb
  obtain ⟨hi, rfl⟩ := writeReg_ok hw
  cases h
  exact ⟨ho, hi, _, rfl, rfl⟩

/-- AND to XOR: the result goes to rC, then Z. -/
theorem logic_next {op : Word → Word → Word} {len : Nat} {rC : Reg} {o : Operand} {s t : State}
    (h : logic op len rC o s = .next t) :
    operandOk o = true ∧ rC.implemented = true ∧ ∃ r, r = op (getReg s len rC) (operandValue s len o) ∧
      t = ((putReg s rC r).setFlag .z (r == 0#16)).withPc (nextPc s len) := by
  obtain ⟨a, ha, h⟩ := bind_ok (finish_next h)
  obtain ⟨b, hb, h⟩ := bind_ok h
  obtain ⟨s₁, hw, h⟩ := bind_ok h
  obtain ⟨-, rfl⟩ := readReg_ok ha
  obtain ⟨ho, rfl⟩ := readOperand_ok hb
  obtain ⟨hi, rfl⟩ := writeReg_ok hw
  cases h
  exact ⟨ho, hi, _, rfl, rfl⟩

/-- INB: the device's value goes to rC, then Z. -/
theorem inFrom_next {len : Nat} {rC : Reg} {o : Operand} {s t : State} (h : inFrom len rC o s = .next t) :
    operandOk o = true ∧ rC.implemented = true ∧ (operandValue s len o).toNat ≤ 255 ∧ ∃ v left,
      (takeAnswer ((operandValue s len o).setWidth 8) s.portIn = some (v, left) ∨
        (takeAnswer ((operandValue s len o).setWidth 8) s.portIn = none ∧ left = s.portIn)) ∧
      t = ((putReg ((s.withPortIn left).withPortLog
        (s.portLog ++ [.read ((operandValue s len o).setWidth 8) v])) rC v).setFlag .z (v == 0#16)).withPc
          (nextPc s len) := by
  obtain ⟨p, hp, h⟩ := bind_ok (finish_next h)
  obtain ⟨⟨v, s₁⟩, hv, h⟩ := bind_ok h
  obtain ⟨s₂, hw, h⟩ := bind_ok h
  obtain ⟨ho, rfl⟩ := readOperand_ok hp
  obtain ⟨hle, left, rfl, hcase⟩ := portRead_ok hv
  obtain ⟨hi, rfl⟩ := writeReg_ok hw
  cases h
  exact ⟨ho, hi, hle, v, left, hcase, rfl⟩

/-- OUTB: the event goes to the log. -/
theorem outTo_next {len : Nat} {o : Operand} {data : Reg} {s t : State} (h : outTo len o data s = .next t) :
    operandOk o = true ∧ data.implemented = true ∧ (operandValue s len o).toNat ≤ 255 ∧
      t = (s.withPortLog (s.portLog ++ [.write ((operandValue s len o).setWidth 8) (getReg s len data)])).withPc
        (nextPc s len) := by
  obtain ⟨p, hp, h⟩ := bind_ok (finish_next h)
  obtain ⟨v, hv, h⟩ := bind_ok h
  obtain ⟨s₁, h₁, h⟩ := bind_ok h
  obtain ⟨ho, rfl⟩ := readOperand_ok hp
  obtain ⟨hi, rfl⟩ := readReg_ok hv
  obtain ⟨hle, rfl⟩ := portWrite_ok h₁
  cases h
  exact ⟨ho, hi, hle, rfl⟩

/-- CMP: Z and C. -/
theorem compareTo_next {len : Nat} {rC : Reg} {o : Operand} {s t : State} (h : compareTo len rC o s = .next t) :
    operandOk o = true ∧ rC.implemented = true ∧ ∃ res,
      res = subFlags (getReg s len rC) (operandValue s len o) false ∧
      t = ((s.setFlag .z res.z).setFlag .c res.c).withPc (nextPc s len) := by
  obtain ⟨a, ha, h⟩ := bind_ok (finish_next h)
  obtain ⟨b, hb, h⟩ := bind_ok h
  obtain ⟨hi, rfl⟩ := readReg_ok ha
  obtain ⟨ho, rfl⟩ := readOperand_ok hb
  cases h
  exact ⟨ho, hi, _, rfl, rfl⟩

/-- The jumps: only `pc`. -/
theorem jumpIf_next {cond : Bool} {len : Nat} {o : Operand} {s t : State} (h : jumpIf cond len o s = .next t) :
    operandOk o = true ∧ t = s.withPc (if cond then operandValue s len o else nextPc s len) := by
  obtain ⟨a, ha, h⟩ := bind_ok (finish_next h)
  obtain ⟨ho, rfl⟩ := readOperand_ok ha
  cases h
  exact ⟨ho, rfl⟩

/-- CALL: the return address is pushed, `pc` is the target. -/
theorem callTo_next {len : Nat} {o : Operand} {s t : State} (h : callTo len o s = .next t) :
    operandOk o = true ∧ ∃ base m, pushable s s.sp base ∧ keepsCells s m ∧
      (∀ key, m.read key = byteAfterPush s s.sp base (nextPc s len) key) ∧
      t = ((s.withMem m).withSp (s.sp - 2#16)).withPc (operandValue s len o) := by
  obtain ⟨a, ha, h⟩ := bind_ok (finish_next h)
  obtain ⟨s₁, h₁, h⟩ := bind_ok h
  obtain ⟨ho, rfl⟩ := readOperand_ok ha
  obtain ⟨base, m, hp, rfl, hk, hm⟩ := pushWord_ok h₁
  cases h
  exact ⟨ho, base, m, hp, hk, hm, rfl⟩

/-- RET: `pc` is the popped word. -/
theorem execRet_next {s t : State} (h : execRet s = .next t) :
    ∃ base v n, poppable s (s.sp + 2#16) base ∧ agrees s base v ∧
      t = ((s.withSp (s.sp + 2#16)).withDraws n).withPc v := by
  obtain ⟨⟨v, s₁⟩, hv, h⟩ := bind_ok (finish_next h)
  obtain ⟨base, n, hp, rfl, hag⟩ := popWord_ok hv
  cases h
  exact ⟨base, v, n, hp, hag, rfl⟩

/-- INT: masked it advances `pc` only; else the interrupt is taken. -/
theorem execIntI_next {n : Word} {s t : State} (h : execIntI n s = .next t) :
    (s.flag .i = false ∧ t = s.withPc (nextPc s 4)) ∨
      (s.flag .i = true ∧ takeInterrupt s n (nextPc s 4) = .ok t) := by
  unfold execIntI at h
  split at h
  · next hi => exact .inr ⟨hi, finish_next h⟩
  · next hi =>
    cases h
    exact .inl ⟨by simpa using hi, rfl⟩

/-- IRET: masked, under IRET_MASKED = nop, it advances `pc` only; else it returns. -/
theorem execIret_next {s t : State} (h : execIret s = .next t) :
    (s.flag .i = false ∧ s.cfg.iretMasked = .nop ∧ t = s.withPc (nextPc s 2)) ∨
      ((s.flag .i = true ∨ s.cfg.iretMasked = .returns) ∧ returnFromInterrupt s = .ok t) := by
  unfold execIret at h
  split at h
  · next hi => exact .inr ⟨by simpa using hi, finish_next h⟩
  · next hi =>
    cases h
    left
    simp only [Bool.or_eq_true, beq_iff_eq, not_or] at hi
    refine ⟨by simpa using hi.1, ?_, rfl⟩
    cases hm : s.cfg.iretMasked with
    | nop => rfl
    | returns => exact absurd hm hi.2

/-- Fetching changes the count of draws at most. -/
theorem fetch_ok {s t : State} {bytes : List Byte} (h : fetch s = .ok (bytes, t)) : ∃ n, t = s.withDraws n := by
  unfold fetch at h
  split at h
  · cases h
  · obtain ⟨⟨i0, s₁⟩, h₁, h⟩ := bind_ok h
    obtain ⟨⟨i1, s₂⟩, h₂, h⟩ := bind_ok h
    obtain ⟨⟨n₁, rfl⟩, -⟩ := readByte_draws h₁
    obtain ⟨⟨n₂, rfl⟩, -⟩ := readByte_draws h₂
    dsimp only at h
    split at h
    · obtain ⟨⟨i2, s₃⟩, h₃, h⟩ := bind_ok h
      obtain ⟨⟨i3, s₄⟩, h₄, h⟩ := bind_ok h
      obtain ⟨⟨n₃, rfl⟩, -⟩ := readByte_draws h₃
      obtain ⟨⟨n₄, rfl⟩, -⟩ := readByte_draws h₄
      cases h
      exact ⟨n₄, rfl⟩
    · cases h
      exact ⟨n₂, rfl⟩

/-- A step: nothing while halted; else the decoded instruction runs in the state after the fetch. -/
theorem step_next {s t : State} (h : step s = .next t) :
    (s.halted = true ∧ t = s) ∨
      (s.halted = false ∧ ∃ bytes n i rest, fetch s = .ok (bytes, s.withDraws n) ∧
        decode s.cfg bytes = .ok (i, rest) ∧ exec i (s.withDraws n) = .next t) := by
  unfold step at h
  split at h
  · next hh =>
    cases h
    exact .inl ⟨hh, rfl⟩
  · next hh =>
    right
    refine ⟨by simpa using hh, ?_⟩
    split at h
    · cases h
    · next bytes s₁ hf =>
      obtain ⟨n, rfl⟩ := fetch_ok hf
      split at h
      · cases h
      · next i rest hd => exact ⟨bytes, n, i, rest, hf, hd, h⟩

end Sys2Proof.Machine
end

