-- ==== Sys2Proof/Laws/PerInstr.lean ====
section
/-! SUPPORT. Statements per instruction, one lemma per constructor of `Instr`. -/

namespace Sys2Proof.Laws.EncodingLength

/-- An instruction's encoding has its length in bytes, 4 with an immediate and 2 without (R74), and its first byte is
the same whatever REGNUM is. -/
def Statement (i : Instr) : Prop :=
  (∀ cfg : Config, (encode cfg i).length = i.len) ∧
    ∀ cfg cfg' : Config, cfg.indirectFmt = cfg'.indirectFmt → (encode cfg i).head? = (encode cfg' i).head?

theorem loadR (rC rD : Reg) : Statement (.loadR rC rD) := ⟨fun _ => rfl, fun _ _ h => by simp [encode, encodeRR, h]⟩
theorem loadI (rC : Reg) (imm : Word) : Statement (.loadI rC imm) := ⟨fun _ => rfl, fun _ _ _ => rfl⟩
theorem storeR (rC rD : Reg) : Statement (.storeR rC rD) := ⟨fun _ => rfl, fun _ _ h => by simp [encode, encodeRR, h]⟩
theorem storeI (rC : Reg) (imm : Word) : Statement (.storeI rC imm) := ⟨fun _ => rfl, fun _ _ _ => rfl⟩
theorem moveR (rC rD : Reg) : Statement (.moveR rC rD) := ⟨fun _ => rfl, fun _ _ _ => rfl⟩
theorem moveI (rC : Reg) (imm : Word) : Statement (.moveI rC imm) := ⟨fun _ => rfl, fun _ _ _ => rfl⟩
theorem pushR (rC : Reg) : Statement (.pushR rC) := ⟨fun _ => rfl, fun _ _ _ => rfl⟩
theorem pushI (imm : Word) : Statement (.pushI imm) := ⟨fun _ => rfl, fun _ _ _ => rfl⟩
theorem popR (rC : Reg) : Statement (.popR rC) := ⟨fun _ => rfl, fun _ _ _ => rfl⟩
theorem addR (rC rD : Reg) : Statement (.addR rC rD) := ⟨fun _ => rfl, fun _ _ _ => rfl⟩
theorem addI (rC : Reg) (imm : Word) : Statement (.addI rC imm) := ⟨fun _ => rfl, fun _ _ _ => rfl⟩
theorem adcR (rC rD : Reg) : Statement (.adcR rC rD) := ⟨fun _ => rfl, fun _ _ _ => rfl⟩
theorem adcI (rC : Reg) (imm : Word) : Statement (.adcI rC imm) := ⟨fun _ => rfl, fun _ _ _ => rfl⟩
theorem subR (rC rD : Reg) : Statement (.subR rC rD) := ⟨fun _ => rfl, fun _ _ _ => rfl⟩
theorem subI (rC : Reg) (imm : Word) : Statement (.subI rC imm) := ⟨fun _ => rfl, fun _ _ _ => rfl⟩
theorem sbcR (rC rD : Reg) : Statement (.sbcR rC rD) := ⟨fun _ => rfl, fun _ _ _ => rfl⟩
theorem sbcI (rC : Reg) (imm : Word) : Statement (.sbcI rC imm) := ⟨fun _ => rfl, fun _ _ _ => rfl⟩
theorem incR (rC : Reg) : Statement (.incR rC) := ⟨fun _ => rfl, fun _ _ _ => rfl⟩
theorem decR (rC : Reg) : Statement (.decR rC) := ⟨fun _ => rfl, fun _ _ _ => rfl⟩
theorem shlR (rC rD : Reg) : Statement (.shlR rC rD) := ⟨fun _ => rfl, fun _ _ _ => rfl⟩
theorem shlI (rC : Reg) (imm : Word) : Statement (.shlI rC imm) := ⟨fun _ => rfl, fun _ _ _ => rfl⟩
theorem shrR (rC rD : Reg) : Statement (.shrR rC rD) := ⟨fun _ => rfl, fun _ _ _ => rfl⟩
theorem shrI (rC : Reg) (imm : Word) : Statement (.shrI rC imm) := ⟨fun _ => rfl, fun _ _ _ => rfl⟩
theorem andR (rC rD : Reg) : Statement (.andR rC rD) := ⟨fun _ => rfl, fun _ _ _ => rfl⟩
theorem andI (rC : Reg) (imm : Word) : Statement (.andI rC imm) := ⟨fun _ => rfl, fun _ _ _ => rfl⟩
theorem orR (rC rD : Reg) : Statement (.orR rC rD) := ⟨fun _ => rfl, fun _ _ _ => rfl⟩
theorem orI (rC : Reg) (imm : Word) : Statement (.orI rC imm) := ⟨fun _ => rfl, fun _ _ _ => rfl⟩
theorem norR (rC rD : Reg) : Statement (.norR rC rD) := ⟨fun _ => rfl, fun _ _ _ => rfl⟩
theorem norI (rC : Reg) (imm : Word) : Statement (.norI rC imm) := ⟨fun _ => rfl, fun _ _ _ => rfl⟩
theorem notR (rC : Reg) : Statement (.notR rC) := ⟨fun _ => rfl, fun _ _ _ => rfl⟩
theorem xorR (rC rD : Reg) : Statement (.xorR rC rD) := ⟨fun _ => rfl, fun _ _ _ => rfl⟩
theorem xorI (rC : Reg) (imm : Word) : Statement (.xorI rC imm) := ⟨fun _ => rfl, fun _ _ _ => rfl⟩
theorem inbR (rC rD : Reg) : Statement (.inbR rC rD) := ⟨fun _ => rfl, fun _ _ _ => rfl⟩
theorem inbI (rC : Reg) (imm : Word) : Statement (.inbI rC imm) := ⟨fun _ => rfl, fun _ _ _ => rfl⟩
theorem outbR (rC rD : Reg) : Statement (.outbR rC rD) := ⟨fun _ => rfl, fun _ _ _ => rfl⟩
theorem outbI (rC : Reg) (imm : Word) : Statement (.outbI rC imm) := ⟨fun _ => rfl, fun _ _ _ => rfl⟩
theorem cmpR (rC rD : Reg) : Statement (.cmpR rC rD) := ⟨fun _ => rfl, fun _ _ _ => rfl⟩
theorem cmpI (rC : Reg) (imm : Word) : Statement (.cmpI rC imm) := ⟨fun _ => rfl, fun _ _ _ => rfl⟩
theorem jmpR (rC : Reg) : Statement (.jmpR rC) := ⟨fun _ => rfl, fun _ _ _ => rfl⟩
theorem jmpI (imm : Word) : Statement (.jmpI imm) := ⟨fun _ => rfl, fun _ _ _ => rfl⟩
theorem jzR (rC : Reg) : Statement (.jzR rC) := ⟨fun _ => rfl, fun _ _ _ => rfl⟩
theorem jzI (imm : Word) : Statement (.jzI imm) := ⟨fun _ => rfl, fun _ _ _ => rfl⟩
theorem jnzR (rC : Reg) : Statement (.jnzR rC) := ⟨fun _ => rfl, fun _ _ _ => rfl⟩
theorem jnzI (imm : Word) : Statement (.jnzI imm) := ⟨fun _ => rfl, fun _ _ _ => rfl⟩
theorem jcR (rC : Reg) : Statement (.jcR rC) := ⟨fun _ => rfl, fun _ _ _ => rfl⟩
theorem jcI (imm : Word) : Statement (.jcI imm) := ⟨fun _ => rfl, fun _ _ _ => rfl⟩
theorem jncR (rC : Reg) : Statement (.jncR rC) := ⟨fun _ => rfl, fun _ _ _ => rfl⟩
theorem jncI (imm : Word) : Statement (.jncI imm) := ⟨fun _ => rfl, fun _ _ _ => rfl⟩
theorem callR (rC : Reg) : Statement (.callR rC) := ⟨fun _ => rfl, fun _ _ _ => rfl⟩
theorem callI (imm : Word) : Statement (.callI imm) := ⟨fun _ => rfl, fun _ _ _ => rfl⟩
theorem ret : Statement (.ret) := ⟨fun _ => rfl, fun _ _ _ => rfl⟩
theorem intI (imm : Word) : Statement (.intI imm) := ⟨fun _ => rfl, fun _ _ _ => rfl⟩
theorem iret : Statement (.iret) := ⟨fun _ => rfl, fun _ _ _ => rfl⟩
theorem halt : Statement (.halt) := ⟨fun _ => rfl, fun _ _ _ => rfl⟩
theorem nop : Statement (.nop) := ⟨fun _ => rfl, fun _ _ _ => rfl⟩

end Sys2Proof.Laws.EncodingLength
end

