-- ==== Sys2Proof/Laws/Registers.lean ====
section
/-! SUPPORT. The register file after each named update, and the bits of F after a flag write. -/

namespace Sys2Proof.Machine

/-- Writing one register leaves every other register alone (R14). -/
theorem getReg_putReg_other (s : State) {rC r : Reg} (v : Word) (len : Nat) (h : r ≠ rC) :
    getReg (putReg s rC v) len r = getReg s len r := by
  cases r <;>
    simp [getReg, nextPc, putReg_a, putReg_b, putReg_c, putReg_d, putReg_e, putReg_x, putReg_y, putReg_sp, putReg_mb,
      putReg_f] <;>
    intro he <;> exact absurd he.symm h

/-- Moving `pc` leaves every register but PC alone. -/
theorem getReg_withPc (s : State) (v : Word) (len : Nat) {r : Reg} (h : r ≠ .pc) :
    getReg (s.withPc v) len r = getReg s len r := by
  cases r <;> first | rfl | exact absurd rfl h

/-- Moving SP leaves every other register alone. -/
theorem getReg_withSp (s : State) (v : Word) (len : Nat) {r : Reg} (h : r ≠ .sp) :
    getReg (s.withSp v) len r = getReg s len r := by
  cases r <;> first | rfl | exact absurd rfl h

/-- Writing F leaves every other register alone. -/
theorem getReg_withF (s : State) (v : Word) (len : Nat) {r : Reg} (h : r ≠ .f) :
    getReg (s.withF v) len r = getReg s len r := by
  cases r <;> first | rfl | exact absurd rfl h

@[simp] theorem getReg_withDraws (s : State) (n len : Nat) (r : Reg) :
    getReg (s.withDraws n) len r = getReg s len r := by cases r <;> rfl

@[simp] theorem getReg_withMem (s : State) (m : Memory) (len : Nat) (r : Reg) :
    getReg (s.withMem m) len r = getReg s len r := by cases r <;> rfl

@[simp] theorem getReg_withPortIn (s : State) (v : List (Byte × Word)) (len : Nat) (r : Reg) :
    getReg (s.withPortIn v) len r = getReg s len r := by cases r <;> rfl

@[simp] theorem getReg_withPortLog (s : State) (v : List PortEvent) (len : Nat) (r : Reg) :
    getReg (s.withPortLog v) len r = getReg s len r := by cases r <;> rfl

@[simp] theorem getReg_withHalted (s : State) (v : Bool) (len : Nat) (r : Reg) :
    getReg (s.withHalted v) len r = getReg s len r := by cases r <;> rfl

@[simp] theorem getReg_drawn (s : State) (len : Nat) (r : Reg) : getReg s.drawn len r = getReg s len r := by
  cases r <;> rfl

/-- Writing a flag leaves every register but F alone. -/
theorem getReg_setFlag (s : State) (fl : Flag) (b : Bool) (len : Nat) {r : Reg} (h : r ≠ .f) :
    getReg (s.setFlag fl b) len r = getReg s len r := getReg_withF s _ len h

/-- Writing Z, C and O leaves every register but F alone. -/
theorem getReg_setZCO (s : State) (z c o : Bool) (len : Nat) {r : Reg} (h : r ≠ .f) :
    getReg (s.setZCO z c o) len r = getReg s len r := by
  rw [State.setZCO, getReg_setFlag _ _ _ _ h, getReg_setFlag _ _ _ _ h, getReg_setFlag _ _ _ _ h]

/-- Writing a flag leaves every bit of F but its own alone (R20). -/
theorem State.setFlag_bit_other (s : State) (fl : Flag) (b : Bool) {k : Nat}
    (h : k ≠ (s.cfg.flagPos.pos fl).val) : (s.setFlag fl b).f.getLsbD k = s.f.getLsbD k := by
  by_cases hk : k < 16
  · rw [State.setFlag_bit _ _ _ _ hk, if_neg h]
  · rw [BitVec.getLsbD_of_ge _ _ (by omega), BitVec.getLsbD_of_ge _ _ (by omega)]

end Sys2Proof.Machine
end

