-- ==== Sys2Proof/Tests/Slice0.lean ====
section
/-! SUPPORT. Our own tests: ill-formed terms, decoding of words written out from spec/30_encoding.md, single steps from
spec/95_test_vectors.md ("V n.m" names the vector), and for each obligation with hypotheses a state and operands that
meet them. -/

namespace Sys2Proof.Tests

open Sys2Proof Sys2Proof.Machine

/-! ## Well-formedness (R81) -/

/-- A reserved slot in any register position is refused: data movement. -/
theorem test_wf_refuses_data_movement :
    Instr.wf (.loadR .r12 .a) = false ∧
    Instr.wf (.loadR .a .r12) = false ∧
    Instr.wf (.loadI .r13 0) = false ∧
    Instr.wf (.storeR .r14 .a) = false ∧
    Instr.wf (.storeR .a .r14) = false ∧
    Instr.wf (.storeI .r15 0) = false ∧
    Instr.wf (.moveR .r12 .a) = false ∧
    Instr.wf (.moveR .a .r12) = false ∧
    Instr.wf (.moveI .r13 0) = false ∧
    Instr.wf (.pushR .r14) = false ∧
    Instr.wf (.popR .r12) = false := by decide

/-- A reserved slot in any register position is refused: arithmetic. -/
theorem test_wf_refuses_arithmetic :
    Instr.wf (.addR .r13 .a) = false ∧
    Instr.wf (.addR .a .r13) = false ∧
    Instr.wf (.addI .r14 0) = false ∧
    Instr.wf (.adcR .r15 .a) = false ∧
    Instr.wf (.adcR .a .r15) = false ∧
    Instr.wf (.adcI .r12 0) = false ∧
    Instr.wf (.subR .r13 .a) = false ∧
    Instr.wf (.subR .a .r13) = false ∧
    Instr.wf (.subI .r14 0) = false ∧
    Instr.wf (.sbcR .r15 .a) = false ∧
    Instr.wf (.sbcR .a .r15) = false ∧
    Instr.wf (.sbcI .r12 0) = false ∧
    Instr.wf (.incR .r13) = false ∧
    Instr.wf (.decR .r14) = false := by decide

/-- A reserved slot in any register position is refused: shift logic. -/
theorem test_wf_refuses_shift_logic :
    Instr.wf (.shlR .r15 .a) = false ∧
    Instr.wf (.shlR .a .r15) = false ∧
    Instr.wf (.shlI .r12 0) = false ∧
    Instr.wf (.shrR .r13 .a) = false ∧
    Instr.wf (.shrR .a .r13) = false ∧
    Instr.wf (.shrI .r14 0) = false ∧
    Instr.wf (.andR .r15 .a) = false ∧
    Instr.wf (.andR .a .r15) = false ∧
    Instr.wf (.andI .r12 0) = false ∧
    Instr.wf (.orR .r13 .a) = false ∧
    Instr.wf (.orR .a .r13) = false ∧
    Instr.wf (.orI .r14 0) = false ∧
    Instr.wf (.norR .r15 .a) = false ∧
    Instr.wf (.norR .a .r15) = false ∧
    Instr.wf (.norI .r12 0) = false ∧
    Instr.wf (.notR .r13) = false ∧
    Instr.wf (.xorR .r14 .a) = false ∧
    Instr.wf (.xorR .a .r14) = false ∧
    Instr.wf (.xorI .r15 0) = false := by decide

/-- A reserved slot in any register position is refused: ports. -/
theorem test_wf_refuses_ports :
    Instr.wf (.inbR .r12 .a) = false ∧
    Instr.wf (.inbR .a .r12) = false ∧
    Instr.wf (.inbI .r13 0) = false ∧
    Instr.wf (.outbR .r14 .a) = false ∧
    Instr.wf (.outbR .a .r14) = false ∧
    Instr.wf (.outbI .r15 0) = false := by decide

/-- A reserved slot in any register position is refused: control. -/
theorem test_wf_refuses_control :
    Instr.wf (.cmpR .r12 .a) = false ∧
    Instr.wf (.cmpR .a .r12) = false ∧
    Instr.wf (.cmpI .r13 0) = false ∧
    Instr.wf (.jmpR .r14) = false ∧
    Instr.wf (.jzR .r12) = false ∧
    Instr.wf (.jnzR .r14) = false ∧
    Instr.wf (.jcR .r12) = false ∧
    Instr.wf (.jncR .r14) = false ∧
    Instr.wf (.callR .r12) = false := by decide

/-- Every immediate and every implemented slot is admitted. -/
theorem test_wf_admits : Instr.wf (.storeR .mb .z) = true ∧ Instr.wf (.moveI .pc 0xFFFF) = true ∧
    Instr.wf (.intI 0xFFFF) = true ∧ Instr.wf .halt = true := by decide

/-! ## Decoding: I0 = AAAAABBB, I1 = CCCCDDDD (R71), then the immediate, low byte first (R73) -/

theorem test_decode_data_movement_1 :
    decode defaultConfig [0b00000011, 0b00010011] = .ok (.loadR .b .d, []) ∧
    decode defaultConfig [0b00000100, 0b01100000, 0x45, 0x23] = .ok (.loadI .y 0x2345, []) ∧
    decode defaultConfig [0b00001011, 0b10110101] = .ok (.storeR .z .x, []) ∧
    decode defaultConfig [0b00001100, 0b01000000, 0x67, 0x45] = .ok (.storeI .e 0x4567, []) ∧
    decode defaultConfig [0b00010011, 0b10010111] = .ok (.moveR .mb .pc, []) ∧
    decode defaultConfig [0b00010100, 0b00100000, 0x89, 0x67] = .ok (.moveI .c 0x6789, []) ∧
    decode defaultConfig [0b00011001, 0b01110000] = .ok (.pushR .pc, []) ∧
    decode defaultConfig [0b00011010, 0b00000000, 0xAB, 0x89] = .ok (.pushI 0x89AB, []) ∧
    decode defaultConfig [0b00100001, 0b01010000] = .ok (.popR .x, []) := by decide

theorem test_decode_arithmetic_1 :
    decode defaultConfig [0b00101011, 0b10100110] = .ok (.addR .f .y, []) ∧
    decode defaultConfig [0b00101100, 0b00110000, 0xDE, 0xBC] = .ok (.addI .d 0xBCDE, []) ∧
    decode defaultConfig [0b00110011, 0b10001001] = .ok (.adcR .sp .mb, []) ∧
    decode defaultConfig [0b00110100, 0b00010000, 0x00, 0xDF] = .ok (.adcI .b 0xDF00, []) ∧
    decode defaultConfig [0b00111011, 0b01101010] = .ok (.subR .y .f, []) ∧
    decode defaultConfig [0b00111100, 0b10110000, 0x22, 0x01] = .ok (.subI .z 0x0122, []) ∧
    decode defaultConfig [0b01000011, 0b01000000] = .ok (.sbcR .e .a, []) ∧
    decode defaultConfig [0b01000100, 0b10010000, 0x44, 0x23] = .ok (.sbcI .mb 0x2344, []) ∧
    decode defaultConfig [0b01001001, 0b00100000] = .ok (.incR .c, []) := by decide

theorem test_decode_arithmetic_2 :
    decode defaultConfig [0b01010001, 0b01110000] = .ok (.decR .pc, []) := by decide

theorem test_decode_shift_logic_1 :
    decode defaultConfig [0b01011011, 0b00000100] = .ok (.shlR .a .e, []) ∧
    decode defaultConfig [0b01011100, 0b01010000, 0x88, 0x67] = .ok (.shlI .x 0x6788, []) ∧
    decode defaultConfig [0b01100011, 0b10100110] = .ok (.shrR .f .y, []) ∧
    decode defaultConfig [0b01100100, 0b00110000, 0xAA, 0x89] = .ok (.shrI .d 0x89AA, []) ∧
    decode defaultConfig [0b01101011, 0b10001001] = .ok (.andR .sp .mb, []) ∧
    decode defaultConfig [0b01101100, 0b00010000, 0xCC, 0xAB] = .ok (.andI .b 0xABCC, []) ∧
    decode defaultConfig [0b01110011, 0b01101010] = .ok (.orR .y .f, []) ∧
    decode defaultConfig [0b01110100, 0b10110000, 0xEE, 0xCD] = .ok (.orI .z 0xCDEE, []) ∧
    decode defaultConfig [0b01111011, 0b01000000] = .ok (.norR .e .a, []) := by decide

theorem test_decode_shift_logic_2 :
    decode defaultConfig [0b01111100, 0b10010000, 0x10, 0xF0] = .ok (.norI .mb 0xF010, []) ∧
    decode defaultConfig [0b10000001, 0b00100000] = .ok (.notR .c, []) ∧
    decode defaultConfig [0b10001011, 0b01111001] = .ok (.xorR .pc .mb, []) ∧
    decode defaultConfig [0b10001100, 0b00000000, 0x43, 0x23] = .ok (.xorI .a 0x2343, []) := by decide

theorem test_decode_ports_1 :
    decode defaultConfig [0b10010011, 0b01011011] = .ok (.inbR .x .z, []) ∧
    decode defaultConfig [0b10010100, 0b10100000, 0x65, 0x45] = .ok (.inbI .f 0x4565, []) ∧
    decode defaultConfig [0b10011011, 0b00110001] = .ok (.outbR .d .b, []) ∧
    decode defaultConfig [0b10011100, 0b10000000, 0x87, 0x67] = .ok (.outbI .sp 0x6787, []) := by decide

theorem test_decode_control_1 :
    decode defaultConfig [0b10100011, 0b00010011] = .ok (.cmpR .b .d, []) ∧
    decode defaultConfig [0b10100100, 0b01100000, 0xA9, 0x89] = .ok (.cmpI .y 0x89A9, []) ∧
    decode defaultConfig [0b10101001, 0b10110000] = .ok (.jmpR .z, []) ∧
    decode defaultConfig [0b10101010, 0b00000000, 0xCB, 0xAB] = .ok (.jmpI 0xABCB, []) ∧
    decode defaultConfig [0b10110001, 0b10010000] = .ok (.jzR .mb, []) ∧
    decode defaultConfig [0b10110010, 0b00000000, 0xED, 0xCD] = .ok (.jzI 0xCDED, []) ∧
    decode defaultConfig [0b10111001, 0b01110000] = .ok (.jnzR .pc, []) ∧
    decode defaultConfig [0b10111010, 0b00000000, 0x0F, 0xF0] = .ok (.jnzI 0xF00F, []) ∧
    decode defaultConfig [0b11000001, 0b01010000] = .ok (.jcR .x, []) := by decide

theorem test_decode_control_2 :
    decode defaultConfig [0b11000010, 0b00000000, 0x31, 0x12] = .ok (.jcI 0x1231, []) ∧
    decode defaultConfig [0b11001001, 0b00110000] = .ok (.jncR .d, []) ∧
    decode defaultConfig [0b11001010, 0b00000000, 0x53, 0x34] = .ok (.jncI 0x3453, []) ∧
    decode defaultConfig [0b11010001, 0b00010000] = .ok (.callR .b, []) ∧
    decode defaultConfig [0b11010010, 0b00000000, 0x75, 0x56] = .ok (.callI 0x5675, []) ∧
    decode defaultConfig [0b11011000, 0b00000000] = .ok (.ret, []) := by decide

theorem test_decode_system_1 :
    decode defaultConfig [0b11100010, 0b00000000, 0x97, 0x78] = .ok (.intI 0x7897, []) ∧
    decode defaultConfig [0b11101000, 0b00000000] = .ok (.iret, []) ∧
    decode defaultConfig [0b11110000, 0b00000000] = .ok (.halt, []) ∧
    decode defaultConfig [0b11111000, 0b00000000] = .ok (.nop, []) := by decide

/-- LOADSTORE_INDIRECT_FORMAT = 5 (R78, decision D7). -/
theorem test_decode_indirect_format_five :
    decode { defaultConfig with indirectFmt := .fmt5 } [0x05, 0x10] = .ok (.loadR .b .a, []) ∧
    decode { defaultConfig with indirectFmt := .fmt5 } [0x03, 0x10] = .error .unassignedForm := by decide

/-- V6.16 to V6.20, V1.28, and a missing byte. -/
theorem test_decode_rejects :
    decode defaultConfig [0xFE, 0x00] = .error .reservedFormat ∧
    decode defaultConfig [0x07, 0x00] = .error .reservedFormat ∧
    decode defaultConfig [0x05, 0x00] = .error .unassignedForm ∧
    decode defaultConfig [0xDB, 0x00] = .error .unassignedForm ∧
    decode defaultConfig [0x29, 0x00] = .error .unassignedForm ∧
    decode defaultConfig [0x13, 0x0C] = .error .reservedRegister ∧
    decode defaultConfig [0x14, 0x00, 0x34] = .error .truncated := by decide

/-- The first bytes: 55 assigned, 64 with a reserved format, 32 with format 5, 105 unassigned (R83). -/
theorem test_first_byte_counts :
    ((List.range 256).countP fun n => (lookupForm .fmt3 (n / 8) (n % 8)).isSome) = 55 ∧
    ((List.range 256).countP fun n => decide (6 ≤ n % 8)) = 64 ∧
    ((List.range 256).countP fun n => decide (n % 8 = 5)) = 32 ∧
    ((List.range 256).countP fun n =>
      decide (n % 8 < 5) && (lookupForm .fmt3 (n / 8) (n % 8)).isNone) = 105 := by decide +kernel

/-- Table words: `STORE [Y], A` (V7.2) and `JNZ 0x0008` (V7.3) as spec/opcode_table.json numbers their bits. -/
theorem test_decodeTableWord :
    decodeTableWord 16 0x0B60 = some (.storeR .y .a) ∧ decodeTableWord 32 0x0008BA00 = some (.jnzI 8) := by decide

/-! ## Single steps, with the conventions of 95_test_vectors.md: the instruction at 0x0100 in ROM -/

/-- The parameters the vectors use. -/
def vectorConfig : Config :=
  { defaultConfig with misaligned := .refuse, fetchOdd := .refuse, nbanks := 2, unwritten := .refuse }

/-- A state with the given code at 0x0100 and the given bytes elsewhere, rising. -/
def vector (s : State) (code : List Byte) (cells : Memory) : State :=
  placeBytes { s with cfg := vectorConfig, pc := 0x0100, mem := cells } 0x0100 code

/-- The step answers a next state that passes the check. -/
def gives (s : State) (check : State → Bool) : Bool :=
  match step s with
  | .next t => check t
  | .fault _ => false
  | .refused _ => false

/-- The step stops by that name. -/
def stopsWith (s : State) (r : Refusal) : Bool :=
  match step s with
  | .next _ => false
  | .fault _ => false
  | .refused r' => decide (r' = r)

/-- V1.1. -/
theorem test_load_immediate : gives (vector State.reset [0x04, 0x00, 0x00, 0xC0] [(0xC000, 0x34), (0xC001, 0x12)])
    (fun t => t.a == 0x1234 && t.pc == 0x0104) = true := by decide

/-- V1.3. -/
theorem test_load_register_same : gives (vector { State.reset with a := 0xC010 } [0x03, 0x00] [(0xC010, 0xCD), (0xC011, 0xAB)])
    (fun t => t.a == 0xABCD && t.pc == 0x0102) = true := by decide

/-- V1.9. -/
theorem test_load_bank_one : gives (vector { State.reset with mb := 1 } [0x04, 0x00, 0x00, 0x80] [(0x10000, 0x11), (0x10001, 0x22), (0x14000, 0x78), (0x14001, 0x56)])
    (fun t => t.a == 0x5678) = true := by decide

/-- V1.11. -/
theorem test_load_absent_bank : stopsWith (vector { State.reset with mb := 2 } [0x04, 0x00, 0x00, 0x80] [])
    (.absentBank 2 0x8000) = true := by decide

/-- V1.14. -/
theorem test_store_register : gives (vector { State.reset with a := 0x1234, b := 0xFFFE } [0x0B, 0x10] [])
    (fun t => t.mem.read 0xFFFE == some 0x34 && t.mem.read 0xFFFF == some 0x12 && t.pc == 0x0102) = true := by decide

/-- V1.12. -/
theorem test_store_rom : gives (vector { State.reset with a := 0xBEEF } [0x0C, 0x00, 0x00, 0x01] [])
    (fun t => t.mem.read 0x0100 == some 0x0C && t.pc == 0x0104) = true := by decide

/-- V1.17. -/
theorem test_store_pc : gives (vector State.reset [0x0C, 0x70, 0x00, 0xC0] [])
    (fun t => t.mem.read 0xC000 == some 0x04 && t.mem.read 0xC001 == some 0x01) = true := by decide

/-- V1.26. -/
theorem test_move_register_pc : gives (vector State.reset [0x13, 0x07] [])
    (fun t => t.a == 0x0102 && t.pc == 0x0102) = true := by decide

/-- V1.24. -/
theorem test_move_to_pc : gives (vector State.reset [0x14, 0x70, 0x00, 0x40] [])
    (fun t => t.pc == 0x0104) = true := by decide

/-- V1.23. -/
theorem test_move_to_f : gives (vector State.reset [0x14, 0xA0, 0xFF, 0xFF] [])
    (fun t => t.f == 0xFFFF) = true := by decide

/-- V1.33. -/
theorem test_push_sp : gives (vector { State.reset with sp := 0xFEFE } [0x19, 0x80] [])
    (fun t => t.sp == 0xFEFC && t.mem.read 0xFEFE == some 0xFE && t.mem.read 0xFEFF == some 0xFE) = true := by decide

/-- V1.30. -/
theorem test_push_immediate : gives (vector { State.reset with sp := 0xFEFE } [0x1A, 0x00, 0x34, 0x12] [])
    (fun t => t.sp == 0xFEFC && t.mem.read 0xFEFE == some 0x34 && t.pc == 0x0104) = true := by decide

/-- V1.32. -/
theorem test_push_rom : gives (vector { State.reset with a := 0xCAFE, sp := 0x7FFE } [0x19, 0x00] [])
    (fun t => t.sp == 0x7FFE && t.mem.read 0x7FFE == none && t.pc == 0x0102) = true := by decide

/-- V1.37. -/
theorem test_pop_sp : gives (vector { State.reset with sp := 0xFEFC } [0x21, 0x80] [(0xFEFE, 0x00), (0xFEFF, 0xD0)])
    (fun t => t.sp == 0xD000 && t.pc == 0x0102) = true := by decide

/-- V1.38. -/
theorem test_pop_f : gives (vector { State.reset with sp := 0xFEFC } [0x21, 0xA0] [(0xFEFE, 0x00), (0xFEFF, 0x88)])
    (fun t => t.f == 0x8800 && t.sp == 0xFEFE) = true := by decide

/-- V2.4. -/
theorem test_add_register : gives (vector { State.reset with a := 0x8000, b := 0x8000 } [0x2B, 0x01] [])
    (fun t => t.a == 0 && t.f == 0xD000 && t.pc == 0x0102) = true := by decide

/-- V2.8. -/
theorem test_add_immediate_f : gives (vector State.reset [0x2C, 0xA0, 0x01, 0x00] [])
    (fun t => t.f == 0x0001) = true := by decide

/-- V2.9. -/
theorem test_adc_register : gives (vector { State.reset with a := 3, b := 4, f := 0x8000 } [0x33, 0x01] [])
    (fun t => t.a == 8 && t.f == 0) = true := by decide

/-- V2.12. -/
theorem test_adc_immediate : gives (vector { State.reset with f := 0x8000 } [0x34, 0x00, 0xFF, 0x7F] [])
    (fun t => t.a == 0x8000 && t.f == 0x1000) = true := by decide

/-- V2.15. -/
theorem test_sub_register : gives (vector { State.reset with a := 3, b := 5 } [0x3B, 0x01] [])
    (fun t => t.a == 0xFFFE && t.f == 0x8000) = true := by decide

/-- V2.18. -/
theorem test_sub_immediate : gives (vector State.reset [0x3C, 0x00, 0x00, 0x80] [])
    (fun t => t.a == 0x8000 && t.f == 0x9000) = true := by decide

/-- V2.21. -/
theorem test_sbc_register : gives (vector { State.reset with a := 5, b := 5, f := 0x8000 } [0x43, 0x01] [])
    (fun t => t.a == 0xFFFF && t.f == 0x8000) = true := by decide

/-- V2.22. -/
theorem test_sbc_immediate : gives (vector { State.reset with f := 0x8000 } [0x44, 0x00, 0xFF, 0xFF] [])
    (fun t => t.a == 0 && t.f == 0xC000) = true := by decide

/-- hand calculation from R115. -/
theorem test_inc_wraps : gives (vector { State.reset with a := 0xFFFF } [0x49, 0x00] [])
    (fun t => t.a == 0 && t.f == 0xC000 && t.pc == 0x0102) = true := by decide

/-- hand calculation from R116. -/
theorem test_dec_borrows : gives (vector State.reset [0x51, 0x00] [])
    (fun t => t.a == 0xFFFF && t.f == 0x8000) = true := by decide

/-- V3.5. -/
theorem test_shl_immediate : gives (vector { State.reset with a := 1 } [0x5C, 0x00, 0x10, 0x00] [])
    (fun t => t.a == 0 && t.pc == 0x0104) = true := by decide

/-- V3.7. -/
theorem test_shl_register : gives (vector { State.reset with a := 0xFFFF, b := 0x0100 } [0x5B, 0x01] [])
    (fun t => t.a == 0 && t.pc == 0x0102) = true := by decide

/-- V3.12. -/
theorem test_shr_immediate : gives (vector { State.reset with a := 0xC000 } [0x64, 0x00, 0x0F, 0x00] [])
    (fun t => t.a == 1 && t.pc == 0x0104) = true := by decide

/-- V3.15. -/
theorem test_shr_register : gives (vector { State.reset with a := 0x00F0, b := 3 } [0x63, 0x01] [])
    (fun t => t.a == 0x001E && t.pc == 0x0102) = true := by decide

/-- The carry of V3.3, V3.5, V3.6, V3.7, V3.9, V3.12 to V3.15 (F.O being a free value, F as a whole does not reduce). -/
theorem test_shift_carry : shlCarry 0x8001 0 = false ∧ shlCarry 1 16 = true ∧ shlCarry 0xFFFF 17 = false ∧
    shlCarry 0xFFFF 0x0100 = false ∧ shrCarry 0x8001 1 = true ∧ shrCarry 0xC000 15 = true ∧
    shrCarry 0x8000 16 = true ∧ shrCarry 0xFFFF 17 = false ∧ shrCarry 0x00F0 3 = false := by decide

/-- V3.18. -/
theorem test_and_register : gives (vector { State.reset with a := 0xFFFF, b := 0x00FF, f := 0x9800 } [0x6B, 0x01] [])
    (fun t => t.a == 0x00FF && t.f == 0x9800) = true := by decide

/-- V3.16. -/
theorem test_and_immediate : gives (vector { State.reset with a := 0x1234 } [0x6C, 0x00, 0x0F, 0x0F] [])
    (fun t => t.a == 0x0204 && t.f == 0) = true := by decide

/-- V3.20. -/
theorem test_or_register : gives (vector State.reset [0x73, 0x0B] [])
    (fun t => t.a == 0 && t.f == 0x4000) = true := by decide

/-- V3.22. -/
theorem test_or_immediate_f : gives (vector { State.reset with f := 0x4000 } [0x74, 0xA0, 0x00, 0x08] [])
    (fun t => t.f == 0x0800) = true := by decide

/-- V3.24. -/
theorem test_nor_register : gives (vector { State.reset with a := 0x00FF, b := 0x0F00 } [0x7B, 0x01] [])
    (fun t => t.a == 0xF000 && t.f == 0) = true := by decide

/-- V3.25. -/
theorem test_nor_immediate : gives (vector { State.reset with a := 0x1234 } [0x7C, 0x00, 0xFF, 0xFF] [])
    (fun t => t.a == 0 && t.f == 0x4000) = true := by decide

/-- V3.29. -/
theorem test_not : gives (vector { State.reset with a := 0x1234 } [0x81, 0x00] [])
    (fun t => t.a == 0xEDCB && t.f == 0 && t.pc == 0x0102) = true := by decide

/-- V3.30. -/
theorem test_xor_register : gives (vector { State.reset with a := 0x1234 } [0x8B, 0x00] [])
    (fun t => t.a == 0 && t.f == 0x4000) = true := by decide

/-- V3.31. -/
theorem test_xor_immediate : gives (vector { State.reset with a := 0x1234 } [0x8C, 0x00, 0xFF, 0xFF] [])
    (fun t => t.a == 0xEDCB && t.f == 0) = true := by decide

/-- V4.3, another answer waiting. -/
theorem test_inb_register : gives (vector { State.reset with b := 0x00FF, portIn := [(5, 1), (255, 0xFFFF)] } [0x93, 0x01] [])
    (fun t => t.a == 0xFFFF && t.f == 0 && t.portIn == [(5, 1)] && t.portLog == [.read 255 0xFFFF]) = true := by decide

/-- V4.2. -/
theorem test_inb_immediate : gives (vector { State.reset with a := 0x7777, portIn := [(5, 0)] } [0x94, 0x00, 0x05, 0x00] [])
    (fun t => t.a == 0 && t.f == 0x4000) = true := by decide

/-- V4.5. -/
theorem test_inb_absent_port : stopsWith (vector State.reset [0x94, 0x00, 0x00, 0x01] [])
    (.absentPort 0x0100) = true := by decide

/-- V4.7. -/
theorem test_outb_register : gives (vector { State.reset with a := 0x0041, b := 3 } [0x9B, 0x10] [])
    (fun t => t.portLog == [.write 3 0x0041] && t.pc == 0x0102) = true := by decide

/-- V4.9. -/
theorem test_outb_immediate : gives (vector State.reset [0x9C, 0xB0, 0xFF, 0x00] [])
    (fun t => t.portLog == [.write 255 0] && t.f == 0) = true := by decide

/-- V5.3. -/
theorem test_cmp_register : gives (vector { State.reset with a := 5, b := 3, f := 0xC000 } [0xA3, 0x01] [])
    (fun t => t.f == 0 && t.a == 5) = true := by decide

/-- V5.5. -/
theorem test_cmp_immediate : gives (vector { State.reset with a := 0x8000, f := 0x1000 } [0xA4, 0x00, 0x01, 0x00] [])
    (fun t => t.f == 0x1000 && t.a == 0x8000) = true := by decide

/-- V5.9. -/
theorem test_jmp_register : gives (vector State.reset [0xA9, 0x70] [])
    (fun t => t.pc == 0x0102) = true := by decide

/-- V5.7. -/
theorem test_jmp_immediate : gives (vector State.reset [0xAA, 0x00, 0x08, 0x00] [])
    (fun t => t.pc == 0x0008) = true := by decide

/-- V5.12. -/
theorem test_jz_register : gives (vector { State.reset with b := 0x0200, f := 0x4000 } [0xB1, 0x10] [])
    (fun t => t.pc == 0x0200) = true := by decide

/-- V5.11. -/
theorem test_jz_immediate : gives (vector State.reset [0xB2, 0x00, 0x40, 0x00] [])
    (fun t => t.pc == 0x0104) = true := by decide

/-- hand calculation from R139. -/
theorem test_jnz_register : gives (vector { State.reset with b := 0x0200 } [0xB9, 0x10] [])
    (fun t => t.pc == 0x0200) = true := by decide

/-- V5.14. -/
theorem test_jnz_immediate : gives (vector { State.reset with f := 0x4000 } [0xBA, 0x00, 0x08, 0x00] [])
    (fun t => t.pc == 0x0104) = true := by decide

/-- V5.17. -/
theorem test_jc_register : gives (vector { State.reset with c := 0x0300, f := 0x8000 } [0xC1, 0x20] [])
    (fun t => t.pc == 0x0300) = true := by decide

/-- V5.16. -/
theorem test_jc_immediate : gives (vector State.reset [0xC2, 0x00, 0x00, 0x02] [])
    (fun t => t.pc == 0x0104) = true := by decide

/-- hand calculation from R141. -/
theorem test_jnc_register : gives (vector { State.reset with c := 0x0300, f := 0x8000 } [0xC9, 0x20] [])
    (fun t => t.pc == 0x0102) = true := by decide

/-- V5.19. -/
theorem test_jnc_immediate : gives (vector State.reset [0xCA, 0x00, 0x00, 0x02] [])
    (fun t => t.pc == 0x0200) = true := by decide

/-- V5.22. -/
theorem test_call_register_sp : gives (vector { State.reset with sp := 0xC100 } [0xD1, 0x80] [])
    (fun t => t.pc == 0xC100 && t.sp == 0xC0FE && t.mem.read 0xC100 == some 0x02 && t.mem.read 0xC101 == some 0x01) = true := by decide

/-- V5.23. -/
theorem test_call_immediate_rom : gives (vector State.reset [0xD2, 0x00, 0x00, 0x02] [])
    (fun t => t.pc == 0x0200 && t.sp == 0xFFFE && t.mem.read 0 == none) = true := by decide

/-- V5.24. -/
theorem test_ret : gives (vector { State.reset with sp := 0xFEFC } [0xD8, 0x00] [(0xFEFE, 0x04), (0xFEFF, 0x01)])
    (fun t => t.pc == 0x0104 && t.sp == 0xFEFE) = true := by decide

/-- V6.2. -/
theorem test_int_taken : gives (vector { State.reset with sp := 0xFEFE, f := 0xC800 } [0xE2, 0x00, 0x03, 0x00] [(0xFFF8, 0x40), (0xFFF9, 0x00)])
    (fun t => t.pc == 0x0040 && t.sp == 0xFEFA && t.f == 0xC000 && t.mem.read 0xFEFD == some 0xC8 && t.mem.read 0xFEFE == some 0x04) = true := by decide

/-- V6.7. -/
theorem test_int_masked : gives (vector State.reset [0xE2, 0x00, 0x80, 0x00] [])
    (fun t => t.pc == 0x0104 && t.sp == 0) = true := by decide

/-- V6.10. -/
theorem test_iret : gives (vector { State.reset with sp := 0xFEFA, f := 0x0800 } [0xE8, 0x00] [(0xFEFC, 0x00), (0xFEFD, 0xC8), (0xFEFE, 0x04), (0xFEFF, 0x01)])
    (fun t => t.pc == 0x0104 && t.sp == 0xFEFE && t.f == 0xC800) = true := by decide

/-- V6.11. -/
theorem test_iret_masked : gives (vector { State.reset with sp := 0xFEFA } [0xE8, 0x00] [])
    (fun t => t.pc == 0x0102 && t.sp == 0xFEFA) = true := by decide

/-- V6.13. -/
theorem test_halt : gives (vector State.reset [0xF0, 0x00] [])
    (fun t => t.halted && t.pc == 0x0102) = true := by decide

/-- V6.15. -/
theorem test_nop_ignored_bits : gives (vector State.reset [0xF8, 0xFF] [])
    (fun t => !t.halted && t.pc == 0x0102) = true := by decide

/-- `withFetchWord`: the table word of `MOVE F, 0x0800` (V7.1) runs as the first instruction after reset. -/
theorem test_withFetchWord : gives (State.reset.withFetchWord 32 0x080014A0)
    (fun t => t.f == 0x0800 && t.pc == 4) = true := by decide

/-! ## Witnesses: for each obligation with hypotheses, a state and operands that meet them, clause by clause -/

/-- A state with registers of different values, SP in fixed RAM, and words at 0xC000, 0xC100 to 0xC103 and in
interrupt-table entry 3. -/
def ready : State :=
  { State.reset with
    a := 0x1234, b := 0xC100, c := 0x0001, d := 0x0005, pc := 0x0100, sp := 0xC100, f := 0x0800
    mem := [(0x0100, 0xF8), (0x0101, 0x00), (0x0102, 0x14), (0x0103, 0x00), (0x0104, 0x34), (0x0105, 0x12),
      (0xC000, 0x34), (0xC001, 0x12), (0xC100, 0x00), (0xC101, 0x08), (0xC102, 0x04), (0xC103, 0x01),
      (0xC104, 0x08), (0xC105, 0x01), (0xFFF8, 0x40), (0xFFF9, 0x00)] }

/-- A byte of fixed RAM that `ready` lists can be read. -/
theorem ready_readable {a : Word} (h : inWindow a = false) (hp : peek ready a ≠ none) : readable ready a :=
  ⟨⟨_, storageKey_outside _ _ h⟩, .inl hp⟩

theorem ready_wordReadable {a : Word} (ho : isOdd a = false) (h : inWindow a = false)
    (h' : inWindow (a + 1#16) = false) (hp : peek ready a ≠ none) (hp' : peek ready (a + 1#16) ≠ none) :
    wordReadable ready a a :=
  ⟨by simp [wordBase, ho], ready_readable h hp, ready_readable h' hp'⟩

theorem ready_wordWritable {a : Word} (ho : isOdd a = false) (h : inWindow a = false)
    (h' : inWindow (a + 1#16) = false) : wordWritable ready a a :=
  ⟨by simp [wordBase, ho], .inr ⟨_, storageKey_outside _ _ h⟩, .inr ⟨_, storageKey_outside _ _ h'⟩⟩

theorem ready_pushable {a : Word} (ho : isOdd a = false) (h : inWindow a = false)
    (h' : inWindow (a + 1#16) = false) : pushable ready a a :=
  .inr ⟨ready_wordWritable ho h h', rfl⟩

theorem witness_DecodeReadsBackEveryEncoding :
    defaultConfig.wf = true ∧ Config.wf { defaultConfig with indirectFmt := .fmt5 } = true ∧
      Instr.wf (.storeR .y .a) = true ∧ Instr.wf (.intI 0xFFFF) = true := by decide

theorem witness_DecodedBytesAgreeWithTheEncoding :
    decode defaultConfig [0x13, 0x10, 0x55] = .ok (.moveR .b .a, [0x55]) ∧
    decode defaultConfig [0x9C, 0x4F, 0x01, 0x00] = .ok (.outbI .e 1, []) ∧
    decode { defaultConfig with indirectFmt := .fmt5 } [0x0D, 0x60] = .ok (.storeR .y .a, []) ∧
    (operandRegs (.moveR .b .a))[0]? = some .b ∧ (operandRegs (.moveR .b .a))[1]? = some .a := by decide

theorem witness_ReservedEncodingsAreRejected :
    (6 ≤ formatField 0xFE ∧ formatField 0xFE = 6 ∧ formatField 0x07 = 7) ∧
    (formatField 0xDD = 5 ∧ lookupForm .fmt3 (opcodeField 0xDD) (formatField 0xDD) = none) ∧
    (formatField 0x05 = 5 ∧ defaultConfig.indirectFmt = .fmt3) ∧
    (formatField 0x19 = 1 ∧ formatField 0x13 = 3 ∧ formatField 0x14 = 4 ∧ fieldC 0xC0 = 12 ∧ fieldD 0x0F = 15 ∧
      defaultConfig.regnum[12]? = some .r12 ∧ defaultConfig.regnum[15]? = some .r15 ∧
      Reg.implemented .r12 = false ∧ Reg.implemented .r15 = false) ∧
    (lookupForm .fmt3 (opcodeField 0x19) 1).isSome = true ∧ (lookupForm .fmt3 (opcodeField 0x13) 3).isSome = true ∧
    (lookupForm .fmt3 (opcodeField 0x14) 4).isSome = true := by
  refine ⟨by decide, ⟨by decide, rfl⟩, by decide, by decide, by decide, by decide, by decide⟩

theorem witness_UndefinedBitsAreIgnored :
    formatField 0xF8 = 0 ∧ formatField 0xAA = 2 ∧ formatField 0x19 = 1 ∧ formatField 0x14 = 4 ∧
      fieldC 0x1F = fieldC 0x10 := by decide

theorem witness_StepRunsTheDecodedInstruction :
    (ready.halted = false ∧ isOdd ready.pc = false ∧ peek ready ready.pc = some 0xF8 ∧
      peek ready (ready.pc + 1#16) = some 0x00 ∧ hasImm 0xF8 = false ∧
      decode ready.cfg [0xF8, 0x00] = .ok (.nop, [])) ∧
    (let s := ready.withPc 0x0102
     s.halted = false ∧ peek s s.pc = some 0x14 ∧ peek s (s.pc + 1#16) = some 0x00 ∧ hasImm 0x14 = true ∧
      peek s (s.pc + 2#16) = some 0x34 ∧ peek s (s.pc + 3#16) = some 0x12 ∧
      decode s.cfg [0x14, 0x00, 0x34, 0x12] = .ok (.moveI .a 0x1234, [])) := by decide

theorem witness_StepStopsOnReservedEncodings :
    (let s := ready.withPc 0xC104
     s.halted = false ∧ isOdd s.pc = false ∧ peek s s.pc = some 0x08 ∧ peek s (s.pc + 1#16) = some 0x01 ∧ hasImm 0x08 = false ∧
      decode s.cfg [0x08, 0x01] = .error .unassignedForm) ∧
    (let s := { ready with pc := 0x0101, cfg := vectorConfig }
     s.halted = false ∧ isOdd s.pc = true ∧ s.cfg.fetchOdd = .refuse) := by decide

/-- The second clause of the statement on reserved encodings, all its hypotheses at one state. -/
theorem witness_StepStopsOnReservedEncodings_immediate :
    let s := { ready with mem := [(0x0100, 0x04), (0x0101, 0xC0), (0x0102, 0x00), (0x0103, 0x00)] }
    s.halted = false ∧ isOdd s.pc = false ∧ peek s s.pc = some 0x04 ∧ peek s (s.pc + 1#16) = some 0xC0 ∧
      hasImm 0x04 = true ∧ peek s (s.pc + 2#16) = some 0x00 ∧ peek s (s.pc + 3#16) = some 0x00 ∧
      decode s.cfg [0x04, 0xC0, 0x00, 0x00] = .error .reservedRegister := by decide

theorem witness_HaltedMachineStays : (ready.withHalted true).halted = true := rfl

theorem witness_StepKeepsInvariant : ready.inv = true ∧ ∃ t, step ready = .next t := ⟨by decide, _, rfl⟩

theorem witness_ResetKeepsRomAndClearsTheRest :
    isRomKey 0x7FFF = true ∧ isRomKey 0x8000 = false ∧ ready.inv = true := by decide

theorem witness_HardwareNeverChangesRom :
    inRom 0x7FFF = true ∧ inRom 0x8000 = false ∧ inRom 0x0100 = true ∧
      ready.mem.read (0x0100#16).toNat = some 0xF8 ∧ ready.mem.read (0x0100#16 + 1#16).toNat = some 0x00 ∧
      isOdd 0x0100 = false ∧ hasImm 0xF8 = false ∧ (∃ t, step ready = .next t) ∧
      (let s := ready.withPc 0x0102
       isOdd s.pc = false ∧ inRom s.pc = true ∧ s.mem.read s.pc.toNat = some 0x14 ∧ hasImm 0x14 = true ∧
        s.mem.read (s.pc + 1#16).toNat = some 0x00 ∧ inRom (s.pc + 2#16) = true ∧
        s.mem.read (s.pc + 2#16).toNat = some 0x34 ∧ s.mem.read (s.pc + 3#16).toNat = some 0x12) :=
  ⟨by decide, by decide, by decide, by decide, by decide, by decide, by decide, ⟨_, rfl⟩, by decide⟩

theorem witness_StepLeavesOtherBanksAlone :
    (1 : Nat) ≠ ready.mb.toNat ∧ 0x3FFF < 0x4000 ∧ ∃ t, step ready = .next t :=
  ⟨by decide, by decide, _, rfl⟩

theorem witness_StepKeepsParametersAndLog : ∃ t, step ready = .next t := ⟨_, rfl⟩

theorem witness_OnlyDestinationsChange :
    (∃ t, exec (.addR .a .b) ready = .next t) ∧ Reg.mb ≠ .pc ∧ Reg.mb ≠ .f ∧
      destination (.addR .a .b) ≠ some .mb ∧ Reg.sp ≠ .pc ∧ movesSp (.addR .a .b) = false :=
  ⟨⟨_, rfl⟩, by decide, by decide, by decide, by decide, rfl⟩

theorem witness_OnlyListedFlagsChange :
    (∃ t, exec (.cmpR .a .b) ready = .next t) ∧ Instr.cmpR .a .b ≠ .iret ∧ destination (.cmpR .a .b) ≠ some .f ∧
      ¬ isFlagBit ready (flagsWritten (.cmpR .a .b)) 12 := by
  refine ⟨⟨_, rfl⟩, by decide, by decide, ?_⟩
  rintro ⟨fl, hm, hp⟩
  revert hm hp
  cases fl <;> decide

theorem witness_NegativeAndInterruptFlagsKeep :
    ready.cfg.flagPos.distinct = true ∧ (∃ t, exec (.intI 3) ready = .next t) ∧ Instr.intI 3 ≠ .iret ∧
      destination (.intI 3) ≠ some .f := ⟨by decide, ⟨_, rfl⟩, by decide, by decide⟩

theorem witness_OnlyStoredBytesChange :
    (∃ t, exec (.storeI .a 0xC100) ready = .next t) ∧
      ∀ a ∈ storeAddresses ready (.storeI .a 0xC100), inRom a = true ∨ ¬ storesTo ready a 0xC102 := by
  refine ⟨⟨_, rfl⟩, ?_⟩
  intro a ha
  simp only [storeAddresses, List.mem_singleton] at ha
  subst ha
  right
  rintro ⟨base, hb, hk⟩
  have hbase : base = 0xC100#16 := (Except.ok.inj hb).symm
  subst hbase
  rcases hk with hk | hk <;> exact absurd (Except.ok.inj hk) (by decide)

theorem witness_OnlyPortInstructionsAccessPorts :
    (∃ t, exec (.outbI .a 2) ready = .next t) ∧ usesPort (.outbI .a 2) = true ∧
      (∃ t, exec .nop ready = .next t) ∧ usesPort .nop = false := ⟨⟨_, rfl⟩, rfl, ⟨_, rfl⟩, rfl⟩

theorem witness_OtherInstructionsAdvanceAndOnlyHaltHalts :
    (∃ t, exec (.moveI .pc 0x4000) ready = .next t) ∧ transfersControl (.moveI .pc 0x4000) = false ∧
      Instr.moveI .pc 0x4000 ≠ .halt := ⟨⟨_, rfl⟩, rfl, by decide⟩

theorem witness_ReservedRegistersNeverRun : Instr.wf (.moveR .a .r12) = false := rfl

theorem witness_RegisterFileReadsBack : Reg.implemented .f = true ∧ Reg.implemented .r15 = false := by decide

theorem witness_ZeroRegisterIsConstant :
    ready.cfg.flagPos.distinct = true ∧ ∃ t, exec (.cmpR .a .z) ready = .next t := ⟨by decide, _, rfl⟩

theorem witness_FlagWriteChangesOneBit : (15 : Nat) < 16 := by decide

theorem witness_WordAccessFollowsAlignment :
    (isOdd 0xC100 = false ∧ peek ready 0xC100 = some 0x00 ∧ peek ready (0xC100#16 + 1#16) = some 0x08) ∧
    (ready.cfg.misaligned = .split ∧ peek ready 0xC101 = some 0x08 ∧ peek ready (0xC101#16 + 1#16) = some 0x04) ∧
    (writable ready 0xFFFF ∧ writable ready (0xFFFF#16 + 1#16) ∧ inRom 0xFFFF = false ∧
      inRom (0xFFFF#16 + 1#16) = true) ∧
    (writable ready 0x7FFF ∧ writable ready (0x7FFF#16 + 1#16) ∧ inRom (0x7FFF#16 + 1#16) = false) ∧
    (isRomKey 0 = true ∧ storageKey ready.cfg ready.mb 0xFFFF ≠ .ok 0xC100 ∧
      storageKey ready.cfg ready.mb (0xFFFF#16 + 1#16) ≠ .ok 0xC100) ∧
    isOdd 0xC101 = true ∧ Config.misaligned { defaultConfig with misaligned := .mask } = .mask ∧
    vectorConfig.misaligned = .refuse := by
  refine ⟨by decide, by decide, ⟨.inr ⟨_, rfl⟩, .inl (by decide), by decide, by decide⟩,
    ⟨.inl (by decide), .inr ⟨_, rfl⟩, by decide⟩, ⟨by decide, ?_, ?_⟩, by decide, rfl, rfl⟩
  · exact fun h => absurd (Except.ok.inj h) (by decide)
  · exact fun h => absurd (Except.ok.inj h) (by decide)

theorem witness_StoreThenLoadReturnsTheWord :
    Reg.implemented .b = true ∧ Reg.implemented .d = true ∧ inRom 0xFFFE = false ∧ (0xFFFE#16 : Word) ≠ 0xFFFF#16 ∧
      (∃ t, exec (.storeI .a 0xFFFE) ready = .next t) ∧ (∃ t, exec (.storeI .a 0xC101) ready = .next t) ∧
      (∃ t, exec (.storeR .b .a) ready = .next t ∧ getReg ready 2 .b = 0xC100 ∧ getReg t 2 .b = 0xC100) ∧
      inRom 0xFFFF = false ∧
      (let s := { ready with cfg := { defaultConfig with misaligned := .mask } }
       s.cfg.misaligned ≠ .split ∧ ∃ t, exec (.storeI .a 0xFFFF) s = .next t) :=
  ⟨by decide, by decide, by decide, by decide, ⟨_, rfl⟩, ⟨_, rfl⟩, ⟨_, rfl, rfl, rfl⟩, by decide, by decide, _, rfl⟩

theorem witness_EvenWordIsTwoBytes :
    isOdd 0xC100 = false ∧ (∃ lo s₁, readByte ready 0xC100 = .ok (lo, s₁) ∧
      ∃ hi s₂, readByte s₁ (0xC100#16 + 1#16) = .ok (hi, s₂)) ∧
    (∃ s₁, writeByte ready 0xC100 ((0x1234#16 : Word).extractLsb' 0 8) = .ok s₁ ∧
      ∃ s₂, writeByte s₁ (0xC100#16 + 1#16) ((0x1234#16 : Word).extractLsb' 8 8) = .ok s₂) ∧
    isOdd 0x7FFE = false ∧ inRom 0x7FFE = true :=
  ⟨by decide, ⟨_, _, rfl, _, _, rfl⟩, ⟨_, rfl, _, rfl⟩, by decide, by decide⟩

theorem witness_BytesWithoutBankOrValue :
    Reg.implemented .a = true ∧ Reg.implemented .b = true ∧
    (let s := { ready with mb := 2, a := 0xBFFE, cfg := vectorConfig }
     isOdd 0xBFFE = false ∧ inWindow 0xBFFE = true ∧ inWindow 0x8000 = true ∧ s.cfg.nbanks ≤ s.mb.toNat ∧
      getReg s 2 .a = 0xBFFE) ∧
    (let s := { ready with a := 0xC200, cfg := vectorConfig }
     isOdd 0xC200 = false ∧ peek s 0xC200 = none ∧ inRom 0xC200 = false ∧ inWindow 0xC200 = false ∧
      s.cfg.unwritten = .refuse ∧ getReg s 2 .a = 0xC200) ∧
    (let s := { ready with a := 0xFFFE }
     isOdd 0xFFFE = false ∧ peek s 0xFFFE = none ∧ inRom 0xFFFE = false ∧ inWindow 0xFFFE = false ∧
      s.cfg.unwritten = .anyValue ∧ getReg s 2 .a = 0xFFFE) ∧
    (let s := { ready with a := 0x7FFE }
     isOdd 0x7FFE = false ∧ peek s 0x7FFE = none ∧ inRom 0x7FFE = true ∧ getReg s 2 .a = 0x7FFE) := by decide

theorem witness_LoadCompletes :
    Reg.implemented .a = true ∧ Reg.implemented .b = true ∧ wordReadable ready (getReg ready 2 .b) 0xC100 ∧
      wordReadable ready 0xC000 0xC000 :=
  ⟨rfl, rfl, ready_wordReadable (by decide) (by decide) (by decide) (by decide) (by decide),
    ready_wordReadable (by decide) (by decide) (by decide) (by decide) (by decide)⟩

theorem witness_StoreCompletes :
    Reg.implemented .b = true ∧ Reg.implemented .a = true ∧ inRom (getReg ready 2 .b) = false ∧
      wordWritable ready (getReg ready 2 .b) 0xC100 ∧ inRom 0xFFFE = false ∧ wordWritable ready 0xFFFE 0xFFFE :=
  ⟨rfl, rfl, by decide, ready_wordWritable (by decide) (by decide) (by decide), by decide,
    ready_wordWritable (by decide) (by decide) (by decide)⟩

theorem witness_WritesToRomAreIgnored :
    Reg.implemented .a = true ∧ inRom (getReg ready 2 .a) = true ∧ inRom 0x7FFF = true ∧
      inRom (ready.withSp 0x7FFE).sp = true := by decide

theorem witness_MoveCompletes : Reg.implemented .f = true ∧ Reg.implemented .pc = true := by decide

theorem witness_PushCompletes :
    inRom ready.sp = false ∧ pushable ready ready.sp 0xC100 ∧ Reg.implemented .sp = true :=
  ⟨by decide, ready_pushable (by decide) (by decide) (by decide), rfl⟩

theorem witness_PopCompletes : Reg.implemented .sp = true ∧ poppable ready (ready.sp + 2#16) 0xC102 :=
  ⟨rfl, ready_wordReadable (a := 0xC102) (by decide) (by decide) (by decide) (by decide) (by decide), rfl⟩

theorem witness_PushThenPopReturnsTheValue :
    Reg.implemented .b = true ∧ isOdd ready.sp = false ∧ inRom ready.sp = false ∧
      popWithin ready.cfg ready.sp = true ∧ (∃ t, exec (.pushR .a) ready = .next t ∧ getReg ready 2 .a = 0x1234) ∧
      ∃ t, exec (.pushI 0x1234) ready = .next t :=
  ⟨rfl, by decide, by decide, rfl, ⟨_, rfl, rfl⟩, _, rfl⟩

/-- `ready`, whose SP is 0xC100, with a STACK_AREA. -/
def stacked (lo hi : Word) : State :=
  { ready with cfg := { defaultConfig with stackArea := some { lo := lo, hi := hi } } }

theorem witness_StackAreaStops :
    (Reg.implemented .a = true ∧ (3#16 : Word).toNat ≤ 127) ∧
    (let s := stacked 0xC102 0xC1FF
     isOdd s.sp = false ∧ s.cfg.stackArea = some { lo := 0xC102, hi := 0xC1FF } ∧ inRom s.sp = false ∧
      s.sp.toNat < (0xC102#16 : Word).toNat ∧ s.flag .i = true) ∧
    (let s := stacked 0xC100 0xC1FF
     pushable s s.sp s.sp ∧ inRom (s.sp - 2#16) = false ∧ (s.sp - 2#16).toNat < (0xC100#16 : Word).toNat) ∧
    (let s := stacked 0xC000 0xC102
     (0xC102#16 : Word).toNat < (s.sp + 3#16).toNat ∧ s.flag .i = true) ∧
    (let s := stacked 0xC000 0xC104
     poppable s (s.sp + 2#16) (s.sp + 2#16) ∧ (0xC104#16 : Word).toNat < (s.sp + 5#16).toNat ∧
      s.flag .i = true) :=
  ⟨by decide, by decide, ⟨.inr ⟨⟨rfl, .inr ⟨_, rfl⟩, .inr ⟨_, rfl⟩⟩, by decide⟩, by decide, by decide⟩, by decide,
    ⟨⟨rfl, ⟨⟨_, rfl⟩, .inl (by decide)⟩, ⟨⟨_, rfl⟩, .inl (by decide)⟩⟩, by decide⟩, by decide, by decide⟩

theorem witness_AddSubIncDecComplete : Reg.implemented .a = true ∧ Reg.implemented .f = true := by decide

theorem witness_AdcSbcComplete : Reg.implemented .a = true ∧ Reg.implemented .a = true := by decide

theorem witness_ShiftsComplete : Reg.implemented .sp = true ∧ Reg.implemented .z = true := by decide

theorem witness_BitwiseOperationsComplete : Reg.implemented .f = true ∧ Reg.implemented .z = true := by decide

theorem witness_CmpCompletes : Reg.implemented .a = true ∧ Reg.implemented .z = true := by decide

theorem witness_JumpsComplete : Reg.implemented .pc = true ∧ Reg.implemented .z = true := by decide

theorem witness_AddThenAdcAddsThirtyTwoBits :
    ready.cfg.flagPos.distinct = true ∧
      ∃ t u, exec (.addR .a .c) ready = .next t ∧ exec (.adcR .b .d) t = .next u := ⟨by decide, _, _, rfl, rfl⟩

theorem witness_InbCompletes :
    Reg.implemented .a = true ∧ Reg.implemented .d = true ∧ (getReg ready 2 .d).toNat ≤ 255 ∧
      (0x00FF#16 : Word).toNat ≤ 255 := by decide

theorem witness_OutbCompletes :
    Reg.implemented .d = true ∧ Reg.implemented .a = true ∧ (getReg ready 2 .d).toNat ≤ 255 ∧
      (0x00FF#16 : Word).toNat ≤ 255 := by decide

theorem witness_NumbersOutOfRangeStop :
    Reg.implemented .a = true ∧ 255 < (getReg ready 2 .a).toNat ∧ 255 < (0x0100#16 : Word).toNat ∧
      ready.flag .i = true ∧ 127 < (0x0080#16 : Word).toNat := by decide

theorem witness_CallCompletes :
    Reg.implemented .a = true ∧ pushable ready ready.sp 0xC100 ∧ pushable (ready.withSp 0) 0 0 :=
  ⟨rfl, ready_pushable (by decide) (by decide) (by decide), .inl (by decide)⟩

theorem witness_RetCompletes : poppable ready (ready.sp + 2#16) 0xC102 :=
  ⟨ready_wordReadable (a := 0xC102) (by decide) (by decide) (by decide) (by decide) (by decide), rfl⟩

theorem witness_RetReturnsAfterTheCall :
    isOdd ready.sp = false ∧ inRom ready.sp = false ∧ popWithin ready.cfg ready.sp = true ∧
      (∃ t, exec (.callI 0x0200) ready = .next t ∧ ∃ u : State, u.sp = t.sp ∧ u.mb = t.mb ∧ u.mem = t.mem ∧
        u.cfg = t.cfg ∧ u.a = 7) ∧
      ∃ t, exec (.callR .a) ready = .next t ∧ ∃ u : State, u.sp = t.sp ∧ u.mb = t.mb ∧ u.mem = t.mem ∧
        u.cfg = t.cfg ∧ u.a = 7 :=
  ⟨by decide, by decide, rfl,
    ⟨_, rfl, { ready with a := 7, sp := _, mem := _ }, rfl, rfl, rfl, rfl, rfl⟩,
    _, rfl, { ready with a := 7, sp := _, mem := _ }, rfl, rfl, rfl, rfl, rfl⟩

theorem witness_IntTakesTheInterrupt :
    ready.flag .i = true ∧ (3#16 : Word).toNat ≤ 127 ∧ pushable ready ready.sp 0xC100 ∧
      pushable ready (ready.sp - 2#16) 0xC0FE ∧ wordReadable ready (vectorLowAddr ready.cfg 3) 0xFFF8 :=
  ⟨by decide, by decide, ready_pushable (by decide) (by decide) (by decide),
    ready_pushable (a := 0xC0FE) (by decide) (by decide) (by decide),
    ready_wordReadable (a := 0xFFF8) (by decide) (by decide) (by decide) (by decide) (by decide)⟩

theorem witness_OneInterruptEnableBit :
    (ready.withF 0).flag .i = false ∧ ready.flag .i = true ∧ (∃ t, exec (.intI 3) ready = .next t) ∧
      (∃ t, exec (.moveI .f 0x0800) ready = .next t) ∧ (∃ t, exec (.moveR .f .a) ready = .next t) ∧
      ready.cfg.flagPos.distinct = true ∧ (∃ t, exec (.orI .f 0x0800) ready = .next t) ∧
      (∃ t, exec (.orR .f .a) ready = .next t) ∧ (∃ t, exec (.popR .f) ready = .next t) ∧
      ∃ t, exec .iret ready = .next t :=
  ⟨by decide, by decide, ⟨_, rfl⟩, ⟨_, rfl⟩, ⟨_, rfl⟩, by decide, ⟨_, rfl⟩, ⟨_, rfl⟩, ⟨_, rfl⟩, _, rfl⟩

theorem witness_InterruptTableEntries :
    defaultConfig.vectorLow = .lastByte ∧ (0#16 : Word).toNat ≤ 127 ∧ (127#16 : Word).toNat ≤ 127 := by decide

theorem witness_IretCompletes :
    ready.flag .i = true ∧ poppable ready (ready.sp + 2#16) 0xC102 ∧ poppable ready (ready.sp + 4#16) 0xC104 ∧
      (ready.withF 0).flag .i = false ∧ (ready.withF 0).cfg.iretMasked = .nop :=
  ⟨by decide,
    ⟨ready_wordReadable (a := 0xC102) (by decide) (by decide) (by decide) (by decide) (by decide), rfl⟩,
    ⟨ready_wordReadable (a := 0xC104) (by decide) (by decide) (by decide) (by decide) (by decide), rfl⟩,
    by decide, rfl⟩

theorem witness_IretUndoesInt :
    ready.flag .i = true ∧ isOdd ready.sp = false ∧ inRom ready.sp = false ∧ inRom (ready.sp - 2#16) = false ∧
      popWithin ready.cfg ready.sp = true ∧ popWithin ready.cfg (ready.sp - 2#16) = true ∧
      ∃ t, exec (.intI 3) ready = .next t ∧ ∃ u : State, u.sp = t.sp ∧ u.mb = t.mb ∧ u.mem = t.mem ∧
        u.cfg = t.cfg ∧ u.flag .i = true ∧ u.a = 7 :=
  ⟨by decide, by decide, by decide, by decide, rfl, rfl, _, rfl, { ready with a := 7, sp := _, mem := _ },
    rfl, rfl, rfl, rfl, by decide, rfl⟩

theorem witness_NopCompletes : ready.pc = 0x0100#16 := rfl

end Sys2Proof.Tests
end

/-! SUPPORT. Proofs of the statements of spec/20_memory.md about ROM and about words at even addresses (R42, R48,
R50). First the parity of addresses and what ROM reads as, then what instructions, a step, a reset and a load leave in
memory, then the two statements. -/

namespace Sys2Proof.Machine

/-! ## Even addresses and regions -/

/-- An address is in ROM exactly up to 0x7FFF (R42). -/
theorem inRom_iff (a : Word) : inRom a = true ↔ a.toNat ≤ 0x7FFF := by
  rw [inRom, decide_eq_true_eq]
  omega

/-- `isOdd` is the parity of the address (R52). -/
theorem isOdd_eq_false_iff (a : Word) : isOdd a = false ↔ a.toNat % 2 = 0 := by
  rw [isOdd, BitVec.getLsbD, Nat.testBit_zero, decide_eq_false_iff_not]
  omega

/-- The byte above an even address has the next number: no even address is the last one. -/
theorem toNat_succ_of_even {a : Word} (ha : isOdd a = false) : (a + 1#16).toNat = a.toNat + 1 := by
  rw [isOdd_eq_false_iff] at ha
  bv_omega

/-- The two bytes of a word at an even address are both in ROM or both outside it (R42, R52). -/
theorem inRom_succ_of_even {a : Word} (ha : isOdd a = false) : inRom (a + 1#16) = inRom a := by
  have hs := toNat_succ_of_even ha
  rw [isOdd_eq_false_iff] at ha
  rw [inRom, inRom, hs, decide_eq_decide]
  omega

/-- The two bytes of a word at an even address are both in the window or both outside it (R43, R52). -/
theorem inWindow_succ_of_even {a : Word} (ha : isOdd a = false) : inWindow (a + 1#16) = inWindow a := by
  have hs := toNat_succ_of_even ha
  rw [isOdd_eq_false_iff] at ha
  rw [inWindow, inWindow, hs, ← Bool.decide_and, ← Bool.decide_and, decide_eq_decide]
  omega

/-- Two above an even address is even. -/
theorem isOdd_add_two_of_even {a : Word} (ha : isOdd a = false) : isOdd (a + 2#16) = false := by
  rw [isOdd_eq_false_iff] at ha ⊢
  bv_omega

/-- A 16-bit access at an even address starts there, whatever MISALIGNED is (R48, R50). -/
theorem wordBase_of_even (cfg : Config) {a : Word} (ha : isOdd a = false) : wordBase cfg a = .ok a := by
  simp [wordBase, ha]

/-! ## Words as two bytes -/

/-- A word read at an even address is the two byte reads, the lower address in bits 7:0 (R48). -/
theorem readWord_of_readBytes {s s₁ s₂ : State} {a : Word} {lo hi : Byte} (ha : isOdd a = false)
    (hlo : readByte s a = .ok (lo, s₁)) (hhi : readByte s₁ (a + 1#16) = .ok (hi, s₂)) :
    readWord s a = .ok (hi ++ lo, s₂) := by
  simp only [readWord, wordBase_of_even s.cfg ha, ok_bind, hlo, hhi, pure_eq_ok, wordOf]

/-- A word write at an even address is the two byte writes (R50). -/
theorem writeWord_of_writeBytes {s s₁ s₂ : State} {a v : Word} (ha : isOdd a = false)
    (hlo : writeByte s a (lowByte v) = .ok s₁) (hhi : writeByte s₁ (a + 1#16) (highByte v) = .ok s₂) :
    writeWord s a v = .ok s₂ := by
  simp only [writeWord, wordBase_of_even s.cfg ha, ok_bind, hlo, hhi]

/-- A byte written to ROM is dropped (R51). -/
theorem writeByte_rom (s : State) {a : Word} (v : Byte) (hr : inRom a = true) : writeByte s a v = .ok s := by
  simp [writeByte, hr]

/-- A word written at an even address of ROM is dropped whole (R50, R51). -/
theorem writeWord_rom (s : State) {a : Word} (v : Word) (ha : isOdd a = false) (hr : inRom a = true) :
    writeWord s a v = .ok s :=
  writeWord_of_writeBytes ha (writeByte_rom s _ hr) (writeByte_rom s _ ((inRom_succ_of_even ha).trans hr))

/-! ## What ROM reads as -/

/-- A ROM byte with a value is what an access finds, whatever MB and ROM_FILL are (R42, R47). -/
theorem peek_rom {s : State} {a : Word} {v : Byte} (hr : inRom a = true) (hv : s.mem.read a.toNat = some v) :
    peek s a = some v := by
  simp [peek, storageKey_rom s.cfg s.mb hr, hv]

/-- Reading a ROM byte returns it and changes nothing (R47). -/
theorem readByte_rom {s : State} {a : Word} {v : Byte} (hr : inRom a = true) (hv : s.mem.read a.toNat = some v) :
    readByte s a = .ok (v, s) := readByte_defined (peek_rom hr hv)

/-- Fetch of a 2-byte instruction whose bytes read as they are (R75). -/
theorem fetch_two {s : State} {i0 i1 : Byte} (hodd : isOdd s.pc = false) (h0 : readByte s s.pc = .ok (i0, s))
    (h1 : readByte s (s.pc + 1#16) = .ok (i1, s)) (hi : hasImm i0 = false) : fetch s = .ok ([i0, i1], s) := by
  simp [fetch, hodd, h0, h1, hi]

/-- Fetch of a 4-byte instruction whose bytes read as they are (R75). -/
theorem fetch_four {s : State} {i0 i1 i2 i3 : Byte} (hodd : isOdd s.pc = false)
    (h0 : readByte s s.pc = .ok (i0, s)) (h1 : readByte s (s.pc + 1#16) = .ok (i1, s)) (hi : hasImm i0 = true)
    (h2 : readByte s (s.pc + 2#16) = .ok (i2, s)) (h3 : readByte s (s.pc + 3#16) = .ok (i3, s)) :
    fetch s = .ok ([i0, i1, i2, i3], s) := by
  simp [fetch, hodd, h0, h1, hi, h2, h3]

/-- The last byte of a 4-byte instruction at an even `pc` is in ROM if the one before it is. -/
theorem inRom_add_three_of_even {a : Word} (ha : isOdd a = false) (hr : inRom (a + 2#16) = true) :
    inRom (a + 3#16) = true := by
  have h := inRom_succ_of_even (isOdd_add_two_of_even ha)
  rwa [BitVec.add_assoc, hr] at h

/-- Fetching an instruction that lies in ROM at an even `pc` returns its bytes (R42, R75). -/
theorem fetch_rom {s : State} {i0 i1 i2 i3 : Byte} (hodd : isOdd s.pc = false) (hr : inRom s.pc = true)
    (h0 : s.mem.read s.pc.toNat = some i0) (h1 : s.mem.read (s.pc + 1#16).toNat = some i1) :
    (hasImm i0 = false → fetch s = .ok ([i0, i1], s)) ∧
    (hasImm i0 = true → inRom (s.pc + 2#16) = true → s.mem.read (s.pc + 2#16).toNat = some i2 →
      s.mem.read (s.pc + 3#16).toNat = some i3 → fetch s = .ok ([i0, i1, i2, i3], s)) := by
  have r0 := readByte_rom hr h0
  have r1 := readByte_rom ((inRom_succ_of_even hodd).trans hr) h1
  refine ⟨fetch_two hodd r0 r1, fun hi hr2 h2 h3 => ?_⟩
  exact fetch_four hodd r0 r1 hi (readByte_rom hr2 h2) (readByte_rom (inRom_add_three_of_even hodd hr2) h3)

/-! ## What each family of instructions leaves in memory

All of it, but for STORE, PUSH, CALL and INT, which keep what `keepsCells` says (ROM among it). -/

theorem loadFrom_mem {len : Nat} {rC : Reg} {o : Operand} {s t : State} (h : loadFrom len rC o s = .next t) :
    t.mem = s.mem := by
  obtain ⟨base, v, n, -, -, -, -, rfl⟩ := loadFrom_next h
  simp

theorem moveTo_mem {len : Nat} {rC : Reg} {o : Operand} {s t : State} (h : moveTo len rC o s = .next t) :
    t.mem = s.mem := by
  obtain ⟨-, -, rfl⟩ := moveTo_next h
  simp

theorem popTo_mem {len : Nat} {rC : Reg} {s t : State} (h : popTo len rC s = .next t) : t.mem = s.mem := by
  obtain ⟨base, v, n, -, -, -, rfl⟩ := popTo_next h
  simp

theorem arith_mem {op : Word → Word → Bool → Alu} {len : Nat} {rC : Reg} {o : Operand} {s t : State}
    (h : arith op len rC o s = .next t) : t.mem = s.mem := by
  obtain ⟨-, -, res, -, rfl⟩ := arith_next h
  simp

theorem shift_mem {result : Word → Word → Word} {carry : Word → Word → Bool} {len : Nat} {rC : Reg} {o : Operand}
    {s t : State} (h : shift result carry len rC o s = .next t) : t.mem = s.mem := by
  obtain ⟨-, -, r, -, rfl⟩ := shift_next h
  simp

theorem logic_mem {op : Word → Word → Word} {len : Nat} {rC : Reg} {o : Operand} {s t : State}
    (h : logic op len rC o s = .next t) : t.mem = s.mem := by
  obtain ⟨-, -, r, -, rfl⟩ := logic_next h
  simp

theorem inFrom_mem {len : Nat} {rC : Reg} {o : Operand} {s t : State} (h : inFrom len rC o s = .next t) :
    t.mem = s.mem := by
  obtain ⟨-, -, -, v, left, -, rfl⟩ := inFrom_next h
  simp

theorem outTo_mem {len : Nat} {o : Operand} {data : Reg} {s t : State} (h : outTo len o data s = .next t) :
    t.mem = s.mem := by
  obtain ⟨-, -, -, rfl⟩ := outTo_next h
  simp

theorem compareTo_mem {len : Nat} {rC : Reg} {o : Operand} {s t : State} (h : compareTo len rC o s = .next t) :
    t.mem = s.mem := by
  obtain ⟨-, -, res, -, rfl⟩ := compareTo_next h
  simp

theorem jumpIf_mem {cond : Bool} {len : Nat} {o : Operand} {s t : State} (h : jumpIf cond len o s = .next t) :
    t.mem = s.mem := by
  obtain ⟨-, rfl⟩ := jumpIf_next h
  simp

theorem execRet_mem {s t : State} (h : execRet s = .next t) : t.mem = s.mem := by
  obtain ⟨base, v, n, -, -, rfl⟩ := execRet_next h
  simp

theorem execIret_mem {s t : State} (h : execIret s = .next t) : t.mem = s.mem := by
  obtain ⟨-, -, rfl⟩ | ⟨-, hret⟩ := execIret_next h
  · simp
  · obtain ⟨base₁, base₂, flags, target, d, -, -, -, -, rfl⟩ := returnFromInterrupt_ok hret
    simp

theorem storeTo_keepsCells {len : Nat} {o : Operand} {data : Reg} {s t : State}
    (h : storeTo len o data s = .next t) : keepsCells s t.mem := by
  obtain ⟨-, -, m, rfl, hk, -⟩ := storeTo_next h
  exact hk

theorem pushOperand_keepsCells {len : Nat} {o : Operand} {s t : State} (h : pushOperand len o s = .next t) :
    keepsCells s t.mem := by
  obtain ⟨-, ⟨-, rfl⟩ | ⟨-, base, m, -, hk, -, rfl⟩⟩ := pushOperand_next h
  · exact keepsCells_refl s
  · exact hk

theorem callTo_keepsCells {len : Nat} {o : Operand} {s t : State} (h : callTo len o s = .next t) :
    keepsCells s t.mem := by
  obtain ⟨-, base, m, -, hk, -, rfl⟩ := callTo_next h
  exact hk

theorem execIntI_keepsCells {n : Word} {s t : State} (h : execIntI n s = .next t) : keepsCells s t.mem := by
  obtain ⟨-, rfl⟩ | ⟨-, hint⟩ := execIntI_next h
  · exact keepsCells_refl s
  · obtain ⟨-, base₁, base₂, vbase, m₁, m₂, d, handler, -, -, -, -, hk, -, -, rfl⟩ := takeInterrupt_ok hint
    exact hk

/-! ## Instructions, steps, resets and images -/

/-- An instruction that stores nowhere leaves the memory as it is. -/
theorem exec_mem_of_storeAddresses_nil {i : Instr} {s t : State} (h : exec i s = .next t)
    (hs : storeAddresses s i = []) : t.mem = s.mem := by
  cases i with
  | loadR _ _ | loadI _ _ => exact loadFrom_mem h
  | storeR _ _ | storeI _ _ | pushR _ | pushI _ | callR _ | callI _ => exact absurd hs (List.cons_ne_nil _ _)
  | moveR _ _ | moveI _ _ => exact moveTo_mem h
  | popR _ => exact popTo_mem h
  | addR _ _ | addI _ _ | adcR _ _ | adcI _ _ | subR _ _ | subI _ _ | sbcR _ _ | sbcI _ _ | incR _ | decR _ =>
    exact arith_mem h
  | shlR _ _ | shlI _ _ | shrR _ _ | shrI _ _ => exact shift_mem h
  | andR _ _ | andI _ _ | orR _ _ | orI _ _ | norR _ _ | norI _ _ | notR _ | xorR _ _ | xorI _ _ =>
    exact logic_mem h
  | inbR _ _ | inbI _ _ => exact inFrom_mem h
  | outbR _ _ | outbI _ _ => exact outTo_mem h
  | cmpR _ _ | cmpI _ _ => exact compareTo_mem h
  | jmpR _ | jzR _ | jnzR _ | jcR _ | jncR _ => exact jumpIf_mem h
  | jmpI imm | jzI imm | jnzI imm | jcI imm | jncI imm => exact jumpIf_mem (o := .imm imm) h
  | ret => exact execRet_mem h
  | intI _ =>
    obtain ⟨-, rfl⟩ | ⟨hi, -⟩ := execIntI_next h
    · rfl
    · simp [storeAddresses, hi] at hs
  | iret => exact execIret_mem h
  | halt | nop => cases h; rfl

/-- Every instruction keeps the canonical form, the locations, the values of ROM and the defined bytes. -/
theorem exec_keepsCells {i : Instr} {s t : State} (h : exec i s = .next t) : keepsCells s t.mem := by
  cases i with
  | storeR _ _ | storeI _ _ => exact storeTo_keepsCells h
  | pushR _ | pushI _ => exact pushOperand_keepsCells h
  | callR _ | callI _ => exact callTo_keepsCells h
  | intI _ => exact execIntI_keepsCells h
  | _ => exact exec_mem_of_storeAddresses_nil h rfl ▸ keepsCells_refl s

/-- So does every step, since fetching changes no memory. -/
theorem step_keepsCells {s t : State} (h : step s = .next t) : keepsCells s t.mem := by
  obtain ⟨-, rfl⟩ | ⟨-, bytes, n, i, rest, -, -, hexec⟩ := step_next h
  · exact keepsCells_refl _
  · have hk : keepsCells (s.withDraws n) t.mem := exec_keepsCells hexec
    exact hk

/-- The location of a ROM address is a ROM location. -/
theorem isRomKey_toNat (a : Word) : isRomKey a.toNat = inRom a := rfl

/-- What is left of a memory when only some locations are kept. -/
theorem Memory.read_filter (m : Memory) (p : Nat → Bool) (key : Nat) :
    Memory.read (m.filter fun cell => p cell.1) key = if p key then m.read key else none := by
  induction m with
  | nil => simp
  | cons cell rest ih =>
    obtain ⟨k, b⟩ := cell
    by_cases hk : key = k
    · subst hk
      cases hp : p key <;> simp [Memory.read, hp, ih]
    · cases hp : p k <;> simp [Memory.read, hp, hk, ih]

/-- A reset keeps every ROM location and no other (R180). -/
theorem resetMachine_read (s : State) (key : Nat) :
    (resetMachine s).mem.read key = if isRomKey key then s.mem.read key else none :=
  Memory.read_filter s.mem isRomKey key

/-- The cells of an image loaded from location `start` on (R88). -/
theorem read_imageCells (image : List Byte) (start key : Nat) :
    Memory.read (imageCells start image) key =
      if start ≤ key ∧ key < 0x8000 then image[key - start]? else none := by
  induction image generalizing start with
  | nil => simp [imageCells]
  | cons v rest ih =>
    by_cases hstart : start < 0x8000
    · rw [imageCells, if_pos hstart, Memory.read, ih]
      by_cases hk : key = start
      · simp [hk, hstart]
      · rw [if_neg hk]
        by_cases hle : start + 1 ≤ key
        · have hsub : key - start = key - (start + 1) + 1 := by omega
          simp [hsub, hle, Nat.le_of_succ_le hle]
        · rw [if_neg (by omega), if_neg (by omega)]
    · rw [imageCells, if_neg hstart, Memory.read_nil, if_neg (by omega)]

/-- Byte `key` of a loaded image is the byte at location `key` of ROM (R88, decision D30). -/
theorem loadImage_read (s : State) (image : List Byte) (key : Nat) :
    (loadImage s image).mem.read key = if key < 0x8000 then image[key]? else none := by
  simpa [loadImage] using read_imageCells image 0 key

/-! ## The statements -/

/-- Settles O29: a word at an even address is two byte accesses in one region (R48, R50). -/
theorem evenWordIsTwoBytes : Obligations.EvenWordIsTwoBytes := by
  intro s a v ha
  refine ⟨?_, ?_, inRom_succ_of_even ha, inWindow_succ_of_even ha, writeWord_rom s v ha⟩
  · intro lo hi s₁ s₂ hlo hhi
    exact readWord_of_readBytes ha hlo hhi
  · intro s₁ s₂ hlo hhi
    exact writeWord_of_writeBytes ha hlo hhi

/-- Settles O14: reads and fetches of ROM return its contents, no step and no reset changes it, and it is the image. A
step changes no ROM location because no instruction does (`exec_keepsCells`). -/
theorem hardwareNeverChangesRom : Obligations.HardwareNeverChangesRom := by
  refine ⟨inRom_iff, fun _ _ _ => readByte_rom, ?word, fun _ _ _ _ _ => fetch_rom, ?step, ?reset, ?image⟩
  case word =>
    intro s a lo hi ha hr hlo hhi
    exact readWord_of_readBytes ha (readByte_rom hr hlo) (readByte_rom ((inRom_succ_of_even ha).trans hr) hhi)
  case step =>
    intro s t a h hr
    obtain ⟨-, -, hrom, -⟩ := step_keepsCells h
    exact hrom a.toNat hr
  case reset =>
    intro s a hr
    rw [resetMachine_read, isRomKey_toNat, if_pos hr]
  case image =>
    intro image a hr
    rw [loadImage_read, if_pos (of_decide_eq_true hr)]

end Sys2Proof.Machine

/-! SUPPORT. Proof of the statement of spec/45_system.md about NOP (R153): its row in the table of forms, its bytes, its
effect. -/

namespace Sys2Proof.Machine

/-- Opcode 31 in format 0 is NOP under both indirect formats (R78, R153). -/
theorem lookupForm_nop (ind : IndirectFormat) : lookupForm ind 31 0 = some (.noOperand .nop) := by
  cases ind <;> rfl

/-- The first byte of NOP is 0xF8 (R77, R153). -/
theorem firstByte_nop : firstByte 31 0 = 0xF8 := by decide

/-- NOP decodes whatever its second byte is: its shape uses no register field (R82, decision D8). -/
theorem decode_nop (cfg : Config) (i1 : Byte) (rest : List Byte) :
    decode cfg (0xF8 :: i1 :: rest) = .ok (.nop, rest) := by
  rw [← firstByte_nop, decode_firstByte (by decide) (by decide) (lookupForm_nop cfg.indirectFmt)]
  rfl

/-- NOP is written with the ignored bits 0 (R82). -/
theorem encode_nop (cfg : Config) : encode cfg .nop = [0xF8, 0x00] := by
  rw [encode, encodeNone, firstByte_nop]
  rfl

/-- NOP only advances `pc` (R153). -/
theorem exec_nop (s : State) : exec .nop s = .next (s.withPc (s.pc + 2#16)) := rfl

/-- Settles O60: bytes, length and effect of NOP (R153). -/
theorem nopCompletes : Obligations.NopCompletes := by
  refine ⟨fun cfg i1 => decode_nop cfg i1 [], rfl, encode_nop, exec_nop, ?pcAt0100⟩
  case pcAt0100 =>
    intro s hpc
    have hnext : s.pc + 2#16 = 0x0102#16 := by rw [hpc]; rfl
    rw [exec_nop, hnext]

end Sys2Proof.Machine

/-! SUPPORT. Proof of the statement of spec/60_exceptions.md about the interrupt enable bit (R163). First which bits of
F an update of the state decides, then what each kind of instruction with F as destination, and the two interrupt
operations, leave in F; the statement puts them together. -/

namespace Sys2Proof.Machine

/-! ## Flags after an update of the state -/

/-- The flags are bits of F: going on to another address changes none. -/
@[simp] theorem State.flag_withPc (s : State) (v : Word) (fl : Flag) : (s.withPc v).flag fl = s.flag fl := rfl

/-- Drawing a free value changes no flag. -/
@[simp] theorem State.flag_withDraws (s : State) (n : Nat) (fl : Flag) : (s.withDraws n).flag fl = s.flag fl := rfl

/-- After a word is written to F as a register, a flag is that word's bit at the flag's position (R18). -/
@[simp] theorem flag_putReg_f (s : State) (v : Word) (fl : Flag) :
    (putReg s .f v).flag fl = v.getLsbD (s.cfg.flagPos.pos fl).val := rfl

/-- Right after reset every flag is 0 (R27). -/
theorem State.flag_reset (fl : Flag) : State.reset.flag fl = false := BitVec.getLsbD_zero

/-! ## Instructions with F as destination -/

/-- MOVE to F puts the whole operand there. -/
theorem moveTo_f {len : Nat} {o : Operand} {s t : State} (h : moveTo len .f o s = .next t) :
    t.f = operandValue s len o := by
  obtain ⟨-, -, rfl⟩ := moveTo_next h
  rfl

/-- A bitwise operation on F decides every flag but Z by its result: only Z is written on top (decision D18). -/
theorem logic_f_flag {op : Word → Word → Word} {len : Nat} {o : Operand} {s t : State} {fl : Flag}
    (hpos : s.cfg.flagPos.distinct = true) (hfl : fl ≠ .z) (h : logic op len .f o s = .next t) :
    t.flag fl = (op s.f (operandValue s len o)).getLsbD (s.cfg.flagPos.pos fl).val := by
  obtain ⟨-, -, r, rfl, rfl⟩ := logic_next h
  rw [State.flag_withPc, State.flag_setFlag_other, flag_putReg_f]
  · rfl
  · exact FlagPos_pos_ne hpos hfl

/-- POP to F puts the word at SP + 2 there (decision D11). -/
theorem popTo_f {len : Nat} {s t : State} (h : popTo len .f s = .next t) :
    ∃ base, wordBase s.cfg (s.sp + 2#16) = .ok base ∧ agrees s base t.f := by
  obtain ⟨base, v, n, -, ⟨⟨hbase, -, -⟩, -⟩, hv, rfl⟩ := popTo_next h
  exact ⟨base, hbase, hv⟩

/-! ## Interrupt entry and return -/

/-- Entry leaves `F.I` clear and SP 4 lower (R165, decision D11). -/
theorem takeInterrupt_masks {s t : State} {n ret : Word} (h : takeInterrupt s n ret = .ok t) :
    t.flag .i = false ∧ t.sp = s.sp - 4#16 := by
  obtain ⟨-, base₁, base₂, vbase, m₁, m₂, d, handler, -, -, -, -, -, -, -, rfl⟩ := takeInterrupt_ok h
  simp

/-- Return puts the word at SP + 2, the saved F, into F (R167, decision D12). -/
theorem returnFromInterrupt_f {s t : State} (h : returnFromInterrupt s = .ok t) :
    ∃ base, wordBase s.cfg (s.sp + 2#16) = .ok base ∧ agrees s base t.f := by
  obtain ⟨base, base₂, flags, target, d, ⟨⟨hbase, -, -⟩, -⟩, -, hflags, -, rfl⟩ := returnFromInterrupt_ok h
  exact ⟨base, hbase, hflags⟩

/-- INT while masked only advances `pc`, whatever its number (R150, R163). -/
theorem execIntI_masked {s : State} (n : Word) (hi : s.flag .i = false) :
    execIntI n s = .next (s.withPc (nextPc s 4)) := by
  simp [execIntI, hi]

/-- INT while enabled, if it goes on, has taken the interrupt (R150, decision D14). -/
theorem takeInterrupt_of_execIntI {s t : State} {n : Word} (hi : s.flag .i = true) (h : execIntI n s = .next t) :
    takeInterrupt s n (nextPc s 4) = .ok t := by
  obtain ⟨hmasked, -⟩ | ⟨-, htaken⟩ := execIntI_next h
  · cases hmasked.symm.trans hi
  · exact htaken

/-- IRET while enabled, if it goes on, has returned (R151). -/
theorem returnFromInterrupt_of_execIret {s t : State} (hi : s.flag .i = true) (h : execIret s = .next t) :
    returnFromInterrupt s = .ok t := by
  obtain ⟨hmasked, -⟩ | ⟨-, hret⟩ := execIret_next h
  · cases hmasked.symm.trans hi
  · exact hret

/-! ## The statement -/

/-- Settles O54: `F.I` alone masks and enables every INT; entry clears it, MOVE, OR and POP to F and IRET set it
(R163). -/
theorem oneInterruptEnableBit : Obligations.OneInterruptEnableBit := by
  refine ⟨fun _ n hi => execIntI_masked n hi, ?taken, State.flag_reset .i,
    fun _ _ imm h => moveTo_f (o := .imm imm) h, fun _ _ rD h => moveTo_f (o := .reg rD) h, ?orImm, ?orReg,
    fun _ _ h => popTo_f h, ?iret⟩
  case taken =>
    intro s t n hi h
    have htaken := takeInterrupt_of_execIntI hi h
    obtain ⟨hclear, hsp⟩ := takeInterrupt_masks htaken
    exact ⟨hclear, hsp, htaken⟩
  case orImm =>
    intro s t imm hpos h
    exact logic_f_flag (o := .imm imm) (fl := .i) hpos (by decide) h
  case orReg =>
    intro s t rD hpos h
    exact logic_f_flag (o := .reg rD) (fl := .i) hpos (by decide) h
  case iret =>
    intro s t hi h
    exact returnFromInterrupt_f (returnFromInterrupt_of_execIret hi h)

end Sys2Proof.Machine

/-! SUPPORT. Proofs of the statements of spec/30_encoding.md: decode and encode agree, reserved encodings are rejected,
undefined bits are ignored (R71 to R83). A decoding is a lookup in the table of forms and then the fields of the form's
shape, so each proof splits over the five shapes; the rows of the table are visited in `assignedForms_layout` and, from
the instruction's side, in the statement about encodings. -/

namespace Sys2Proof

open Machine

/-! ## From an instruction to its bytes and back -/

/-- Format 0 reads back. -/
theorem decode_encodeNone {cfg : Config} {opcode : Nat} {i : Instr} (ho : opcode < 32)
    (hs : lookupForm cfg.indirectFmt opcode 0 = some (.noOperand i)) (rest : List Byte) :
    decode cfg (encodeNone opcode ++ rest) = .ok (i, rest) :=
  decode_firstByte ho (by decide) hs 0#8 rest

/-- Format 1 reads back. -/
theorem decode_encodeR {cfg : Config} {opcode : Nat} {mk : Reg → Instr} {rC : Reg} (hc : cfg.wf = true)
    (ho : opcode < 32) (hs : lookupForm cfg.indirectFmt opcode 1 = some (.reg mk)) (hC : rC.implemented = true)
    (rest : List Byte) : decode cfg (encodeR cfg opcode rC ++ rest) = .ok (mk rC, rest) := by
  obtain ⟨hltC, -⟩ := encodeReg_spec hc rC
  refine (decode_firstByte ho (by decide) hs _ rest).trans ?_
  simp only [decodeShape, fieldC_secondByte hltC (Nat.zero_lt_succ 15), decodeReg_encodeReg hc hC]

/-- Format 2 reads back: the immediate is its two bytes (R73). -/
theorem decode_encodeI {cfg : Config} {opcode : Nat} {mk : Word → Instr} (ho : opcode < 32)
    (hs : lookupForm cfg.indirectFmt opcode 2 = some (.imm mk)) (imm : Word) (rest : List Byte) :
    decode cfg (encodeI opcode imm ++ rest) = .ok (mk imm, rest) := by
  refine (decode_firstByte ho (by decide) hs 0#8 (lowByte imm :: highByte imm :: rest)).trans ?_
  simp only [decodeShape, wordOf_bytes]

/-- Formats 3 and 5 read back. -/
theorem decode_encodeRR {cfg : Config} {opcode format : Nat} {mk : Reg → Reg → Instr} {rC rD : Reg}
    (hc : cfg.wf = true) (ho : opcode < 32) (hf : format < 6)
    (hs : lookupForm cfg.indirectFmt opcode format = some (.regReg mk))
    (hr : (rC.implemented && rD.implemented) = true) (rest : List Byte) :
    decode cfg (encodeRR cfg opcode format rC rD ++ rest) = .ok (mk rC rD, rest) := by
  obtain ⟨hC, hD⟩ := (Bool.and_eq_true _ _).mp hr
  obtain ⟨hltC, -⟩ := encodeReg_spec hc rC
  obtain ⟨hltD, -⟩ := encodeReg_spec hc rD
  refine (decode_firstByte ho hf hs _ rest).trans ?_
  simp only [decodeShape, fieldC_secondByte hltC hltD, fieldD_secondByte hltC hltD, decodeReg_encodeReg hc hC,
    decodeReg_encodeReg hc hD]

/-- Format 4 reads back. -/
theorem decode_encodeRI {cfg : Config} {opcode : Nat} {mk : Reg → Word → Instr} {rC : Reg} (hc : cfg.wf = true)
    (ho : opcode < 32) (hs : lookupForm cfg.indirectFmt opcode 4 = some (.regImm mk)) (hC : rC.implemented = true)
    (imm : Word) (rest : List Byte) :
    decode cfg (encodeRI cfg opcode rC imm ++ rest) = .ok (mk rC imm, rest) := by
  obtain ⟨hltC, -⟩ := encodeReg_spec hc rC
  refine (decode_firstByte ho (by decide) hs _ (lowByte imm :: highByte imm :: rest)).trans ?_
  simp only [decodeShape, fieldC_secondByte hltC (Nat.zero_lt_succ 15), decodeReg_encodeReg hc hC, wordOf_bytes]

/-- The forms of LOAD and STORE, the only ones that depend on LOADSTORE_INDIRECT_FORMAT (R78). -/
theorem lookupForm_loadStore (ind : IndirectFormat) :
    lookupForm ind 0 (indirectFormat ind) = some (.regReg .loadR) ∧ lookupForm ind 0 4 = some (.regImm .loadI) ∧
      lookupForm ind 1 (indirectFormat ind) = some (.regReg .storeR) ∧
      lookupForm ind 1 4 = some (.regImm .storeI) := by
  cases ind <;> exact ⟨rfl, rfl, rfl, rfl⟩

/-- Formats 3 and 5 are below 6. -/
theorem indirectFormat_lt (ind : IndirectFormat) : indirectFormat ind < 6 := by cases ind <;> decide

/-- Settles O2: each instruction's form is the row of the table with its opcode and format, and each of the five shapes
reads back (R70 to R78). -/
theorem decodeReadsBackEveryEncoding : Obligations.DecodeReadsBackEveryEncoding := by
  intro cfg i rest hc hw
  obtain ⟨hloadR, hloadI, hstoreR, hstoreI⟩ := lookupForm_loadStore cfg.indirectFmt
  cases i with
  | loadR rC rD => exact decode_encodeRR hc (by decide) (indirectFormat_lt _) hloadR hw rest
  | storeR rC rD => exact decode_encodeRR hc (by decide) (indirectFormat_lt _) hstoreR hw rest
  | loadI rC imm => exact decode_encodeRI hc (by decide) hloadI hw imm rest
  | storeI rC imm => exact decode_encodeRI hc (by decide) hstoreI hw imm rest
  | moveR _ _ | addR _ _ | adcR _ _ | subR _ _ | sbcR _ _ | shlR _ _ | shrR _ _ | andR _ _ | orR _ _ | norR _ _
  | xorR _ _ | inbR _ _ | outbR _ _ | cmpR _ _ =>
    exact decode_encodeRR hc (by decide) (by decide) rfl hw rest
  | moveI _ imm | addI _ imm | adcI _ imm | subI _ imm | sbcI _ imm | shlI _ imm | shrI _ imm | andI _ imm
  | orI _ imm | norI _ imm | xorI _ imm | inbI _ imm | outbI _ imm | cmpI _ imm =>
    exact decode_encodeRI hc (by decide) rfl hw imm rest
  | pushR _ | popR _ | incR _ | decR _ | notR _ | jmpR _ | jzR _ | jnzR _ | jcR _ | jncR _ | callR _ =>
    exact decode_encodeR hc (by decide) rfl hw rest
  | pushI imm | jmpI imm | jzI imm | jnzI imm | jcI imm | jncI imm | callI imm | intI imm =>
    exact decode_encodeI (by decide) rfl imm rest
  | ret | iret | halt | nop => exact decode_encodeNone (by decide) rfl rest

/-! ## From bytes to the encoding of what they decode to -/

/-- The registers are implemented ones. -/
def allImplemented : List Reg → Bool
  | [] => true
  | [r] => r.implemented
  | r :: rest => r.implemented && allImplemented rest

/-- What the table of forms says of one instruction: the first byte and the immediate of its encoding, its register
operands, that these alone decide its well-formedness, and its length (R72 to R78, R81). -/
structure Layout (cfg : Config) (opcode format : Nat) (i : Instr) (regs : List Reg) (imm : List Byte) : Prop where
  head : (encode cfg i).head? = some (firstByte opcode format)
  drop : (encode cfg i).drop 2 = imm
  operands : operandRegs i = regs
  wf : i.wf = allImplemented regs
  len : i.len = imm.length + 2

/-- All instructions of a shape have an opcode, a format and the shape's operands. -/
def Shape.HasLayout (cfg : Config) (opcode format : Nat) : Shape → Prop
  | .noOperand i => Layout cfg opcode format i [] []
  | .reg mk => ∀ rC, Layout cfg opcode format (mk rC) [rC] []
  | .imm mk => ∀ imm, Layout cfg opcode format (mk imm) [] [lowByte imm, highByte imm]
  | .regReg mk => ∀ rC rD, Layout cfg opcode format (mk rC rD) [rC, rD] []
  | .regImm mk => ∀ rC imm, Layout cfg opcode format (mk rC imm) [rC] [lowByte imm, highByte imm]

/-- So do all rows of the table of forms (R78). -/
theorem assignedForms_layout (cfg : Config) :
    ∀ row ∈ assignedForms cfg.indirectFmt, row.shape.HasLayout cfg row.opcode row.format := by
  simp only [assignedForms, formsDataMovement, formsArithmetic, formsShiftLogic, formsPort, formsControl, formsSystem,
    List.forall_mem_append, List.forall_mem_cons]
  simp only [Shape.HasLayout, List.not_mem_nil, false_implies, implies_true, and_true]
  and_intros <;> intros <;> exact ⟨rfl, rfl, rfl, rfl, rfl⟩

/-- A form that was looked up has the opcode and format it was looked up by. -/
theorem lookupForm_layout {cfg : Config} {opcode format : Nat} {sh : Shape}
    (h : lookupForm cfg.indirectFmt opcode format = some sh) : sh.HasLayout cfg opcode format := by
  obtain ⟨row, hfind, rfl⟩ := Option.map_eq_some_iff.1 h
  have hp := List.find?_some hfind
  simp only [Bool.and_eq_true, beq_iff_eq] at hp
  obtain ⟨rfl, rfl⟩ := hp
  exact assignedForms_layout cfg row (List.mem_of_find?_eq_some hfind)

/-- Bytes that decode: their form is assigned and the fields of its shape give the instruction (R71, R80). -/
theorem decode_ok {cfg : Config} {bytes rest : List Byte} {i : Instr} (h : decode cfg bytes = .ok (i, rest)) :
    ∃ i0 i1 tail sh, bytes = i0 :: i1 :: tail ∧
      lookupForm cfg.indirectFmt (opcodeField i0) (formatField i0) = some sh ∧
      decodeShape cfg sh i1 tail = .ok (i, rest) := by
  match bytes, h with
  | i0 :: i1 :: tail, h =>
    simp only [decode] at h
    split at h
    · cases h
    · split at h
      · cases h
      · next sh hs => exact ⟨i0, i1, tail, sh, rfl, hs, h⟩

/-- The fields of the second byte select the registers, in their order (R71, R76). -/
def fieldsSelect (cfg : Config) (i1 : Byte) (regs : List Reg) : Prop :=
  (∀ r, regs[0]? = some r → cfg.regnum[fieldC i1]? = some r) ∧
    ∀ r, regs[1]? = some r → cfg.regnum[fieldD i1]? = some r

/-- What a shape's decoding says of the bytes it read: the register operands are implemented ones selected by their
fields, and the bytes after the second are the immediate's. -/
theorem decodeShape_ok {cfg : Config} {opcode format : Nat} {sh : Shape} {i1 : Byte} {tail rest : List Byte} {i : Instr}
    (hl : sh.HasLayout cfg opcode format) (h : decodeShape cfg sh i1 tail = .ok (i, rest)) :
    ∃ regs imm, Layout cfg opcode format i regs imm ∧ allImplemented regs = true ∧ fieldsSelect cfg i1 regs ∧
      tail = imm ++ rest := by
  cases sh with
  | noOperand j =>
    cases h
    exact ⟨[], [], hl, rfl, by simp [fieldsSelect], rfl⟩
  | reg mk =>
    simp only [decodeShape] at h
    split at h
    · next rC hC =>
      cases h
      obtain ⟨hnum, himpl⟩ := decodeReg_ok hC
      exact ⟨[rC], [], hl rC, himpl, by simp [fieldsSelect, hnum], rfl⟩
    · cases h
  | imm mk =>
    match tail, h with
    | i2 :: i3 :: tail, h =>
      cases h
      exact ⟨[], _, hl (wordOf i2 i3), rfl, by simp [fieldsSelect], by simp⟩
  | regReg mk =>
    simp only [decodeShape] at h
    split at h
    · next rC rD hC hD =>
      cases h
      obtain ⟨hnumC, himplC⟩ := decodeReg_ok hC
      obtain ⟨hnumD, himplD⟩ := decodeReg_ok hD
      exact ⟨[rC, rD], [], hl rC rD, by simp [allImplemented, himplC, himplD],
        by simp [fieldsSelect, hnumC, hnumD], rfl⟩
    · cases h
    · cases h
  | regImm mk =>
    match tail, h with
    | i2 :: i3 :: tail, h =>
      simp only [decodeShape] at h
      split at h
      · next rC hC =>
        cases h
        obtain ⟨hnum, himpl⟩ := decodeReg_ok hC
        exact ⟨[rC], _, hl rC (wordOf i2 i3), himpl, by simp [fieldsSelect, hnum], by simp⟩
      · cases h

/-- Settles O3: bytes that decode carry the decoded instruction's opcode, format, registers and immediate (R82,
decision D8). -/
theorem decodedBytesAgreeWithTheEncoding : Obligations.DecodedBytesAgreeWithTheEncoding := by
  intro cfg bytes rest i h
  obtain ⟨i0, i1, tail, sh, rfl, hs, hd⟩ := decode_ok h
  obtain ⟨regs, imm, hl, himpl, hsel, rfl⟩ := decodeShape_ok (lookupForm_layout hs) hd
  have hhead : some i0 = (encode cfg i).head? := by rw [hl.head, firstByte_fields]
  rw [← hl.operands] at hsel
  exact ⟨hl.wf.trans himpl, i0, i1, imm, rfl, hl.len.symm, hhead, hl.drop.symm, hsel⟩

/-! ## Reserved encodings and undefined bits -/

/-- Below format 6, decoding is looking the form up and reading the fields of its shape (R79, R80). -/
theorem decode_cons_cons (cfg : Config) (i0 i1 : Byte) (rest : List Byte) (hf : formatField i0 < 6) :
    decode cfg (i0 :: i1 :: rest) =
      (lookupForm cfg.indirectFmt (opcodeField i0) (formatField i0)).elim (.error .unassignedForm)
        fun sh => decodeShape cfg sh i1 rest := by
  rw [decode, if_neg (by omega)]
  cases lookupForm cfg.indirectFmt (opcodeField i0) (formatField i0) <;> rfl

/-- A number that selects a reserved slot does not decode (R81). -/
theorem decodeReg_reserved {cfg : Config} {n : Nat} {r : Reg} (hn : cfg.regnum[n]? = some r)
    (hr : r.implemented = false) : decodeReg cfg n = .error .reservedRegister := by
  simp [decodeReg, hn, hr]

/-- No form has format 5 while LOADSTORE_INDIRECT_FORMAT is 3 (R80, R83). -/
theorem lookupForm_five (opcode : Nat) : lookupForm .fmt3 opcode 5 = none := by
  cases h : lookupForm .fmt3 opcode 5 with
  | none => rfl
  | some sh => simpa using lookupForm_format h

/-- A reserved slot in a field that the shape uses rejects the bytes (R81). -/
theorem decodeShape_reserved {cfg : Config} {opcode format : Nat} {sh : Shape} {i1 : Byte} {rest : List Byte} {r : Reg}
    (hs : lookupForm cfg.indirectFmt opcode format = some sh) (hr : r.implemented = false)
    (hrest : format = 4 → 2 ≤ rest.length)
    (hfield : format ∈ [1, 3, 4, 5] ∧ cfg.regnum[fieldC i1]? = some r ∨
      format ∈ [3, 5] ∧ cfg.regnum[fieldD i1]? = some r) :
    decodeShape cfg sh i1 rest = .error .reservedRegister := by
  obtain ⟨⟨i, rfl⟩, rfl⟩ | ⟨⟨mk, rfl⟩, rfl⟩ | ⟨⟨mk, rfl⟩, rfl⟩ | ⟨⟨mk, rfl⟩, rfl⟩ | ⟨⟨mk, rfl⟩, -⟩ :=
    lookupForm_format hs
  case inl => simp at hfield
  case inr.inl => simp at hfield
  case inr.inr.inl =>
    obtain ⟨-, hC⟩ | ⟨hmem, -⟩ := hfield
    · simp only [decodeShape, decodeReg_reserved hC hr]
    · simp at hmem
  case inr.inr.inr.inl =>
    obtain ⟨-, hC⟩ | ⟨hmem, -⟩ := hfield
    · match rest, hrest rfl with
      | i2 :: i3 :: rest, _ => simp only [decodeShape, decodeReg_reserved hC hr]
    · simp at hmem
  case inr.inr.inr.inr =>
    obtain ⟨-, hC⟩ | ⟨-, hD⟩ := hfield
    · simp only [decodeShape, decodeReg_reserved hC hr]
    · cases hC : decodeReg cfg (fieldC i1) with
      | ok rC => simp only [decodeShape, hC, decodeReg_reserved hD hr]
      | error e => simp only [decodeShape, hC, decodeReg_error hC]

/-- Settles O4: the three ways in which bytes are no instruction, each under its name (R79 to R81, R83). -/
theorem reservedEncodingsAreRejected : Obligations.ReservedEncodingsAreRejected := by
  intro cfg i0 i1 rest
  have unassigned : formatField i0 < 6 → lookupForm cfg.indirectFmt (opcodeField i0) (formatField i0) = none →
      decode cfg (i0 :: i1 :: rest) = .error .unassignedForm := by
    intro hf hnone
    rw [decode_cons_cons cfg i0 i1 rest hf, hnone]
    rfl
  refine ⟨?reservedFormat, unassigned, ?formatFive, ?reservedRegister⟩
  case reservedFormat =>
    intro hf
    rw [decode, if_pos hf]
  case formatFive =>
    intro hf hind
    exact unassigned (by omega) (by rw [hf, hind, lookupForm_five])
  case reservedRegister =>
    intro r hr hassigned hrest hfield
    obtain ⟨sh, hs⟩ := Option.ne_none_iff_exists'.1 hassigned
    have hf : formatField i0 < 6 := by
      obtain ⟨hmem, -⟩ | ⟨hmem, -⟩ := hfield <;>
        simp only [List.mem_cons, List.not_mem_nil, or_false] at hmem <;> omega
    rw [decode_cons_cons cfg i0 i1 rest hf, hs]
    exact decodeShape_reserved hs hr hrest hfield

/-- A shape's fields are all that its decoding reads of the second byte (R82). -/
theorem decodeShape_congr {cfg : Config} {opcode format : Nat} {sh : Shape} {i1 i1' : Byte} (rest : List Byte)
    (hs : lookupForm cfg.indirectFmt opcode format = some sh)
    (h : format = 0 ∨ format = 2 ∨ ((format = 1 ∨ format = 4) ∧ fieldC i1 = fieldC i1')) :
    decodeShape cfg sh i1 rest = decodeShape cfg sh i1' rest := by
  obtain ⟨⟨i, rfl⟩, rfl⟩ | ⟨⟨mk, rfl⟩, rfl⟩ | ⟨⟨mk, rfl⟩, rfl⟩ | ⟨⟨mk, rfl⟩, rfl⟩ | ⟨-, hfmt⟩ := lookupForm_format hs
  case inl => rfl
  case inr.inl =>
    match rest with
    | [] | [_] | _ :: _ :: _ => rfl
  case inr.inr.inl =>
    have hC : fieldC i1 = fieldC i1' := by simpa using h
    simp only [decodeShape, hC]
  case inr.inr.inr.inl =>
    have hC : fieldC i1 = fieldC i1' := by simpa using h
    match rest with
    | [] | [_] => rfl
    | i2 :: i3 :: rest => simp only [decodeShape, hC]
  case inr.inr.inr.inr => omega

/-- Settles O5: the second byte counts only through the fields of the format (R82, decision D8). -/
theorem undefinedBitsAreIgnored : Obligations.UndefinedBitsAreIgnored := by
  intro cfg i0 i1 i1' rest h
  have hf : formatField i0 < 6 := by omega
  rw [decode_cons_cons cfg i0 i1 rest hf, decode_cons_cons cfg i0 i1' rest hf]
  cases hs : lookupForm cfg.indirectFmt (opcodeField i0) (formatField i0) with
  | none => rfl
  | some sh => exact decodeShape_congr rest hs h

/-- Settles O1: the six words, decoded. -/
theorem sampleWordsDecode : Obligations.SampleWordsDecode := by
  unfold Obligations.SampleWordsDecode
  decide

end Sys2Proof

/-! SUPPORT. Proofs of the statements about what no instruction does (spec/10_state.md R19, R26, and the rules of the
sections on instructions). First everything an instruction that goes on can have done, together with its row in the
tables of Safety.lean; the frames of registers, flags, ports, `pc` and the halted flag are read off that list, the frame
of memory off the families that store; then the step. -/

namespace Sys2Proof.Machine

/-! ## Everything an instruction can do -/

/-- An instruction's row in the tables of Safety.lean: its destination, the flags it writes as a side effect, and
whether it moves SP, transfers control and uses a port. -/
structure TableRow (i : Instr) (dest : Option Reg) (flags : List Flag) (sp transfers port : Bool) : Prop where
  dest_eq : destination i = dest
  flags_eq : flagsWritten i = flags
  sp_eq : movesSp i = sp
  transfers_eq : transfersControl i = transfers
  port_eq : usesPort i = port

/-- The states an instruction can go on in, by the named updates its meaning makes. -/
inductive Effect (i : Instr) (s : State) : State → Prop
  /-- LOAD and MOVE: a value goes to the destination. -/
  | assign {rC : Reg} {v : Word} {n : Nat} (row : TableRow i (some rC) [] false false false) :
      Effect i s ((putReg (s.withDraws n) rC v).withPc (nextPc s i.len))
  /-- STORE and NOP: memory may change. -/
  | store {m : Memory} (row : TableRow i none [] false false false) :
      Effect i s ((s.withMem m).withPc (nextPc s i.len))
  /-- PUSH: memory and SP may change. -/
  | push {m : Memory} {sp : Word} (row : TableRow i none [] true false false) :
      Effect i s (((s.withMem m).withSp sp).withPc (nextPc s i.len))
  /-- POP: SP moves, then a value goes to the destination. -/
  | pop {rC : Reg} {v sp : Word} {n : Nat} (row : TableRow i (some rC) [] true false false) :
      Effect i s ((putReg ((s.withSp sp).withDraws n) rC v).withPc (nextPc s i.len))
  /-- The arithmetic instructions and the shifts: a result goes to the destination, Z, C and O on top of it. -/
  | compute {rC : Reg} {v : Word} {z c o : Bool} {n : Nat} (row : TableRow i (some rC) [.z, .c, .o] false false false) :
      Effect i s ((((putReg s rC v).setZCO z c o).withDraws n).withPc (nextPc s i.len))
  /-- The bitwise instructions: a result goes to the destination, Z on top of it. -/
  | bitwise {rC : Reg} {v : Word} {z : Bool} (row : TableRow i (some rC) [.z] false false false) :
      Effect i s (((putReg s rC v).setFlag .z z).withPc (nextPc s i.len))
  /-- INB: one event, a value goes to the destination, Z on top of it. -/
  | input {rC : Reg} {v : Word} {z : Bool} {left : List (Byte × Word)} {event : PortEvent}
      (row : TableRow i (some rC) [.z] false false true) :
      Effect i s (((putReg ((s.withPortIn left).withPortLog (s.portLog ++ [event])) rC v).setFlag .z z).withPc
        (nextPc s i.len))
  /-- OUTB: one event. -/
  | output {event : PortEvent} (row : TableRow i none [] false false true) :
      Effect i s ((s.withPortLog (s.portLog ++ [event])).withPc (nextPc s i.len))
  /-- CMP: Z and C. -/
  | compare {z c : Bool} (row : TableRow i none [.z, .c] false false false) :
      Effect i s (((s.setFlag .z z).setFlag .c c).withPc (nextPc s i.len))
  /-- The jumps: `pc`. -/
  | jump {pc : Word} (row : TableRow i none [] false true false) : Effect i s (s.withPc pc)
  /-- CALL and RET: memory, SP and `pc`. -/
  | callOrReturn {m : Memory} {sp pc : Word} {n : Nat} (row : TableRow i none [] true true false) :
      Effect i s ((((s.withMem m).withSp sp).withDraws n).withPc pc)
  /-- INT while masked: `pc`. -/
  | interruptMasked {pc : Word} (isInt : ∃ n, i = .intI n) (row : TableRow i none [.i] true true false) :
      Effect i s (s.withPc pc)
  /-- INT, taken: memory, SP, `F.I` and `pc`. -/
  | interrupt {m : Memory} {sp pc : Word} {n : Nat} (isInt : ∃ n, i = .intI n)
      (row : TableRow i none [.i] true true false) :
      Effect i s (((((s.withMem m).withSp sp).setFlag .i false).withDraws n).withPc pc)
  /-- IRET: SP, F and `pc`. -/
  | interruptReturn {sp f pc : Word} {n : Nat} (isIret : i = .iret) (row : TableRow i none [] true true false) :
      Effect i s ((((s.withSp sp).withF f).withDraws n).withPc pc)
  /-- HALT: the halted flag. -/
  | halt (isHalt : i = .halt) (row : TableRow i none [] false false false) :
      Effect i s ((s.withHalted true).withPc (nextPc s i.len))

section Families

/-! Each family's effect, from what its lemma in Laws/Meanings.lean says it can do. -/

variable {i : Instr} {s t : State} {len : Nat} {rC : Reg} {o : Operand}

theorem loadFrom_effect (h : loadFrom len rC o s = .next t) (hlen : i.len = len)
    (row : TableRow i (some rC) [] false false false) : Effect i s t := by
  obtain ⟨base, v, n, -, -, -, -, rfl⟩ := loadFrom_next h
  exact hlen ▸ .assign row

theorem moveTo_effect (h : moveTo len rC o s = .next t) (hlen : i.len = len)
    (row : TableRow i (some rC) [] false false false) : Effect i s t := by
  obtain ⟨-, -, rfl⟩ := moveTo_next h
  exact hlen ▸ .assign (n := s.draws) row

theorem storeTo_effect (h : storeTo len o rC s = .next t) (hlen : i.len = len)
    (row : TableRow i none [] false false false) : Effect i s t := by
  obtain ⟨-, -, m, rfl, -, -⟩ := storeTo_next h
  exact hlen ▸ .store row

theorem pushOperand_effect (h : pushOperand len o s = .next t) (hlen : i.len = len)
    (row : TableRow i none [] true false false) : Effect i s t := by
  obtain ⟨-, ⟨-, rfl⟩ | ⟨-, base, m, -, -, -, rfl⟩⟩ := pushOperand_next h
  · exact hlen ▸ .push (m := s.mem) (sp := s.sp) row
  · exact hlen ▸ .push row

theorem popTo_effect (h : popTo len rC s = .next t) (hlen : i.len = len)
    (row : TableRow i (some rC) [] true false false) : Effect i s t := by
  obtain ⟨base, v, n, -, -, -, rfl⟩ := popTo_next h
  exact hlen ▸ .pop row

theorem arith_effect {op : Word → Word → Bool → Alu} (h : arith op len rC o s = .next t) (hlen : i.len = len)
    (row : TableRow i (some rC) [.z, .c, .o] false false false) : Effect i s t := by
  obtain ⟨-, -, res, -, rfl⟩ := arith_next h
  have heff := Effect.compute (s := s) (v := res.r) (z := res.z) (c := res.c) (o := res.o)
    (n := ((putReg s rC res.r).setZCO res.z res.c res.o).draws) row
  rwa [State.withDraws_self, hlen] at heff

theorem shift_effect {result : Word → Word → Word} {carry : Word → Word → Bool}
    (h : shift result carry len rC o s = .next t) (hlen : i.len = len) (row : TableRow i (some rC) [.z, .c, .o] false false false) : Effect i s t := by
  obtain ⟨-, -, r, -, rfl⟩ := shift_next h
  exact hlen ▸ .compute row

theorem logic_effect {op : Word → Word → Word} (h : logic op len rC o s = .next t) (hlen : i.len = len)
    (row : TableRow i (some rC) [.z] false false false) : Effect i s t := by
  obtain ⟨-, -, r, -, rfl⟩ := logic_next h
  exact hlen ▸ .bitwise row

theorem inFrom_effect (h : inFrom len rC o s = .next t) (hlen : i.len = len)
    (row : TableRow i (some rC) [.z] false false true) : Effect i s t := by
  obtain ⟨-, -, -, v, left, -, rfl⟩ := inFrom_next h
  exact hlen ▸ .input row

theorem outTo_effect (h : outTo len o rC s = .next t) (hlen : i.len = len)
    (row : TableRow i none [] false false true) : Effect i s t := by
  obtain ⟨-, -, -, rfl⟩ := outTo_next h
  exact hlen ▸ .output row

theorem compareTo_effect (h : compareTo len rC o s = .next t) (hlen : i.len = len)
    (row : TableRow i none [.z, .c] false false false) : Effect i s t := by
  obtain ⟨-, -, res, -, rfl⟩ := compareTo_next h
  exact hlen ▸ .compare row

theorem jumpIf_effect {cond : Bool} (h : jumpIf cond len o s = .next t) (row : TableRow i none [] false true false) :
    Effect i s t := by
  obtain ⟨-, rfl⟩ := jumpIf_next h
  exact .jump row

theorem callTo_effect (h : callTo len o s = .next t) (row : TableRow i none [] true true false) : Effect i s t := by
  obtain ⟨-, base, m, -, -, -, rfl⟩ := callTo_next h
  have heff := Effect.callOrReturn (s := s) (m := m) (sp := s.sp - 2#16) (pc := operandValue s len o)
    (n := ((s.withMem m).withSp (s.sp - 2#16)).draws) row
  rwa [State.withDraws_self] at heff

theorem execRet_effect (h : execRet s = .next t) : Effect .ret s t := by
  obtain ⟨base, v, n, -, -, rfl⟩ := execRet_next h
  exact .callOrReturn (m := s.mem) ⟨rfl, rfl, rfl, rfl, rfl⟩

theorem execIntI_effect {n : Word} (h : execIntI n s = .next t) : Effect (.intI n) s t := by
  obtain ⟨-, rfl⟩ | ⟨-, htaken⟩ := execIntI_next h
  · exact .interruptMasked ⟨n, rfl⟩ ⟨rfl, rfl, rfl, rfl, rfl⟩
  · obtain ⟨-, base₁, base₂, vbase, m₁, m₂, d, handler, -, -, -, -, -, -, -, rfl⟩ := takeInterrupt_ok htaken
    exact .interrupt ⟨n, rfl⟩ ⟨rfl, rfl, rfl, rfl, rfl⟩

theorem execIret_effect (h : execIret s = .next t) : Effect .iret s t := by
  obtain ⟨-, -, rfl⟩ | ⟨-, hret⟩ := execIret_next h
  · exact .interruptReturn (sp := s.sp) (f := s.f) (n := s.draws) rfl ⟨rfl, rfl, rfl, rfl, rfl⟩
  · obtain ⟨base₁, base₂, flags, target, d, -, -, -, -, rfl⟩ := returnFromInterrupt_ok hret
    exact .interruptReturn rfl ⟨rfl, rfl, rfl, rfl, rfl⟩

end Families

/-- An instruction that goes on has done one of these things (spec sections 40 to 45). -/
theorem exec_effect {i : Instr} {s t : State} (h : exec i s = .next t) : Effect i s t := by
  cases i with
  | loadR _ _ | loadI _ _ => exact loadFrom_effect h rfl ⟨rfl, rfl, rfl, rfl, rfl⟩
  | storeR _ _ | storeI _ _ => exact storeTo_effect h rfl ⟨rfl, rfl, rfl, rfl, rfl⟩
  | moveR _ _ | moveI _ _ => exact moveTo_effect h rfl ⟨rfl, rfl, rfl, rfl, rfl⟩
  | pushR _ | pushI _ => exact pushOperand_effect h rfl ⟨rfl, rfl, rfl, rfl, rfl⟩
  | popR _ => exact popTo_effect h rfl ⟨rfl, rfl, rfl, rfl, rfl⟩
  | addR _ _ | addI _ _ | adcR _ _ | adcI _ _ | subR _ _ | subI _ _ | sbcR _ _ | sbcI _ _ | incR _ | decR _ =>
    exact arith_effect h rfl ⟨rfl, rfl, rfl, rfl, rfl⟩
  | shlR _ _ | shlI _ _ | shrR _ _ | shrI _ _ => exact shift_effect h rfl ⟨rfl, rfl, rfl, rfl, rfl⟩
  | andR _ _ | andI _ _ | orR _ _ | orI _ _ | norR _ _ | norI _ _ | notR _ | xorR _ _ | xorI _ _ =>
    exact logic_effect h rfl ⟨rfl, rfl, rfl, rfl, rfl⟩
  | inbR _ _ | inbI _ _ => exact inFrom_effect h rfl ⟨rfl, rfl, rfl, rfl, rfl⟩
  | outbR _ _ | outbI _ _ => exact outTo_effect h rfl ⟨rfl, rfl, rfl, rfl, rfl⟩
  | cmpR _ _ | cmpI _ _ => exact compareTo_effect h rfl ⟨rfl, rfl, rfl, rfl, rfl⟩
  | jmpR _ | jzR _ | jnzR _ | jcR _ | jncR _ => exact jumpIf_effect h ⟨rfl, rfl, rfl, rfl, rfl⟩
  | jmpI imm | jzI imm | jnzI imm | jcI imm | jncI imm =>
    exact jumpIf_effect (o := .imm imm) h ⟨rfl, rfl, rfl, rfl, rfl⟩
  | callR _ => exact callTo_effect h ⟨rfl, rfl, rfl, rfl, rfl⟩
  | callI imm => exact callTo_effect (o := .imm imm) h ⟨rfl, rfl, rfl, rfl, rfl⟩
  | ret => exact execRet_effect h
  | intI _ => exact execIntI_effect h
  | iret => exact execIret_effect h
  | halt =>
    cases h
    exact .halt rfl ⟨rfl, rfl, rfl, rfl, rfl⟩
  | nop =>
    cases h
    exact .store (m := s.mem) ⟨rfl, rfl, rfl, rfl, rfl⟩

/-- A register that is not the destination differs from the register the row has as destination. -/
theorem TableRow.ne_dest {i : Instr} {rC r : Reg} {flags : List Flag} {sp transfers port : Bool}
    (row : TableRow i (some rC) flags sp transfers port) (h : destination i ≠ some r) : r ≠ rC :=
  fun he => h (he ▸ row.dest_eq)

/-! ## Parameters, ports, `pc` and the halted flag -/

/-- No named update changes the parameters. -/
theorem Effect.cfg_eq {i : Instr} {s t : State} (h : Effect i s t) : t.cfg = s.cfg := by
  cases h <;> simp

/-- Settles O21: of all effects only INB's and OUTB's touch the ports' side, each with one event (R60). -/
theorem onlyPortInstructionsAccessPorts : Obligations.OnlyPortInstructionsAccessPorts := by
  intro i s t h
  cases exec_effect h with
  | @input rC v z left event row =>
    exact ⟨fun hport => absurd (row.port_eq.symm.trans hport) (by decide), fun _ => ⟨event, by simp⟩⟩
  | @output event row =>
    exact ⟨fun hport => absurd (row.port_eq.symm.trans hport) (by decide), fun _ => ⟨event, by simp⟩⟩
  | assign row | store row | push row | pop row | compute row | bitwise row | compare row | jump row
  | callOrReturn row | interruptMasked _ row | interrupt _ row | interruptReturn _ row | halt _ row =>
    exact ⟨fun _ => by simp, fun hport => absurd (row.port_eq.symm.trans hport) (by decide)⟩

/-- Settles O22: of all effects only those of control transfers put anything but the next instruction's address into
`pc`, and only HALT's writes the halted flag (R15, R24). -/
theorem otherInstructionsAdvanceAndOnlyHaltHalts : Obligations.OtherInstructionsAdvanceAndOnlyHaltHalts := by
  intro i s t h
  cases exec_effect h with
  | assign row | store row | push row | pop row | compute row | bitwise row | input row | output row | compare row =>
    exact ⟨fun _ => State.withPc_pc _ _, fun _ => by simp⟩
  | jump row | callOrReturn row | interruptMasked _ row | interrupt _ row | interruptReturn _ row =>
    exact ⟨fun htransfers => absurd (row.transfers_eq.symm.trans htransfers) (by decide), fun _ => by simp⟩
  | halt isHalt row => exact ⟨fun _ => State.withPc_pc _ _, fun hne => absurd isHalt hne⟩

/-! ## Registers -/

/-- Settles O17: PC and F apart, the named updates reach the destination register, and SP in the instructions that push
or pop (R14, R16, R26). -/
theorem onlyDestinationsChange : Obligations.OnlyDestinationsChange := by
  intro i s t r h hpc hf hdest hsp
  have ne_sp : movesSp i = true → r ≠ .sp := fun hmoves he => absurd ((hsp he).symm.trans hmoves) (by decide)
  cases exec_effect h with
  | assign row | compute row | bitwise row | input row =>
    simp [getReg_withPc, getReg_setZCO, getReg_setFlag, getReg_putReg_other, hpc, hf, row.ne_dest hdest]
  | pop row => simp [getReg_withPc, getReg_withSp, getReg_putReg_other, hpc, ne_sp row.sp_eq, row.ne_dest hdest]
  | push row | callOrReturn row | interrupt _ row | interruptReturn _ row =>
    simp [getReg_withPc, getReg_withSp, getReg_setFlag, getReg_withF, hpc, hf, ne_sp row.sp_eq]
  | store row | output row | compare row | jump row | interruptMasked _ row | halt _ row =>
    simp [getReg_withPc, getReg_setFlag, hpc, hf]

/-! ## Flags -/

/-- Writing Z, C and O leaves every other bit of F alone (R20). -/
theorem State.setZCO_bit_other (s : State) (z c o : Bool) {k : Nat} (hz : k ≠ (s.cfg.flagPos.pos .z).val)
    (hc : k ≠ (s.cfg.flagPos.pos .c).val) (ho : k ≠ (s.cfg.flagPos.pos .o).val) :
    (s.setZCO z c o).f.getLsbD k = s.f.getLsbD k := by
  rw [State.setZCO, State.setFlag_bit_other, State.setFlag_bit_other, State.setFlag_bit_other] <;>
    simpa only [State.setFlag_cfg]

/-- A register write with another destination leaves F alone. -/
theorem putReg_f_of_ne (s : State) {rC : Reg} (v : Word) (h : .f ≠ rC) : (putReg s rC v).f = s.f := by
  rw [putReg_f, if_neg h.symm]

/-- Settles O18: with F not the destination, the named updates reach the bits of the flags in the table of flag writers
(R19, R20, decision D4). -/
theorem onlyListedFlagsChange : Obligations.OnlyListedFlagsChange := by
  intro i s t k h hiret hdest hbit
  have ne_pos : ∀ fl ∈ flagsWritten i, k ≠ (s.cfg.flagPos.pos fl).val := fun fl hfl he => hbit ⟨fl, hfl, he.symm⟩
  cases exec_effect h with
  | assign row | pop row =>
    rw [State.withPc_f, putReg_f_of_ne _ _ (row.ne_dest hdest)]
    simp
  | compute row =>
    rw [row.flags_eq] at ne_pos
    rw [State.withPc_f, State.withDraws_f, State.setZCO_bit_other, putReg_f_of_ne _ _ (row.ne_dest hdest)] <;>
      simp [ne_pos]
  | bitwise row | input row =>
    rw [row.flags_eq] at ne_pos
    rw [State.withPc_f, State.setFlag_bit_other, putReg_f_of_ne _ _ (row.ne_dest hdest)] <;> simp [ne_pos]
  | compare row =>
    rw [row.flags_eq] at ne_pos
    rw [State.withPc_f, State.setFlag_bit_other, State.setFlag_bit_other] <;> simp [ne_pos]
  | interrupt _ row =>
    rw [row.flags_eq] at ne_pos
    rw [State.withPc_f, State.withDraws_f, State.setFlag_bit_other] <;> simp [ne_pos]
  | interruptReturn isIret row => exact absurd isIret hiret
  | store row | push row | output row | jump row | callOrReturn row | interruptMasked _ row | halt _ row => simp

/-- Z, C and O are all the flags an instruction writes as a side effect, but for INT, which writes I (R19, decision
D38). -/
theorem Effect.flagsWritten_cases {i : Instr} {s t : State} (h : Effect i s t) :
    flagsWritten i ⊆ [.z, .c, .o] ∨ flagsWritten i = [.i] ∧ ∃ n, i = .intI n := by
  cases h with
  | interruptMasked isInt row | interrupt isInt row => exact .inr ⟨row.flags_eq, isInt⟩
  | assign row | store row | push row | pop row | compute row | bitwise row | input row | output row | compare row
  | jump row | callOrReturn row | interruptReturn _ row | halt _ row =>
    left
    rw [row.flags_eq]
    decide

/-- A flag that an instruction does not write keeps its value, where F is not the destination. -/
theorem flag_eq_of_not_written {i : Instr} {s t : State} {fl : Flag} (hpos : s.cfg.flagPos.distinct = true)
    (h : exec i s = .next t) (hiret : i ≠ .iret) (hdest : destination i ≠ some .f) (hfl : fl ∉ flagsWritten i) :
    t.flag fl = s.flag fl := by
  have hbit : ¬ isFlagBit s (flagsWritten i) (s.cfg.flagPos.pos fl).val := by
    rintro ⟨fl', hmem, heq⟩
    have hne : fl' ≠ fl := fun he => hfl (he ▸ hmem)
    exact FlagPos_pos_ne hpos hne (Fin.ext heq)
  rw [State.flag, State.flag, (exec_effect h).cfg_eq]
  exact onlyListedFlagsChange i s t _ h hiret hdest hbit

/-- Settles O19: N is in no row of the table of flag writers, and I in INT's, which clears it when taken (decision
D38). -/
theorem negativeAndInterruptFlagsKeep : Obligations.NegativeAndInterruptFlagsKeep := by
  intro i s t hpos h hiret hdest
  have keeps {fl : Flag} (hfl : fl ∉ flagsWritten i) : t.flag fl = s.flag fl :=
    flag_eq_of_not_written hpos h hiret hdest hfl
  obtain hsub | ⟨hflags, n, rfl⟩ := (exec_effect h).flagsWritten_cases
  · exact ⟨keeps fun hn => absurd (hsub hn) (by decide), .inl (keeps fun hi => absurd (hsub hi) (by decide))⟩
  · refine ⟨keeps (by rw [hflags]; decide), ?_⟩
    obtain ⟨-, rfl⟩ | ⟨-, htaken⟩ := execIntI_next h
    · exact .inl (State.flag_withPc _ _ _)
    · exact .inr ⟨⟨n, rfl⟩, (takeInterrupt_masks htaken).1⟩

/-! ## Memory -/

/-- A one-byte write touches the location its address reaches and no other. -/
theorem storedByte_none {s : State} {a : Word} {key : Nat} (v : Byte) (h : storageKey s.cfg s.mb a ≠ .ok key) :
    storedByte s a v key = none := by
  unfold storedByte
  split
  · rfl
  · split
    · next k hk =>
      rw [if_neg]
      rintro rfl
      exact h hk
    · rfl

/-- A word store changes no location but those of its two bytes. -/
theorem byteAfterStore_other {s : State} {a base v : Word} {key : Nat} (hb : wordBase s.cfg a = .ok base)
    (h : ¬ storesTo s a key) : byteAfterStore s base v key = s.mem.read key := by
  have hlow : storageKey s.cfg s.mb base ≠ .ok key := fun he => h ⟨base, hb, .inl he⟩
  have hhigh : storageKey s.cfg s.mb (base + 1#16) ≠ .ok key := fun he => h ⟨base, hb, .inr he⟩
  rw [byteAfterStore, storedByte_none _ hhigh, storedByte_none _ hlow]

/-- A push changes no location but those of its two bytes, and none with the stack pointer in ROM (decision D19). -/
theorem byteAfterPush_other {s : State} {sp base v : Word} {key : Nat} (hp : pushable s sp base)
    (h : inRom sp = true ∨ ¬ storesTo s sp key) : byteAfterPush s sp base v key = s.mem.read key := by
  unfold byteAfterPush
  split
  · rfl
  · next hr =>
    obtain hrom | ⟨⟨hb, -, -⟩, -⟩ := hp
    · exact absurd hrom hr
    · exact byteAfterStore_other hb (h.resolve_left hr)

/-- STORE changes the bytes of the word at its address. -/
theorem storeTo_read_other {len : Nat} {o : Operand} {data : Reg} {s t : State} {key : Nat}
    (h : storeTo len o data s = .next t)
    (hs : inRom (operandValue s len o) = true ∨ ¬ storesTo s (operandValue s len o) key) :
    t.mem.read key = s.mem.read key := by
  obtain ⟨-, -, m, rfl, -, ⟨-, rfl⟩ | ⟨hr, base, ⟨hb, -, -⟩, hm⟩⟩ := storeTo_next h
  · rfl
  · refine (hm key).trans (byteAfterStore_other hb (hs.resolve_left ?_))
    simp [hr]

/-- PUSH changes the bytes of the word at SP. -/
theorem pushOperand_read_other {len : Nat} {o : Operand} {s t : State} {key : Nat} (h : pushOperand len o s = .next t)
    (hs : inRom s.sp = true ∨ ¬ storesTo s s.sp key) : t.mem.read key = s.mem.read key := by
  obtain ⟨-, ⟨-, rfl⟩ | ⟨-, base, m, hp, -, hm, rfl⟩⟩ := pushOperand_next h
  · rfl
  · exact (hm key).trans (byteAfterPush_other hp hs)

/-- CALL changes the bytes of the word at SP. -/
theorem callTo_read_other {len : Nat} {o : Operand} {s t : State} {key : Nat} (h : callTo len o s = .next t)
    (hs : inRom s.sp = true ∨ ¬ storesTo s s.sp key) : t.mem.read key = s.mem.read key := by
  obtain ⟨-, base, m, hp, -, hm, rfl⟩ := callTo_next h
  exact (hm key).trans (byteAfterPush_other hp hs)

/-- A taken INT changes the bytes of the words at SP and SP - 2. -/
theorem takeInterrupt_read_other {s t : State} {n ret : Word} {key : Nat} (h : takeInterrupt s n ret = .ok t)
    (h₁ : inRom s.sp = true ∨ ¬ storesTo s s.sp key)
    (h₂ : inRom (s.sp - 2#16) = true ∨ ¬ storesTo s (s.sp - 2#16) key) :
    t.mem.read key = s.mem.read key := by
  obtain ⟨-, base₁, base₂, vbase, m₁, m₂, d, handler, p₁, p₂, hm₁, hm₂, -, -, -, rfl⟩ := takeInterrupt_ok h
  calc m₂.read key = byteAfterPush (s.withMem m₁) (s.sp - 2#16) base₂ s.f key := hm₂ key
    _ = m₁.read key := byteAfterPush_other (s := s.withMem m₁) p₂ h₂
    _ = s.mem.read key := (hm₁ key).trans (byteAfterPush_other p₁ h₁)

/-- Settles O20: STORE, PUSH, CALL and a taken INT change the bytes of the words they store; every other instruction
leaves the memory as it is. -/
theorem onlyStoredBytesChange : Obligations.OnlyStoredBytesChange := by
  intro i s t key h hs
  cases i with
  | storeR rC _ => exact storeTo_read_other h (hs (getReg s 2 rC) (List.mem_singleton_self _))
  | storeI _ imm => exact storeTo_read_other h (hs imm (List.mem_singleton_self _))
  | pushR _ | pushI _ => exact pushOperand_read_other h (hs s.sp (List.mem_singleton_self _))
  | callR _ | callI _ => exact callTo_read_other h (hs s.sp (List.mem_singleton_self _))
  | intI n =>
    obtain ⟨-, rfl⟩ | ⟨hi, htaken⟩ := execIntI_next h
    · rfl
    · simp only [storeAddresses, hi, if_true] at hs
      exact takeInterrupt_read_other htaken (hs s.sp (by simp)) (hs (s.sp - 2#16) (by simp))
  | _ => rw [exec_mem_of_storeAddresses_nil h rfl]

/-! ## The step -/

/-- Fetching draws at most, so a step that is not halted does what its instruction does. -/
theorem step_effect {s t : State} (h : step s = .next t) : t = s ∨ ∃ i n, Effect i (s.withDraws n) t := by
  obtain ⟨-, rfl⟩ | ⟨-, bytes, n, i, rest, -, -, hexec⟩ := step_next h
  · exact .inl rfl
  · exact .inr ⟨i, n, exec_effect hexec⟩

/-- A step keeps the parameters. -/
theorem step_cfg {s t : State} (h : step s = .next t) : t.cfg = s.cfg := by
  obtain rfl | ⟨i, n, heff⟩ := step_effect h
  · rfl
  · exact heff.cfg_eq

/-- Settles O9: a step keeps the canonical form and the locations because every write of memory does, and it keeps the
parameters (log 1, log 41). -/
theorem stepKeepsInvariant : Obligations.StepKeepsInvariant := by
  intro s t hinv h
  obtain ⟨hwf, hwithin, -, -⟩ := step_keepsCells h
  simp only [State.inv, Bool.and_eq_true] at hinv ⊢
  obtain ⟨⟨hmem, hcells⟩, hcfg⟩ := hinv
  rw [step_cfg h]
  exact ⟨⟨hwf hmem, hwithin hcells⟩, hcfg⟩

/-- An effect adds at most one event to the log of port accesses. -/
theorem Effect.portLog_eq {i : Instr} {s t : State} (h : Effect i s t) :
    ∃ events, t.portLog = s.portLog ++ events ∧ events.length ≤ 1 := by
  cases h with
  | @input rC v z left event row => exact ⟨[event], by simp, Nat.le_refl 1⟩
  | @output event row => exact ⟨[event], by simp, Nat.le_refl 1⟩
  | _ => exact ⟨[], by simp, Nat.zero_le 1⟩

/-- Settles O16: no effect changes a parameter, and INB's and OUTB's alone add to the log (log 1, log 25). -/
theorem stepKeepsParametersAndLog : Obligations.StepKeepsParametersAndLog := by
  intro s t h
  refine ⟨step_cfg h, ?_⟩
  obtain rfl | ⟨i, n, heff⟩ := step_effect h
  · exact ⟨[], (List.append_nil _).symm, Nat.zero_le 1⟩
  · exact heff.portLog_eq

/-- No word store reaches a byte of a bank that MB does not select (R43). -/
theorem not_storesTo_other_bank {s : State} {bank offset : Nat} (hbank : bank ≠ s.mb.toNat) (hoffset : offset < 0x4000)
    (a : Word) : ¬ storesTo s a (bankKey bank offset) := by
  have unreached (b : Word) : storageKey s.cfg s.mb b ≠ .ok (bankKey bank offset) := by
    intro hk
    have hb := b.isLt
    obtain ⟨hlo, hhi, -, hkey⟩ | ⟨-, hkey⟩ := storageKey_cases hk <;> unfold bankKey at hkey <;> omega
  rintro ⟨base, -, hlow | hhigh⟩
  · exact unreached base hlow
  · exact unreached (base + 1#16) hhigh

/-- Settles O15: the words an instruction stores go through the window to the bank that MB selects (R43, decision
D25). -/
theorem stepLeavesOtherBanksAlone : Obligations.StepLeavesOtherBanksAlone := by
  intro s t bank offset h hbank hoffset
  obtain ⟨-, rfl⟩ | ⟨-, bytes, n, i, rest, -, -, hexec⟩ := step_next h
  · rfl
  · have hframe := onlyStoredBytesChange i (s.withDraws n) t (bankKey bank offset) hexec
    exact hframe fun a _ => .inr (not_storesTo_other_bank hbank hoffset a)

end Sys2Proof.Machine

/-! SUPPORT. Proofs of the statements about ill-formed instructions, the step, reset and the image
(spec/10_state.md R24, R27, spec/30_encoding.md R75, R79 to R81, R88, spec/70_reset_and_hazards.md R180). -/

namespace Sys2Proof.Machine

/-! ## Reserved registers -/

/-- An instruction that goes on names implemented registers only: its meaning has read or written each of them (R13,
R14, R81). -/
theorem exec_next_wf {i : Instr} {s t : State} (h : exec i s = .next t) : i.wf = true := by
  cases i with
  | loadR _ _ =>
    obtain ⟨-, -, -, ho, hi, -⟩ := loadFrom_next h
    exact Bool.and_eq_true_iff.2 ⟨hi, ho⟩
  | loadI _ _ =>
    obtain ⟨-, -, -, -, hi, -⟩ := loadFrom_next h
    exact hi
  | storeR _ _ =>
    obtain ⟨ho, hi, -⟩ := storeTo_next h
    exact Bool.and_eq_true_iff.2 ⟨ho, hi⟩
  | storeI _ _ =>
    obtain ⟨-, hi, -⟩ := storeTo_next h
    exact hi
  | moveR _ _ =>
    obtain ⟨ho, hi, -⟩ := moveTo_next h
    exact Bool.and_eq_true_iff.2 ⟨hi, ho⟩
  | moveI _ _ =>
    obtain ⟨-, hi, -⟩ := moveTo_next h
    exact hi
  | pushR _ =>
    obtain ⟨ho, -⟩ := pushOperand_next h
    exact ho
  | popR _ =>
    obtain ⟨-, -, -, hi, -⟩ := popTo_next h
    exact hi
  | addR _ _ | adcR _ _ | subR _ _ | sbcR _ _ =>
    obtain ⟨ho, hi, -⟩ := arith_next h
    exact Bool.and_eq_true_iff.2 ⟨hi, ho⟩
  | addI _ _ | adcI _ _ | subI _ _ | sbcI _ _ | incR _ | decR _ =>
    obtain ⟨-, hi, -⟩ := arith_next h
    exact hi
  | shlR _ _ | shrR _ _ =>
    obtain ⟨ho, hi, -⟩ := shift_next h
    exact Bool.and_eq_true_iff.2 ⟨hi, ho⟩
  | shlI _ _ | shrI _ _ =>
    obtain ⟨-, hi, -⟩ := shift_next h
    exact hi
  | andR _ _ | orR _ _ | norR _ _ | xorR _ _ =>
    obtain ⟨ho, hi, -⟩ := logic_next h
    exact Bool.and_eq_true_iff.2 ⟨hi, ho⟩
  | andI _ _ | orI _ _ | norI _ _ | xorI _ _ | notR _ =>
    obtain ⟨-, hi, -⟩ := logic_next h
    exact hi
  | inbR _ _ =>
    obtain ⟨ho, hi, -⟩ := inFrom_next h
    exact Bool.and_eq_true_iff.2 ⟨hi, ho⟩
  | inbI _ _ =>
    obtain ⟨-, hi, -⟩ := inFrom_next h
    exact hi
  | outbR _ _ =>
    obtain ⟨ho, hi, -⟩ := outTo_next h
    exact Bool.and_eq_true_iff.2 ⟨ho, hi⟩
  | outbI _ _ =>
    obtain ⟨-, hi, -⟩ := outTo_next h
    exact hi
  | cmpR _ _ =>
    obtain ⟨ho, hi, -⟩ := compareTo_next h
    exact Bool.and_eq_true_iff.2 ⟨hi, ho⟩
  | cmpI _ _ =>
    obtain ⟨-, hi, -⟩ := compareTo_next h
    exact hi
  | jmpR _ | jzR _ | jnzR _ | jcR _ | jncR _ =>
    obtain ⟨ho, -⟩ := jumpIf_next h
    exact ho
  | callR _ =>
    obtain ⟨ho, -⟩ := callTo_next h
    exact ho
  | pushI _ | jmpI _ | jzI _ | jnzI _ | jcI _ | jncI _ | callI _ | ret | intI _ | iret | halt | nop => rfl

/-- Settles O23: no meaning faults, so an ill-formed instruction, which cannot go on, is refused (U2, log 10). -/
theorem reservedRegistersNeverRun : Obligations.ReservedRegistersNeverRun := by
  intro i s hwf
  cases h : exec i s with
  | next t => exact absurd (exec_next_wf h) (by simp [hwf])
  | fault r => nomatch r
  | refused r => exact ⟨r, rfl⟩

/-! ## The step -/

/-- Fetching at an odd `pc` is carried out unless FETCH_ODD refuses it (R52). -/
theorem fetch_gate {s : State} (h : isOdd s.pc = false ∨ s.cfg.fetchOdd = .bytewise) :
    (isOdd s.pc && s.cfg.fetchOdd == .refuse) = false := by
  obtain hodd | hbytewise := h
  · rw [hodd, Bool.false_and]
  · rw [hbytewise]
    exact Bool.and_false _

/-- Fetch of a 2-byte instruction whose bytes have values (R75). -/
theorem fetch_defined_two {s : State} {i0 i1 : Byte} (hgate : isOdd s.pc = false ∨ s.cfg.fetchOdd = .bytewise)
    (h0 : peek s s.pc = some i0) (h1 : peek s (s.pc + 1#16) = some i1) (hi : hasImm i0 = false) :
    fetch s = .ok ([i0, i1], s) := by
  simp [fetch, fetch_gate hgate, readByte_defined h0, readByte_defined h1, hi]

/-- Fetch of a 4-byte instruction whose bytes have values (R75). -/
theorem fetch_defined_four {s : State} {i0 i1 i2 i3 : Byte}
    (hgate : isOdd s.pc = false ∨ s.cfg.fetchOdd = .bytewise) (h0 : peek s s.pc = some i0)
    (h1 : peek s (s.pc + 1#16) = some i1) (hi : hasImm i0 = true) (h2 : peek s (s.pc + 2#16) = some i2)
    (h3 : peek s (s.pc + 3#16) = some i3) : fetch s = .ok ([i0, i1, i2, i3], s) := by
  simp [fetch, fetch_gate hgate, readByte_defined h0, readByte_defined h1, readByte_defined h2, readByte_defined h3, hi]

/-- A step whose bytes decode runs the instruction (R75). -/
theorem step_of_decode_ok {s s₁ : State} {bytes rest : List Byte} {i : Instr} (hh : s.halted = false)
    (hf : fetch s = .ok (bytes, s₁)) (hd : decode s.cfg bytes = .ok (i, rest)) : step s = exec i s₁ := by
  simp [step, hh, hf, hd]

/-- A step whose bytes do not decode stops by the name of the decoding error (R79 to R81). -/
theorem step_of_decode_error {s s₁ : State} {bytes : List Byte} {e : DecodeError} (hh : s.halted = false)
    (hf : fetch s = .ok (bytes, s₁)) (hd : decode s.cfg bytes = .error e) : step s = .refused (refusalOf e) := by
  simp [step, hh, hf, hd]

/-- Settles O6: fetch of bytes with values gives the bytes and leaves the state, for both lengths (R75). -/
theorem stepRunsTheDecodedInstruction : Obligations.StepRunsTheDecodedInstruction := by
  intro s i0 i1 i2 i3 i hh hgate h0 h1
  refine ⟨fun hi hd => ?two, fun hi h2 h3 hd => ?four⟩
  case two => exact step_of_decode_ok hh (fetch_defined_two hgate h0 h1 hi) hd
  case four => exact step_of_decode_ok hh (fetch_defined_four hgate h0 h1 hi h2 h3) hd

/-- Settles O7: the bytes are fetched as for an instruction, and it is their decoding that stops the step; at an odd
`pc` under FETCH_ODD = refuse it is the fetch (U1, U2, U6). -/
theorem stepStopsOnReservedEncodings : Obligations.StepStopsOnReservedEncodings := by
  intro s i0 i1 i2 i3 e hh
  refine ⟨fun hgate h0 h1 => ⟨fun hi hd => ?two, fun hi h2 h3 hd => ?four⟩, ?odd⟩
  case two => exact step_of_decode_error hh (fetch_defined_two hgate h0 h1 hi) hd
  case four => exact step_of_decode_error hh (fetch_defined_four hgate h0 h1 hi h2 h3) hd
  case odd =>
    intro hodd hrefuse
    have hf : fetch s = .error (.oddFetch s.pc) := by simp [fetch, hodd, hrefuse]
    simp [step, hh, hf]

/-- A halted machine's step is the machine itself (R24, U17). -/
theorem step_halted {s : State} (h : s.halted = true) : step s = .next s := by
  rw [step, if_pos h]

/-- A run whose first step goes on is the rest of the run from there. -/
theorem run_succ (M : Host.Core) {k : Nat} {s t : M.State} (h : M.step s = .next t) :
    M.run (k + 1) s = M.run k t := by
  rw [Host.Core.run, h]

/-- Settles O8: by induction on the number of steps (R24, R152, U17). -/
theorem haltedMachineStays : Obligations.HaltedMachineStays := by
  intro s k h
  refine ⟨step_halted h, ?_⟩
  induction k with
  | zero => rfl
  | succ k ih =>
    have hstep : Sys2Proof.core.step s = .next s := step_halted h
    exact (run_succ Sys2Proof.core hstep).trans ih

/-- Settles O59: the effect of HALT is its definition, and the state it leaves is halted (R152, decision D27). -/
theorem haltCompletes : Obligations.HaltCompletes :=
  fun _ => ⟨rfl, step_halted rfl⟩

/-! ## Reset -/

/-- Settles O10: no location is listed and the parameters are the defaults (R27, log 41). -/
theorem resetMeetsInvariant : Obligations.ResetMeetsInvariant := by
  unfold Obligations.ResetMeetsInvariant
  decide

/-- Every register but PC reads 0x0000 right after reset (R27). -/
theorem getReg_reset {r : Reg} (len : Nat) (h : r ≠ .pc) : getReg State.reset len r = 0#16 := by
  cases r with
  | pc => exact absurd rfl h
  | _ => rfl

/-- Settles O11: the fields of the reset state, one by one (R27, R180). -/
theorem resetZeroesTheRegisters : Obligations.ResetZeroesTheRegisters :=
  ⟨fun _ len h => getReg_reset len h, rfl, rfl, State.flag_reset, fun key => Memory.read_nil key⟩

/-- The registers after a reset of a machine that has run are those of a fresh one (R180). -/
theorem getReg_resetMachine (s : State) (len : Nat) (r : Reg) :
    getReg (resetMachine s) len r = getReg State.reset len r := by
  cases r <;> rfl

/-- The canonical form says that locations rise strictly along the list (log 41). -/
theorem Memory.wf_iff_pairwise (m : Memory) : m.wf = true ↔ m.Pairwise fun cell cell' => cell.1 < cell'.1 := by
  rw [← List.isChain_iff_pairwise]
  induction m with
  | nil => simp [Memory.wf]
  | cons cell rest ih =>
    cases rest with
    | nil => simp [Memory.wf]
    | cons cell' tail => simp only [Memory.wf, Bool.and_eq_true, decide_eq_true_eq, List.isChain_cons_cons, ih]

/-- Keeping some of the cells keeps the canonical form. -/
theorem Memory.wf_filter {m : Memory} (p : Host.Cell → Bool) (h : m.wf = true) : Memory.wf (m.filter p) = true := by
  rw [Memory.wf_iff_pairwise] at h ⊢
  exact h.filter p

/-- Keeping some of the cells lists only locations that were listed. -/
theorem Memory.within_filter {cfg : Config} {m : Memory} (p : Host.Cell → Bool) (h : m.within cfg = true) :
    Memory.within cfg (m.filter p) = true := by
  simp only [Memory.within, List.all_eq_true] at h ⊢
  exact fun cell hcell => h cell (List.mem_of_mem_filter hcell)

/-- Settles O12: the registers are those of a fresh machine, and of the cells those of ROM are kept (R180, log 38). -/
theorem resetKeepsRomAndClearsTheRest : Obligations.ResetKeepsRomAndClearsTheRest := by
  intro s
  refine ⟨fun r hr => ?registers, rfl, rfl, fun key hkey => ?rom, fun key hkey => ?rest, fun hinv => ?invariant⟩
  case registers => rw [getReg_resetMachine, getReg_reset 2 hr]
  case rom => rw [resetMachine_read, if_pos hkey]
  case rest => rw [resetMachine_read, if_neg (by simp [hkey])]
  case invariant =>
    simp only [State.inv, Bool.and_eq_true] at hinv ⊢
    obtain ⟨⟨hwf, hwithin⟩, hcfg⟩ := hinv
    exact ⟨⟨Memory.wf_filter _ hwf, Memory.within_filter _ hwithin⟩, hcfg⟩

/-! ## The image -/

/-- The cells of an image lie in ROM from the start on (R88). -/
theorem mem_imageCells {image : List Byte} {start : Nat} {cell : Host.Cell} (h : cell ∈ imageCells start image) :
    start ≤ cell.1 ∧ cell.1 < 0x8000 := by
  induction image generalizing start with
  | nil => simp [imageCells] at h
  | cons v rest ih =>
    rw [imageCells] at h
    split at h
    · next hlt =>
      obtain rfl | hmem := List.mem_cons.1 h
      · exact ⟨Nat.le_refl _, hlt⟩
      · obtain ⟨hlow, hhigh⟩ := ih hmem
        exact ⟨by omega, hhigh⟩
    · cases h

/-- An image's cells are in canonical form: each lies below those loaded after it. -/
theorem imageCells_wf (image : List Byte) (start : Nat) : Memory.wf (imageCells start image) = true := by
  rw [Memory.wf_iff_pairwise]
  induction image generalizing start with
  | nil => exact List.Pairwise.nil
  | cons v rest ih =>
    rw [imageCells]
    split
    · refine List.pairwise_cons.2 ⟨fun cell hcell => ?_, ih (start + 1)⟩
      obtain ⟨hlow, -⟩ := mem_imageCells hcell
      exact hlow
    · exact List.Pairwise.nil

/-- An image's cells are locations the machine has (R42). -/
theorem imageCells_within (cfg : Config) (image : List Byte) (start : Nat) :
    Memory.within cfg (imageCells start image) = true := by
  rw [Memory.within, List.all_eq_true]
  intro cell hcell
  obtain ⟨-, hrom⟩ := mem_imageCells hcell
  simp [isLocation, hrom]

/-- Settles O13: what a loaded image reads as, and its cells are canonical locations of ROM (R88, decision D30). -/
theorem imageBecomesRom : Obligations.ImageBecomesRom := by
  intro image k
  refine ⟨loadImage_read State.reset image k, ?_⟩
  simp only [State.inv, Bool.and_eq_true]
  exact ⟨⟨imageCells_wf image 0, imageCells_within defaultConfig image 0⟩, (by decide : defaultConfig.wf = true)⟩

/-! ## The interrupt table -/

/-- With the default reading entry `n` is 2n below 0xFFFE (R63, decision D23). -/
theorem vectorLowAddr_toNat {cfg : Config} {n : Word} (hv : cfg.vectorLow = .lastByte) (hn : n.toNat ≤ 127) :
    (vectorLowAddr cfg n).toNat = 0xFFFE - 2 * n.toNat := by
  simp only [vectorLowAddr, hv]
  bv_omega

/-- Settles O55: parity, range and distinctness follow from the entry's address (R63, decision D23). -/
theorem interruptTableEntries : Obligations.InterruptTableEntries := by
  intro cfg n n' hv hn hn'
  have haddr := vectorLowAddr_toNat hv hn
  refine ⟨haddr, ?even, ?range, ?distinct⟩
  case even =>
    rw [isOdd_eq_false_iff, haddr]
    omega
  case range => omega
  case distinct =>
    intro heq
    have haddr' := vectorLowAddr_toNat hv hn'
    rw [← heq] at haddr'
    apply BitVec.eq_of_toNat_eq
    omega

end Sys2Proof.Machine

/-! SUPPORT. Proofs of the statements about the register file, the flags and the arithmetic laws (spec/10_state.md R13
to R21, spec/41_arithmetic.md R110, spec/42_shift_logic.md R120, R121). -/

namespace Sys2Proof.Machine

/-! ## The register file and one flag -/

/-- A register reads back what was written to it, but PC, Z and the reserved slots (R13, R14, decisions D5, D6). -/
theorem getReg_putReg_same (s : State) (r : Reg) (v : Word) (len : Nat) :
    getReg (putReg s r v) len r =
      if r ≠ .pc ∧ r ≠ .z ∧ r.implemented = true then v else getReg s len r := by
  cases r <;> rfl

/-- Settles O24: reads and writes of implemented and of reserved slots, and what a write leaves (R13, R14, U2). -/
theorem registerFileReadsBack : Obligations.RegisterFileReadsBack := by
  intro s r r' v len
  refine ⟨fun hi => ⟨readReg_implemented s len hi, writeReg_implemented s v hi⟩, fun hi => ?reserved, rfl, ?readBack,
    putReg_mem s r v, putReg_pc s r v, putReg_halted s r v⟩
  case reserved => exact ⟨by simp [readReg, hi], by simp [writeReg, hi]⟩
  case readBack =>
    by_cases heq : r' = r
    · subst heq
      simpa using getReg_putReg_same s r' v len
    · rw [if_neg fun h => heq h.1, getReg_putReg_other s v len heq]

/-- Settles O26: one bit of F is written, and it is the one the flag is read from (R6, R20). -/
theorem flagWriteChangesOneBit : Obligations.FlagWriteChangesOneBit :=
  fun s fl b k hk => ⟨State.setFlag_bit s fl b k hk, State.flag_setFlag_same s fl b⟩

/-! ## Sign and value of a word -/

/-- Bit 15 of a word is its sign. -/
theorem getLsbD_fifteen (w : Word) : w.getLsbD 15 = decide (32768 ≤ w.toNat) := BitVec.msb_eq_decide w

/-- The two's-complement value of a word. -/
theorem toInt_cases (w : Word) :
    (w.toNat < 32768 ∧ w.toInt = w.toNat) ∨ (32768 ≤ w.toNat ∧ w.toInt = (w.toNat : Int) - 65536) := by
  have hw := w.isLt
  rw [BitVec.toInt_eq_toNat_cond]
  split <;> omega

/-- A word is 0 when its number is. -/
theorem beq_zero_eq (w : Word) : (w == 0#16) = decide (w.toNat = 0) := by
  rw [Bool.eq_iff_iff, beq_iff_eq, decide_eq_true_eq, BitVec.toNat_eq, BitVec.toNat_ofNat]

/-! ## Addition and subtraction -/

/-- The 17-bit sum does not wrap (R110). -/
theorem sum17_toNat (a b : Word) (cin : Bool) :
    (a.setWidth 17 + b.setWidth 17 + (BitVec.ofBool cin).setWidth 17).toNat = a.toNat + b.toNat + cin.toNat := by
  have ha := a.isLt
  have hb := b.isLt
  have hc := cin.toNat_le
  simp only [BitVec.toNat_add, BitVec.toNat_setWidth, BitVec.toNat_ofBool]
  omega

/-- The result of an addition is the sum modulo 2^16 (R110). -/
theorem addFlags_r (a b : Word) (cin : Bool) :
    (addFlags a b cin).r.toNat = (a.toNat + b.toNat + cin.toNat) % 65536 := by
  rw [addFlags, BitVec.toNat_setWidth, sum17_toNat]

/-- The carry of an addition is bit 16 of the sum (R110). -/
theorem addFlags_c (a b : Word) (cin : Bool) :
    (addFlags a b cin).c = decide (65536 ≤ a.toNat + b.toNat + cin.toNat) := by
  rw [← sum17_toNat]
  exact BitVec.msb_eq_decide (a.setWidth 17 + b.setWidth 17 + (BitVec.ofBool cin).setWidth 17)

/-- The overflow of an addition: equal signs and a result of the other sign, which is the signed sum out of range
(R110). -/
theorem addFlags_o (a b : Word) (cin : Bool) :
    (addFlags a b cin).o = outOfSigned (a.toInt + b.toInt + cin.toNat) := by
  have ho : (addFlags a b cin).o = ((a.getLsbD 15 == b.getLsbD 15) &&
    ((addFlags a b cin).r.getLsbD 15 != a.getLsbD 15)) := rfl
  have hr := addFlags_r a b cin
  have hc := cin.toNat_le
  have ha := toInt_cases a
  have hb := toInt_cases b
  have hlta := a.isLt
  have hltb := b.isLt
  rw [ho, Bool.eq_iff_iff]
  simp only [outOfSigned, getLsbD_fifteen, Bool.and_eq_true, beq_iff_eq, bne_iff_ne, ne_eq, decide_eq_decide,
    decide_eq_true_eq]
  omega

/-- Z of an addition is the result's (R110). -/
theorem addFlags_z (a b : Word) (cin : Bool) :
    (addFlags a b cin).z = decide ((a.toNat + b.toNat + cin.toNat) % 65536 = 0) := by
  rw [← addFlags_r]
  exact beq_zero_eq _

/-- The result of a subtraction is the difference modulo 2^16 (R110). -/
theorem subFlags_r (a b : Word) (bin : Bool) :
    (subFlags a b bin).r.toNat = (a.toNat + 131072 - b.toNat - bin.toNat) % 65536 := by
  have ha := a.isLt
  have hb := b.isLt
  have hc := bin.toNat_le
  simp only [subFlags, BitVec.toNat_sub, BitVec.toNat_setWidth, BitVec.toNat_ofBool]
  omega

/-- The overflow of a subtraction: different signs and a result of the other sign, which is the signed difference out of
range (R110). -/
theorem subFlags_o (a b : Word) (bin : Bool) :
    (subFlags a b bin).o = outOfSigned (a.toInt - b.toInt - bin.toNat) := by
  have ho : (subFlags a b bin).o = ((a.getLsbD 15 != b.getLsbD 15) &&
    ((subFlags a b bin).r.getLsbD 15 != a.getLsbD 15)) := rfl
  have hr := subFlags_r a b bin
  have hc := bin.toNat_le
  have ha := toInt_cases a
  have hb := toInt_cases b
  have hlta := a.isLt
  have hltb := b.isLt
  rw [ho, Bool.eq_iff_iff]
  simp only [outOfSigned, getLsbD_fifteen, Bool.and_eq_true, bne_iff_ne, ne_eq, decide_eq_decide, decide_eq_true_eq]
  omega

/-- Z of a subtraction is the result's (R110). -/
theorem subFlags_z (a b : Word) (bin : Bool) :
    (subFlags a b bin).z = decide ((a.toNat + 131072 - b.toNat - bin.toNat) % 65536 = 0) := by
  rw [← subFlags_r]
  exact beq_zero_eq _

/-- Settles O27: result, carry, overflow and zero of an addition, one lemma each (R110, decision D16). -/
theorem addFlagsReportTheSum : Obligations.AddFlagsReportTheSum :=
  fun a b cin => ⟨addFlags_r a b cin, addFlags_c a b cin, addFlags_o a b cin, addFlags_z a b cin⟩

/-- Settles O28: result, borrow, overflow and zero of a subtraction; the borrow is compared as the rule says (R110,
decision D16). -/
theorem subFlagsReportTheDifference : Obligations.SubFlagsReportTheDifference :=
  fun a b bin => ⟨subFlags_r a b bin, rfl, subFlags_o a b bin, subFlags_z a b bin⟩

/-- Without a borrow in, a difference is zero when the words are equal (R135). -/
theorem subFlags_z_of_compare (a b : Word) : (subFlags a b false).z = decide (a = b) := by
  have ha := a.isLt
  have hb := b.isLt
  rw [subFlags_z, decide_eq_decide, BitVec.toNat_eq, Bool.toNat_false]
  omega

/-! ## Shifts -/

/-- SHL multiplies by the power of two (R120). -/
theorem shlResult_eq (a n : Word) : shlResult a n = BitVec.ofNat 16 (a.toNat * 2 ^ n.toNat) := by
  apply BitVec.eq_of_toNat_eq
  unfold shlResult
  split
  · next hn =>
    have hdvd : 2 ^ 16 ∣ a.toNat * 2 ^ n.toNat := Dvd.dvd.mul_left (Nat.pow_dvd_pow 2 hn) _
    rw [BitVec.toNat_ofNat, BitVec.toNat_ofNat, Nat.mod_eq_zero_of_dvd hdvd]
  · rw [BitVec.toNat_shiftLeft, Nat.shiftLeft_eq, BitVec.toNat_ofNat]

/-- The last bit out of bit 15 is bit 16 of the product (R120). -/
theorem shlCarry_eq (a n : Word) : shlCarry a n = (a.toNat * 2 ^ n.toNat).testBit 16 := by
  rw [Nat.testBit_mul_two_pow, shlCarry, BitVec.getLsbD]
  by_cases hle : n.toNat ≤ 16
  · by_cases hpos : 1 ≤ n.toNat
    · simp [hle, hpos]
    · have hzero : n.toNat = 0 := by omega
      simp [hzero, Nat.testBit_lt_two_pow a.isLt]
  · simp [hle]

/-- SHR divides by the power of two (R121). -/
theorem shrResult_eq (a n : Word) : shrResult a n = BitVec.ofNat 16 (a.toNat / 2 ^ n.toNat) := by
  have ha := a.isLt
  apply BitVec.eq_of_toNat_eq
  unfold shrResult
  split
  · next hn =>
    have hlt : a.toNat < 2 ^ n.toNat := Nat.lt_of_lt_of_le ha (Nat.pow_le_pow_right (by decide) hn)
    rw [Nat.div_eq_of_lt hlt]
  · have hlt : a.toNat / 2 ^ n.toNat < 2 ^ 16 := Nat.lt_of_le_of_lt (Nat.div_le_self _ _) ha
    rw [BitVec.toNat_ushiftRight, Nat.shiftRight_eq_div_pow, BitVec.toNat_ofNat, Nat.mod_eq_of_lt hlt]

/-- The last bit out of bit 0 is the lowest bit of twice the quotient (R121). -/
theorem shrCarry_eq (a n : Word) : shrCarry a n = (2 * a.toNat / 2 ^ n.toNat).testBit 0 := by
  rw [Nat.testBit_div_two_pow, Nat.zero_add, shrCarry]
  cases hn : n.toNat with
  | zero => simp [Nat.testBit_zero]
  | succ k =>
    rw [Nat.testBit_succ, Nat.mul_div_cancel_left _ (by decide : 0 < 2), Nat.add_sub_cancel]
    by_cases hk : k < 16
    · rw [if_pos (by omega)]
      rfl
    · rw [if_neg (by omega), ← BitVec.getLsbD, BitVec.getLsbD_of_ge _ _ (by omega)]

end Sys2Proof.Machine

/-! SUPPORT. Proofs of the completion statements of the instructions that access no memory (spec/40_data_movement.md
MOVE, spec/41_arithmetic.md, spec/42_shift_logic.md, spec/43_io.md, spec/44_compare_control.md): for each family the
state it goes on in, then the statements, instruction by instruction. -/

namespace Sys2Proof.Machine

/-! ## The families -/

section Families

variable (s : State) (len : Nat) {rC : Reg} {o : Operand}

/-- MOVE puts the operand's value into rC (R102). -/
theorem moveTo_eq (hi : rC.implemented = true) (ho : operandOk o = true) :
    moveTo len rC o s = .next ((putReg s rC (operandValue s len o)).withPc (nextPc s len)) := by
  simp [moveTo, readOperand_eq s len ho, hi]

/-- The arithmetic instructions put the operation's result and flags into rC and F (R117). -/
theorem arith_eq (op : Word → Word → Bool → Alu) (hi : rC.implemented = true) (ho : operandOk o = true) :
    arith op len rC o s = .next (afterArith s len rC (op (getReg s len rC) (operandValue s len o) (s.flag .c))) := by
  simp [arith, readOperand_eq s len ho, hi, afterArith]

/-- The bitwise instructions put the operation's result into rC and Z on top (R127). -/
theorem logic_eq (op : Word → Word → Word) (hi : rC.implemented = true) (ho : operandOk o = true) :
    logic op len rC o s = .next (afterLogic s len rC (op (getReg s len rC) (operandValue s len o))) := by
  simp [logic, readOperand_eq s len ho, hi, afterLogic]

/-- The shifts put the operation's result into rC and Z, C and O on top (R127). -/
theorem shift_eq (result : Word → Word → Word) (carry : Word → Word → Bool) (hi : rC.implemented = true)
    (ho : operandOk o = true) :
    shift result carry len rC o s = .next (afterShift s len rC (result (getReg s len rC) (operandValue s len o))
      (shiftCarry s (carry (getReg s len rC) (operandValue s len o))) (shiftOverflow s)) := by
  simp [shift, readOperand_eq s len ho, hi, afterShift]

/-- CMP sets Z for equal and C for below (R135). -/
theorem compareTo_eq (hi : rC.implemented = true) (ho : operandOk o = true) :
    compareTo len rC o s = .next (((s.setFlag .z (decide (getReg s len rC = operandValue s len o))).setFlag .c
      (decide ((getReg s len rC).toNat < (operandValue s len o).toNat))).withPc (nextPc s len)) := by
  have hc : (subFlags (getReg s len rC) (operandValue s len o) false).c =
    decide ((getReg s len rC).toNat < (operandValue s len o).toNat) := rfl
  simp [compareTo, readOperand_eq s len ho, hi, subFlags_z_of_compare, hc]

/-- The jumps choose between the operand's value and the next instruction (R136). -/
theorem jumpIf_eq (cond : Bool) (ho : operandOk o = true) :
    jumpIf cond len o s = .next (s.withPc (if cond then operandValue s len o else nextPc s len)) := by
  simp [jumpIf, readOperand_eq s len ho]

/-- OUTB to a port 0 to 255 appends the event (R131). -/
theorem outTo_eq (hi : rC.implemented = true) (ho : operandOk o = true) (hp : (operandValue s len o).toNat ≤ 255) :
    outTo len o rC s = .next ((s.withPortLog (s.portLog ++
      [.write ((operandValue s len o).setWidth 8) (getReg s len rC)])).withPc (nextPc s len)) := by
  simp [outTo, readOperand_eq s len ho, hi, portWrite_complete s _ hp]

end Families

/-! ## MOVE, arithmetic, logic, compare, jumps -/

/-- Settles O36: both forms are MOVE's family (R102). -/
theorem moveCompletes : Obligations.MoveCompletes :=
  fun s _ _ _ hC => ⟨fun hD => moveTo_eq (o := .reg _) s 2 hC hD, moveTo_eq (o := .imm _) s 4 hC rfl⟩

/-- Settles O41: the arithmetic family with no carry in (R111, R113, R115, R116). -/
theorem addSubIncDecComplete : Obligations.AddSubIncDecComplete := by
  intro s rC rD imm hC
  refine ⟨fun hD => ⟨?addR, ?subR⟩, ?addI, ?subI, ?incR, ?decR⟩
  case addR => exact arith_eq (o := .reg rD) s 2 addOp hC hD
  case subR => exact arith_eq (o := .reg rD) s 2 subOp hC hD
  case addI => exact arith_eq (o := .imm imm) s 4 addOp hC rfl
  case subI => exact arith_eq (o := .imm imm) s 4 subOp hC rfl
  case incR => exact arith_eq (o := .imm 1#16) s 2 addOp hC rfl
  case decR => exact arith_eq (o := .imm 1#16) s 2 subOp hC rfl

/-- Settles O42: the arithmetic family with `F.C` in (R112, R114). -/
theorem adcSbcComplete : Obligations.AdcSbcComplete := by
  intro s rC rD imm hC
  refine ⟨fun hD => ⟨?adcR, ?sbcR⟩, ?adcI, ?sbcI⟩
  case adcR => exact arith_eq (o := .reg rD) s 2 adcOp hC hD
  case sbcR => exact arith_eq (o := .reg rD) s 2 sbcOp hC hD
  case adcI => exact arith_eq (o := .imm imm) s 4 adcOp hC rfl
  case sbcI => exact arith_eq (o := .imm imm) s 4 sbcOp hC rfl

/-- Settles O45: the bitwise family (R122 to R126). -/
theorem bitwiseOperationsComplete : Obligations.BitwiseOperationsComplete := by
  intro s rC rD imm hC
  refine ⟨fun hD => ⟨?andR, ?orR, ?norR, ?xorR⟩, ?andI, ?orI, ?norI, ?xorI, ?notR⟩
  case andR => exact logic_eq (o := .reg rD) s 2 andOp hC hD
  case orR => exact logic_eq (o := .reg rD) s 2 orOp hC hD
  case norR => exact logic_eq (o := .reg rD) s 2 norOp hC hD
  case xorR => exact logic_eq (o := .reg rD) s 2 xorOp hC hD
  case andI => exact logic_eq (o := .imm imm) s 4 andOp hC rfl
  case orI => exact logic_eq (o := .imm imm) s 4 orOp hC rfl
  case norI => exact logic_eq (o := .imm imm) s 4 norOp hC rfl
  case xorI => exact logic_eq (o := .imm imm) s 4 xorOp hC rfl
  case notR => exact logic_eq (o := .imm 0#16) s 2 notOp hC rfl

/-- Settles O48: both forms are CMP's family (R135). -/
theorem cmpCompletes : Obligations.CmpCompletes :=
  fun s _ _ _ hC => ⟨fun hD => compareTo_eq (o := .reg _) s 2 hC hD, compareTo_eq (o := .imm _) s 4 hC rfl⟩

/-- A jump on a flag that must be 0. -/
theorem jumpIf_not_eq (s : State) (len : Nat) {o : Operand} (fl : Flag) (ho : operandOk o = true) :
    jumpIf (!s.flag fl) len o s =
      .next (s.withPc (if s.flag fl = false then operandValue s len o else nextPc s len)) := by
  rw [jumpIf_eq s len _ ho]
  cases s.flag fl <;> rfl

/-- Settles O49: the jumps' family, with the condition of each (R137 to R141). -/
theorem jumpsComplete : Obligations.JumpsComplete := by
  intro s rC imm hC
  refine ⟨?jmpR, ?jmpI, ?jzR, ?jzI, ?jnzR, ?jnzI, ?jcR, ?jcI, ?jncR, ?jncI⟩
  case jmpR => exact jumpIf_eq (o := .reg rC) s 2 true hC
  case jmpI => exact jumpIf_eq (o := .imm imm) s 4 true rfl
  case jzR => exact jumpIf_eq (o := .reg rC) s 2 (s.flag .z) hC
  case jzI => exact jumpIf_eq (o := .imm imm) s 4 (s.flag .z) rfl
  case jnzR => exact jumpIf_not_eq (o := .reg rC) s 2 .z hC
  case jnzI => exact jumpIf_not_eq (o := .imm imm) s 4 .z rfl
  case jcR => exact jumpIf_eq (o := .reg rC) s 2 (s.flag .c) hC
  case jcI => exact jumpIf_eq (o := .imm imm) s 4 (s.flag .c) rfl
  case jncR => exact jumpIf_not_eq (o := .reg rC) s 2 .c hC
  case jncI => exact jumpIf_not_eq (o := .imm imm) s 4 .c rfl

/-- Settles O25: Z reads 0x0000, its writes are discarded, and as an operand it is 0 in MOVE and CMP (R21). -/
theorem zeroRegisterIsConstant : Obligations.ZeroRegisterIsConstant := by
  refine ⟨fun _ _ => rfl, fun _ _ => rfl, fun s => moveTo_eq (rC := .a) (o := .reg .z) s 2 rfl rfl, ?compare⟩
  case compare =>
    intro s t hpos h
    cases (compareTo_eq (rC := .a) (o := .reg .z) s 2 rfl rfl).symm.trans h
    refine ⟨?_, State.flag_setFlag_same _ _ _⟩
    rw [State.flag_withPc, State.flag_setFlag_other, State.flag_setFlag_same]
    · rfl
    · exact FlagPos_pos_ne hpos (by decide)

/-! ## The 32-bit addition -/

/-- Of Z, C and O, written in this order, C reads as written. -/
theorem State.flag_setZCO_c {s : State} (z c o : Bool) (hpos : s.cfg.flagPos.distinct = true) :
    (s.setZCO z c o).flag .c = c := by
  rw [State.setZCO, State.flag_setFlag_other, State.flag_setFlag_same]
  exact FlagPos_pos_ne hpos (by decide)

/-- An addition leaves its carry in `F.C`. -/
theorem afterArith_flag_c {s : State} (len : Nat) (rC : Reg) (res : Alu) (hpos : s.cfg.flagPos.distinct = true) :
    (afterArith s len rC res).flag .c = res.c := by
  rw [afterArith, State.flag_withPc, State.flag_setZCO_c]
  rwa [putReg_cfg]

/-- What ADD A, C leaves for the high words. -/
theorem addR_a_c_next {s t : State} (hpos : s.cfg.flagPos.distinct = true) (h : exec (.addR .a .c) s = .next t) :
    t.a = (addFlags s.a s.c false).r ∧ t.flag .c = (addFlags s.a s.c false).c ∧ t.b = s.b ∧ t.d = s.d ∧
      t.cfg = s.cfg := by
  cases (arith_eq (rC := .a) (o := .reg .c) s 2 addOp rfl rfl).symm.trans h
  exact ⟨rfl, afterArith_flag_c 2 .a _ hpos, rfl, rfl, rfl⟩

/-- What ADC B, D leaves. -/
theorem adcR_b_d_next {s t : State} (hpos : s.cfg.flagPos.distinct = true) (h : exec (.adcR .b .d) s = .next t) :
    t.b = (addFlags s.b s.d (s.flag .c)).r ∧ t.flag .c = (addFlags s.b s.d (s.flag .c)).c ∧ t.a = s.a := by
  cases (arith_eq (rC := .b) (o := .reg .d) s 2 adcOp rfl rfl).symm.trans h
  exact ⟨rfl, afterArith_flag_c 2 .b _ hpos, rfl⟩

/-- Settles O43: the carry of the low words is the carry into the high words (R110, R112). -/
theorem addThenAdcAddsThirtyTwoBits : Obligations.AddThenAdcAddsThirtyTwoBits := by
  intro s t u hpos hadd hadc
  obtain ⟨hta, htc, htb, htd, hcfg⟩ := addR_a_c_next hpos hadd
  obtain ⟨hub, huc, hua⟩ := adcR_b_d_next (by rwa [hcfg]) hadc
  have hlow := addFlags_r s.a s.c false
  have hhigh := addFlags_r s.b s.d (t.flag .c)
  have hcarry : (t.flag .c).toNat = (s.a.toNat + s.c.toNat) / 65536 := by
    have ha := s.a.isLt
    have hc := s.c.isLt
    rw [htc, addFlags_c, Bool.toNat_false, Nat.add_zero]
    by_cases hle : 65536 ≤ s.a.toNat + s.c.toNat
    · rw [decide_eq_true hle, Bool.toNat_true]
      omega
    · rw [decide_eq_false hle, Bool.toNat_false]
      omega
  rw [hub, hua, huc, hta, htb, htd, addFlags_c, decide_eq_decide]
  rw [Bool.toNat_false] at hlow
  constructor <;> omega

/-! ## Shifts -/

/-- `F.C` after a shift is the last bit shifted out under SHIFT_FLAGS = last bit (decision D17). -/
theorem shiftCarry_lastBit {s : State} (last : Bool) (h : s.cfg.shiftFlags = .lastBit) : shiftCarry s last = last := by
  simp [shiftCarry, h]

/-- SHL completes with the product (R120). -/
theorem shl_complete (s : State) (len : Nat) {rC : Reg} {o : Operand} (hi : rC.implemented = true)
    (ho : operandOk o = true) :
    ∃ c v, shift shlResult shlCarry len rC o s = .next (afterShift s len rC
        (BitVec.ofNat 16 ((getReg s len rC).toNat * 2 ^ (operandValue s len o).toNat)) c v) ∧
      (s.cfg.shiftFlags = .lastBit →
        c = ((getReg s len rC).toNat * 2 ^ (operandValue s len o).toNat).testBit 16) := by
  refine ⟨_, _, (shift_eq s len _ _ hi ho).trans (by rw [shlResult_eq]), fun hlast => ?_⟩
  rw [shiftCarry_lastBit _ hlast, shlCarry_eq]

/-- SHR completes with the quotient (R121). -/
theorem shr_complete (s : State) (len : Nat) {rC : Reg} {o : Operand} (hi : rC.implemented = true)
    (ho : operandOk o = true) :
    ∃ c v, shift shrResult shrCarry len rC o s = .next (afterShift s len rC
        (BitVec.ofNat 16 ((getReg s len rC).toNat / 2 ^ (operandValue s len o).toNat)) c v) ∧
      (s.cfg.shiftFlags = .lastBit →
        c = (2 * (getReg s len rC).toNat / 2 ^ (operandValue s len o).toNat).testBit 0) := by
  refine ⟨_, _, (shift_eq s len _ _ hi ho).trans (by rw [shrResult_eq]), fun hlast => ?_⟩
  rw [shiftCarry_lastBit _ hlast, shrCarry_eq]

/-- Settles O44: both shifts, both forms (R120, R121). -/
theorem shiftsComplete : Obligations.ShiftsComplete :=
  fun s _ rD imm hC =>
    ⟨fun hD => ⟨shl_complete (o := .reg rD) s 2 hC hD, shr_complete (o := .reg rD) s 2 hC hD⟩,
      shl_complete (o := .imm imm) s 4 hC rfl, shr_complete (o := .imm imm) s 4 hC rfl⟩

/-! ## Ports -/

/-- The oldest answer pending from a port is taken (R60). -/
theorem takeAnswer_append {port : Byte} {pre post : List (Byte × Word)} {w : Word} (h : ∀ w', (port, w') ∉ pre) :
    takeAnswer port (pre ++ (port, w) :: post) = some (w, pre ++ post) := by
  induction pre with
  | nil => simp [takeAnswer]
  | cons answer rest ih =>
    obtain ⟨p, v⟩ := answer
    have hne : p ≠ port := by
      rintro rfl
      exact h v List.mem_cons_self
    have hrest := ih fun w' hw' => h w' (List.mem_cons_of_mem _ hw')
    simp [takeAnswer, hne, hrest]

/-- With no answer pending from a port, none is taken (R60). -/
theorem takeAnswer_none {port : Byte} {l : List (Byte × Word)} (h : ∀ w, (port, w) ∉ l) : takeAnswer port l = none := by
  induction l with
  | nil => rfl
  | cons answer rest ih =>
    obtain ⟨p, v⟩ := answer
    have hne : p ≠ port := by
      rintro rfl
      exact h v List.mem_cons_self
    have hrest := ih fun w hw => h w (List.mem_cons_of_mem _ hw)
    simp [takeAnswer, hne, hrest]

/-- What a port read takes from the pending answers is what `answered` says (R60). -/
theorem answered_of_takeAnswer {s : State} {port : Byte} {v : Word} {left : List (Byte × Word)}
    (h : takeAnswer port s.portIn = some (v, left) ∨ (takeAnswer port s.portIn = none ∧ left = s.portIn)) :
    answered s port v left := by
  constructor
  · intro pre w post hin hpre
    have htake := takeAnswer_append (post := post) (w := w) hpre
    rw [← hin] at htake
    obtain hsome | ⟨hnone, -⟩ := h
    · cases hsome.symm.trans htake
      exact ⟨rfl, rfl⟩
    · cases hnone.symm.trans htake
  · intro habsent
    obtain hsome | ⟨-, hleft⟩ := h
    · cases hsome.symm.trans (takeAnswer_none habsent)
    · exact hleft

/-- INB from a port 0 to 255 completes with the device's answer (R130). -/
theorem inFrom_complete (s : State) (len : Nat) {rC : Reg} {o : Operand} (hi : rC.implemented = true)
    (ho : operandOk o = true) (hp : (operandValue s len o).toNat ≤ 255) :
    ∃ v left, inFrom len rC o s = .next (afterIn s len rC ((operandValue s len o).setWidth 8) v left) ∧
      answered s ((operandValue s len o).setWidth 8) v left := by
  obtain ⟨w, s₁, hread⟩ := portRead_complete s hp
  have hin : ∃ t, inFrom len rC o s = .next t := by simp [inFrom, readOperand_eq s len ho, hread, hi]
  obtain ⟨t, ht⟩ := hin
  obtain ⟨-, -, -, v, left, htaken, rfl⟩ := inFrom_next ht
  exact ⟨v, left, ht, answered_of_takeAnswer htaken⟩

/-- Settles O46: both forms are INB's family (R130, decision D26). -/
theorem inbCompletes : Obligations.InbCompletes :=
  fun s _ rD imm hC =>
    ⟨fun hD hp => inFrom_complete (o := .reg rD) s 2 hC hD hp, fun hp => inFrom_complete (o := .imm imm) s 4 hC rfl hp⟩

/-- Settles O47: both forms are OUTB's family (R131, decision D26). -/
theorem outbCompletes : Obligations.OutbCompletes := by
  intro s rC rD imm hC
  refine ⟨fun hD hp => ?outbR, fun hp => ?outbI⟩
  case outbR => exact outTo_eq (o := .reg rC) s 2 hD hC hp
  case outbI => exact outTo_eq (o := .imm imm) s 4 hC rfl hp

/-- A port number above 255 names no port (U10, log 25). -/
theorem portOf_above {p : Word} (hp : 255 < p.toNat) : portOf p = .error (.absentPort p) := by
  rw [portOf, if_pos hp]

/-- INB from a port above 255 stops. -/
theorem inFrom_above (s : State) (len : Nat) (rC : Reg) {o : Operand} (ho : operandOk o = true)
    (hp : 255 < (operandValue s len o).toNat) :
    inFrom len rC o s = .refused (.absentPort (operandValue s len o)) := by
  simp [inFrom, readOperand_eq s len ho, portRead, portOf_above hp]

/-- OUTB to a port above 255 stops. -/
theorem outTo_above (s : State) (len : Nat) {rC : Reg} {o : Operand} (hi : rC.implemented = true)
    (ho : operandOk o = true) (hp : 255 < (operandValue s len o).toNat) :
    outTo len o rC s = .refused (.absentPort (operandValue s len o)) := by
  simp [outTo, readOperand_eq s len ho, hi, portWrite, portOf_above hp]

/-- Settles O56: the ports above 255 and the interrupt numbers above 127 (U10, U13, logs 23, 25). -/
theorem numbersOutOfRangeStop : Obligations.NumbersOutOfRangeStop := by
  intro s rC rD imm hC hD
  refine ⟨fun hp => ?inbR, fun hp => ?outbR, fun hp => ⟨?inbI, ?outbI⟩, fun hi hn => ?intI⟩
  case inbR => exact inFrom_above (o := .reg rD) s 2 rC hD hp
  case outbR => exact outTo_above (o := .reg rC) s 2 hD hC hp
  case inbI => exact inFrom_above (o := .imm imm) s 4 rC rfl hp
  case outbI => exact outTo_above (o := .imm imm) s 4 hC rfl hp
  case intI => simp [exec, execIntI, hi, takeInterrupt, hn]

end Sys2Proof.Machine

/-! SUPPORT. Proofs of the statements about words in memory and the instructions that access them (spec/20_memory.md R43
to R53, spec/40_data_movement.md, spec/44_compare_control.md Calls and returns, U5, U7 to U9, U14). First where a 16-bit
access goes and which word memory holds at an address, then each family's completion and stops, then the round trips. -/

namespace Sys2Proof.Machine

/-! ## Where a 16-bit access goes -/

/-- An access at an even address, or at an odd one under MISALIGNED = split, starts at the address (R52). -/
theorem wordBase_aligned {cfg : Config} {a : Word} (h : isOdd a = false ∨ cfg.misaligned = .split) :
    wordBase cfg a = .ok a := by
  unfold wordBase
  split
  · next hodd =>
    obtain heven | hsplit := h
    · cases heven.symm.trans hodd
    · rw [hsplit]
  · rfl

/-- An access that is carried out starts at the address, or one below it under MISALIGNED = mask (R52). -/
theorem wordBase_ok {cfg : Config} {a base : Word} (h : wordBase cfg a = .ok base) :
    (base = a ∧ (isOdd a = false ∨ cfg.misaligned = .split)) ∨ (base = a - 1#16 ∧ isOdd a = true) := by
  unfold wordBase at h
  split at h
  · next hodd =>
    split at h
    · next hsplit => exact .inl ⟨(Except.ok.inj h).symm, .inr hsplit⟩
    · exact .inr ⟨(Except.ok.inj h).symm, hodd⟩
    · cases h
  · next hodd => exact .inl ⟨(Except.ok.inj h).symm, .inl (by simpa using hodd)⟩

/-- `isOdd` is the parity of the address (R52). -/
theorem isOdd_eq_true_iff (a : Word) : isOdd a = true ↔ a.toNat % 2 = 1 := by
  rw [← Bool.not_eq_false, isOdd_eq_false_iff]
  omega

/-- One below an odd address is even. -/
theorem isOdd_sub_one {a : Word} (ha : isOdd a = true) : isOdd (a - 1#16) = false := by
  rw [isOdd_eq_true_iff] at ha
  rw [isOdd_eq_false_iff]
  bv_omega

/-- Two below an even address is even. -/
theorem isOdd_sub_two_of_even {a : Word} (ha : isOdd a = false) : isOdd (a - 2#16) = false := by
  rw [isOdd_eq_false_iff] at ha ⊢
  bv_omega

/-- Outside ROM is from 0x8000 on (R42). -/
theorem inRom_eq_false_iff (a : Word) : inRom a = false ↔ 0x8000 ≤ a.toNat := by
  rw [inRom, decide_eq_false_iff_not, not_lt]

/-- Both bytes of an access outside ROM are outside ROM, but for the access at 0xFFFF under MISALIGNED = split (R54). -/
theorem wordBase_not_rom {cfg : Config} {a base : Word} (hr : inRom a = false)
    (hlast : a ≠ 0xFFFF#16 ∨ cfg.misaligned ≠ .split) (h : wordBase cfg a = .ok base) :
    inRom base = false ∧ inRom (base + 1#16) = false := by
  rw [inRom_eq_false_iff] at hr
  simp only [inRom_eq_false_iff]
  obtain ⟨rfl, heven | hsplit⟩ | ⟨rfl, hodd⟩ := wordBase_ok h
  · rw [isOdd_eq_false_iff] at heven
    bv_omega
  · have hne := hlast.resolve_right (absurd hsplit)
    bv_omega
  · rw [isOdd_eq_true_iff] at hodd
    bv_omega

/-! ## The word that memory holds at an address -/

/-- Both bytes at an address have values, those of the word `v`, low byte first (R45). -/
def holdsWord (s : State) (a v : Word) : Prop :=
  peek s a = some (lowByte v) ∧ peek s (a + 1#16) = some (highByte v)

/-- Which word is held depends on the parameters, MB and memory only. -/
theorem holdsWord_congr {s t : State} (hc : t.cfg = s.cfg) (hb : t.mb = s.mb) (hm : t.mem = s.mem) (a v : Word) :
    holdsWord t a v ↔ holdsWord s a v := by
  rw [holdsWord, holdsWord, peek_congr hc hb hm, peek_congr hc hb hm]

/-- A word that is held is what a read gives, and nothing changes (R48). -/
theorem readWord_of_holdsWord {s : State} {a base v : Word} (hb : wordBase s.cfg a = .ok base)
    (h : holdsWord s base v) : readWord s a = .ok (v, s) := by
  obtain ⟨hlow, hhigh⟩ := h
  rw [readWord_defined hb hlow hhigh, wordOf_bytes]

/-- A listed location is what an access to it finds. -/
theorem peek_withMem {s : State} {m : Memory} {a : Word} {k : Nat} {b : Byte} (hk : storageKey s.cfg s.mb a = .ok k)
    (hm : m.read k = some b) : peek (s.withMem m) a = some b := by
  simp [peek, hk, hm]

/-- A byte outside ROM that can be written has a location. -/
theorem storageKey_of_writable {s : State} {a : Word} (hr : inRom a = false) (h : writable s a) :
    ∃ k, storageKey s.cfg s.mb a = .ok k :=
  h.resolve_left (by simp [hr])

/-- No address is its own successor. -/
theorem word_succ_ne (a : Word) : a + 1#16 ≠ a := by bv_omega

/-- A store puts the high byte at the upper address (R45, R50). -/
theorem byteAfterStore_high {s : State} {base : Word} (v : Word) {k : Nat} (hr : inRom (base + 1#16) = false)
    (hk : storageKey s.cfg s.mb (base + 1#16) = .ok k) : byteAfterStore s base v k = some (highByte v) := by
  simp [byteAfterStore, storedByte, hr, hk]

/-- A store puts the low byte at the lower address (R45, R50). -/
theorem byteAfterStore_low {s : State} {base : Word} (v : Word) {k : Nat} (hr : inRom base = false)
    (hk : storageKey s.cfg s.mb base = .ok k) : byteAfterStore s base v k = some (lowByte v) := by
  have hother : storageKey s.cfg s.mb (base + 1#16) ≠ .ok k :=
    fun hk' => word_succ_ne base (storageKey_injective hk' hk)
  have hself : storedByte s base (lowByte v) k = some (lowByte v) := by simp [storedByte, hr, hk]
  rw [byteAfterStore, storedByte_none _ hother, hself]

section AfterStore

variable {s : State} {base v : Word} {m : Memory} (hm : ∀ key, m.read key = byteAfterStore s base v key)

include hm

/-- The low byte of a stored word outside ROM can be read back. -/
theorem peek_low_after_store (hr : inRom base = false) (hw : writable s base) :
    peek (s.withMem m) base = some (lowByte v) := by
  obtain ⟨k, hk⟩ := storageKey_of_writable hr hw
  exact peek_withMem hk ((hm k).trans (byteAfterStore_low v hr hk))

/-- The high byte of a stored word outside ROM can be read back. -/
theorem peek_high_after_store (hr : inRom (base + 1#16) = false) (hw : writable s (base + 1#16)) :
    peek (s.withMem m) (base + 1#16) = some (highByte v) := by
  obtain ⟨k, hk⟩ := storageKey_of_writable hr hw
  exact peek_withMem hk ((hm k).trans (byteAfterStore_high v hr hk))

/-- Memory holds a word that was stored outside ROM. -/
theorem holdsWord_after_store {a : Word} (hw : wordWritable s a base) (hr : inRom base = false)
    (hr' : inRom (base + 1#16) = false) : holdsWord (s.withMem m) base v := by
  obtain ⟨-, hlow, hhigh⟩ := hw
  exact ⟨peek_low_after_store hm hr hlow, peek_high_after_store hm hr' hhigh⟩

end AfterStore

/-- Settles O30: even and split accesses start at the address, masked ones one below, refused ones nowhere (R52, U5). -/
theorem wordAccessFollowsAlignment : Obligations.WordAccessFollowsAlignment := by
  intro s a v lo hi
  refine ⟨fun halign hlo hhi => ?read, fun halign hlow hhigh => ?write, fun hodd hmask => ?mask,
    fun hodd hrefuse => ?refuse⟩
  case read => exact readWord_defined (wordBase_aligned halign) hlo hhi
  case write =>
    obtain ⟨m, hwrite, ⟨-, -, hrom, -⟩, hm⟩ := wordWritable_writeWord v ⟨wordBase_aligned halign, hlow, hhigh⟩
    refine ⟨m, hwrite, fun hr => peek_low_after_store hm hr hlow, fun hr => peek_high_after_store hm hr hhigh, hrom,
      fun key hne hne' => ?_⟩
    rw [hm, byteAfterStore, storedByte_none _ hne', storedByte_none _ hne]
  case mask =>
    have hbase : wordBase s.cfg a = wordBase s.cfg (a - 1#16) := by
      rw [wordBase_of_even s.cfg (isOdd_sub_one hodd)]
      simp [wordBase, hodd, hmask]
    exact ⟨by simp only [readWord, hbase], by simp only [writeWord, hbase]⟩
  case refuse =>
    have hbase : wordBase s.cfg a = .error (.misaligned a) := by simp [wordBase, hodd, hrefuse]
    exact ⟨by simp [readWord, hbase], by simp [writeWord, hbase]⟩

/-! ## LOAD -/

/-- LOAD of a word that can be read puts it into rC (R100). -/
theorem loadFrom_of_readWord {s s₁ : State} {len : Nat} {rC : Reg} {o : Operand} {v : Word}
    (hi : rC.implemented = true) (ho : operandOk o = true) (h : readWord s (operandValue s len o) = .ok (v, s₁)) :
    loadFrom len rC o s = .next ((putReg s₁ rC v).withPc (nextPc s len)) := by
  simp [loadFrom, readOperand_eq s len ho, h, hi]

/-- LOAD of a word that cannot be read stops by the read's name. -/
theorem loadFrom_of_readWord_error {s : State} {len : Nat} (rC : Reg) {o : Operand} {r : Refusal}
    (ho : operandOk o = true) (h : readWord s (operandValue s len o) = .error r) :
    loadFrom len rC o s = .refused r := by
  simp [loadFrom, readOperand_eq s len ho, h]

/-- LOAD completes on a readable word (R100). -/
theorem loadFrom_complete {s : State} {len : Nat} {rC : Reg} {o : Operand} {base : Word} (hi : rC.implemented = true)
    (ho : operandOk o = true) (h : wordReadable s (operandValue s len o) base) :
    ∃ v n, loadFrom len rC o s = .next ((putReg (s.withDraws n) rC v).withPc (nextPc s len)) ∧ agrees s base v := by
  obtain ⟨v, n, hread, hagrees⟩ := wordReadable_readWord h
  exact ⟨v, n, loadFrom_of_readWord hi ho hread, hagrees⟩

/-- Settles O33: both forms are LOAD's family (R100). -/
theorem loadCompletes : Obligations.LoadCompletes :=
  fun _ _ rD imm _ hC =>
    ⟨fun hD h => loadFrom_complete (o := .reg rD) hC hD h, fun h => loadFrom_complete (o := .imm imm) hC rfl h⟩

/-! ## STORE -/

/-- STORE to ROM only advances (R51, R101). -/
theorem storeTo_rom {s : State} {len : Nat} {rC : Reg} {o : Operand} (hi : rC.implemented = true)
    (ho : operandOk o = true) (hr : inRom (operandValue s len o) = true) :
    storeTo len o rC s = .next (s.withPc (nextPc s len)) := by
  simp [storeTo, readOperand_eq s len ho, hi, storeWord, hr]

/-- STORE outside ROM completes where the word can be written (R101). -/
theorem storeTo_complete {s : State} {len : Nat} {rC : Reg} {o : Operand} {base : Word} (hi : rC.implemented = true)
    (ho : operandOk o = true) (hr : inRom (operandValue s len o) = false)
    (h : wordWritable s (operandValue s len o) base) :
    ∃ m, storeTo len o rC s = .next ((s.withMem m).withPc (nextPc s len)) ∧
      ∀ key, m.read key = byteAfterStore s base (getReg s len rC) key := by
  obtain ⟨m, hwrite, -, hm⟩ := wordWritable_writeWord (getReg s len rC) h
  exact ⟨m, by simp [storeTo, readOperand_eq s len ho, hi, storeWord, hr, hwrite], hm⟩

/-- STORE outside ROM of a word that cannot be written stops by the write's name. -/
theorem storeTo_of_writeWord_error {s : State} {len : Nat} {rC : Reg} {o : Operand} {r : Refusal}
    (hi : rC.implemented = true) (ho : operandOk o = true) (hr : inRom (operandValue s len o) = false)
    (h : writeWord s (operandValue s len o) (getReg s len rC) = .error r) : storeTo len o rC s = .refused r := by
  simp [storeTo, readOperand_eq s len ho, hi, storeWord, hr, h]

/-- Settles O34: both forms are STORE's family (R101). -/
theorem storeCompletes : Obligations.StoreCompletes :=
  fun _ rC _ imm _ hC hD =>
    ⟨fun hr h => storeTo_complete (o := .reg rC) hD hC hr h, fun hr h => storeTo_complete (o := .imm imm) hC rfl hr h⟩

/-! ## Bytes without a bank or a value -/

/-- A window address while MB names no bank reaches no location (R43, U7). -/
theorem storageKey_absent {cfg : Config} {mb a : Word} (hw : inWindow a = true) (hb : cfg.nbanks ≤ mb.toNat) :
    storageKey cfg mb a = .error (.absentBank mb a) := by
  rw [storageKey, if_pos hw, if_neg (by omega)]

/-- The window is outside ROM (R43). -/
theorem inRom_of_inWindow {a : Word} (hw : inWindow a = true) : inRom a = false := by
  rw [inWindow, Bool.and_eq_true, decide_eq_true_eq] at hw
  exact (inRom_eq_false_iff a).2 hw.1

/-- A word at an even address whose lower byte cannot be read cannot be read. -/
theorem readWord_error {s : State} {a : Word} {r : Refusal} (ha : isOdd a = false) (h : readByte s a = .error r) :
    readWord s a = .error r := by
  simp [readWord, wordBase_of_even s.cfg ha, h]

/-- A word of the window cannot be read while MB names no bank (U7). -/
theorem readWord_absent {s : State} {a : Word} (ha : isOdd a = false) (hw : inWindow a = true)
    (hb : s.cfg.nbanks ≤ s.mb.toNat) : readWord s a = .error (.absentBank s.mb a) :=
  readWord_error ha (by rw [readByte, storageKey_absent hw hb])

/-- A word of the window cannot be written while MB names no bank (U7). -/
theorem writeWord_absent {s : State} {a : Word} (v : Word) (ha : isOdd a = false) (hw : inWindow a = true)
    (hb : s.cfg.nbanks ≤ s.mb.toNat) : writeWord s a v = .error (.absentBank s.mb a) := by
  simp [writeWord, wordBase_of_even s.cfg ha, writeByte, inRom_of_inWindow hw, storageKey_absent hw hb]

/-- A word of fixed RAM whose lower byte nothing has written cannot be read while U8 is refused. -/
theorem readWord_unwritten {s : State} {a : Word} (ha : isOdd a = false) (hp : peek s a = none) (hr : inRom a = false)
    (hw : inWindow a = false) (hu : s.cfg.unwritten = .refuse) : readWord s a = .error (.unwrittenByte a) :=
  readWord_error ha (by simp [readByte, storageKey_outside s.cfg s.mb hw, hp, hr, hu])

/-- A word of ROM whose lower byte the image does not cover cannot be read (U14). -/
theorem readWord_uncovered {s : State} {a : Word} (ha : isOdd a = false) (hp : peek s a = none)
    (hr : inRom a = true) : readWord s a = .error (.uncoveredRom a) :=
  readWord_error ha (by simp [readByte, storageKey_rom s.cfg s.mb hr, hp, hr])

/-- A word of fixed RAM can be read while U8 is any value. -/
theorem wordReadable_anyValue {s : State} {a : Word} (ha : isOdd a = false) (hr : inRom a = false)
    (hw : inWindow a = false) (hu : s.cfg.unwritten = .anyValue) : wordReadable s a a := by
  refine ⟨wordBase_of_even s.cfg ha, ⟨⟨_, storageKey_outside _ _ hw⟩, .inr ⟨hr, hu⟩⟩, ⟨_, storageKey_outside _ _ ?_⟩,
    .inr ⟨?_, hu⟩⟩
  · rw [inWindow_succ_of_even ha, hw]
  · rw [inRom_succ_of_even ha, hr]

/-- Settles O32: what each access of a word without a bank or a value answers (U7, U8, U14, logs 24, 29, 30). -/
theorem bytesWithoutBankOrValue : Obligations.BytesWithoutBankOrValue := by
  intro s rA rC a hA hC ha
  refine ⟨fun hw hb => ?absent, fun hp hr hw hu => ?unwritten, fun _ hr hw hu => ?anyValue, fun hp hr => ?uncovered⟩
  case absent =>
    have hread := readWord_absent ha hw hb
    have hwrite (v : Word) := writeWord_absent v ha hw hb
    have hr := inRom_of_inWindow hw
    refine ⟨?_, loadFrom_of_readWord_error (o := .imm a) rC rfl hread,
      storeTo_of_writeWord_error (o := .imm a) hC rfl hr (hwrite _)⟩
    rintro rfl
    exact ⟨loadFrom_of_readWord_error (o := .reg rA) rC hA hread,
      storeTo_of_writeWord_error (o := .reg rA) hC hA hr (hwrite _)⟩
  case unwritten =>
    have hread := readWord_unwritten ha hp hr hw hu
    refine ⟨?_, loadFrom_of_readWord_error (o := .imm a) rC rfl hread⟩
    rintro rfl
    exact loadFrom_of_readWord_error (o := .reg rA) rC hA hread
  case anyValue =>
    have hread := wordReadable_anyValue ha hr hw hu
    constructor
    · rintro rfl
      obtain ⟨v, n, hload, -, hhigh⟩ := loadFrom_complete (len := 2) (o := .reg rA) hC hA hread
      exact ⟨v, n, hload, hhigh⟩
    · obtain ⟨v, n, hload, -, hhigh⟩ := loadFrom_complete (len := 4) (o := .imm a) hC rfl hread
      exact ⟨v, n, hload, hhigh⟩
  case uncovered =>
    have hread := readWord_uncovered ha hp hr
    refine ⟨?_, loadFrom_of_readWord_error (o := .imm a) rC rfl hread⟩
    rintro rfl
    exact loadFrom_of_readWord_error (o := .reg rA) rC hA hread

/-! ## LOAD after STORE -/

/-- What a STORE outside ROM left is what memory then holds at the bytes it accessed. -/
theorem storeTo_holdsWord {s t : State} {len : Nat} {rC : Reg} {o : Operand} (hr : inRom (operandValue s len o) = false)
    (hlast : operandValue s len o ≠ 0xFFFF#16 ∨ s.cfg.misaligned ≠ .split) (h : storeTo len o rC s = .next t) :
    ∃ base, wordBase t.cfg (operandValue s len o) = .ok base ∧ holdsWord t base (getReg s len rC) := by
  obtain ⟨-, -, m, rfl, -, ⟨hrom, -⟩ | ⟨-, base, hw, hm⟩⟩ := storeTo_next h
  · cases hr.symm.trans hrom
  · obtain ⟨hlow, hhigh⟩ := wordBase_not_rom hr hlast hw.1
    refine ⟨base, hw.1, ?_⟩
    exact (holdsWord_congr (s := s.withMem m) rfl rfl rfl _ _).2 (holdsWord_after_store hm hw hlow hhigh)

/-- Settles O31: the stored word is held where the LOAD reads (R48, R50, decision D29). -/
theorem storeThenLoadReturnsTheWord : Obligations.StoreThenLoadReturnsTheWord := by
  intro s t rA rB rC rD a v hB hD hr hlast hstore
  have hread : readWord t a = .ok (v, t) := by
    obtain ⟨h, rfl⟩ | ⟨h, rfl, rfl⟩ := hstore
    · obtain ⟨base, hb, hw⟩ := storeTo_holdsWord (o := .imm a) hr hlast h
      exact readWord_of_holdsWord hb hw
    · obtain ⟨base, hb, hw⟩ := storeTo_holdsWord (o := .reg rA) hr hlast h
      exact readWord_of_holdsWord hb hw
  refine ⟨loadFrom_of_readWord (o := .imm a) hD rfl hread, ?_⟩
  rintro rfl
  exact loadFrom_of_readWord (o := .reg rB) hD hB hread

end Sys2Proof.Machine

/-! SUPPORT. Proofs of the statements about the stack, calls and interrupts (spec/40_data_movement.md PUSH and POP,
spec/44_compare_control.md Calls and returns, spec/45_system.md INT and IRET, U9). First the completions and the stops
of STACK_AREA, then which words the pushes leave in memory, then the round trips. -/

namespace Sys2Proof.Machine

/-! ## Completion -/

section Completion

variable {s : State} {len : Nat} {rC : Reg} {o : Operand} {base : Word}

/-- PUSH with SP in ROM only advances (R103, decision D19). -/
theorem pushOperand_rom (ho : operandOk o = true) (hr : inRom s.sp = true) :
    pushOperand len o s = .next (s.withPc (nextPc s len)) := by
  simp [pushOperand, readOperand_eq s len ho, pushUnlessRom, hr]

/-- Outside ROM a push leaves what a store leaves. -/
theorem byteAfterPush_of_not_rom {sp : Word} (v : Word) (key : Nat) (hr : inRom sp = false) :
    byteAfterPush s sp base v key = byteAfterStore s base v key := by
  simp [byteAfterPush, hr]

/-- PUSH outside ROM completes where the push can be carried out (R103). -/
theorem pushOperand_complete (ho : operandOk o = true) (hr : inRom s.sp = false) (h : pushable s s.sp base) :
    ∃ m, pushOperand len o s = .next (((s.withMem m).withSp (s.sp - 2#16)).withPc (nextPc s len)) ∧
      ∀ key, m.read key = byteAfterStore s base (operandValue s len o) key := by
  obtain ⟨m, hpush, -, hm⟩ := pushable_pushWord (operandValue s len o) h
  refine ⟨m, by simp [pushOperand, readOperand_eq s len ho, pushUnlessRom, hr, hpush], fun key => ?_⟩
  rw [hm, byteAfterPush_of_not_rom _ _ hr]

/-- CALL completes where the push can be carried out (R142). -/
theorem callTo_complete (ho : operandOk o = true) (h : pushable s s.sp base) :
    ∃ m, callTo len o s = .next (((s.withMem m).withSp (s.sp - 2#16)).withPc (operandValue s len o)) ∧
      ∀ key, m.read key = byteAfterPush s s.sp base (nextPc s len) key := by
  obtain ⟨m, hpush, -, hm⟩ := pushable_pushWord (nextPc s len) h
  exact ⟨m, by simp [callTo, readOperand_eq s len ho, hpush], hm⟩

/-- POP of a word that can be popped puts it into rC (R104). -/
theorem popTo_of_popWord {s₁ : State} {v : Word} (hi : rC.implemented = true) (h : popWord s = .ok (v, s₁)) :
    popTo len rC s = .next ((putReg s₁ rC v).withPc (nextPc s len)) := by
  simp [popTo, h, hi]

/-- RET of a word that can be popped goes there (R143). -/
theorem execRet_of_popWord {s₁ : State} {v : Word} (h : popWord s = .ok (v, s₁)) :
    execRet s = .next (s₁.withPc v) := by
  simp [execRet, h]

end Completion

/-- Settles O35: STORE's family at a ROM address and PUSH's with SP in ROM (R51, decision D19). -/
theorem writesToRomAreIgnored : Obligations.WritesToRomAreIgnored := by
  intro s rC rD imm hC hD
  refine ⟨fun hr => ?storeR, fun hr => ?storeI, fun hr => ⟨?pushR, ?pushI⟩⟩
  case storeR => exact storeTo_rom (o := .reg rC) hD hC hr
  case storeI => exact storeTo_rom (o := .imm imm) hC rfl hr
  case pushR => exact pushOperand_rom (o := .reg rC) hC hr
  case pushI => exact pushOperand_rom (o := .imm imm) rfl hr

/-- Settles O37: both forms are PUSH's family (R103, decision D11). -/
theorem pushCompletes : Obligations.PushCompletes :=
  fun _ rC imm _ hr h =>
    ⟨fun hC => pushOperand_complete (o := .reg rC) hC hr h, pushOperand_complete (o := .imm imm) rfl hr h⟩

/-- Settles O38: the pop moves SP, then the word goes to rC (R104, decision D11). -/
theorem popCompletes : Obligations.PopCompletes := by
  intro s rC base hC h
  obtain ⟨v, n, hpop, hagrees⟩ := poppable_popWord h
  exact ⟨v, n, popTo_of_popWord hC hpop, hagrees⟩

/-- Settles O50: both forms are CALL's family (R142, decisions D11, D13, D19). -/
theorem callCompletes : Obligations.CallCompletes :=
  fun _ rC imm _ h => ⟨fun hC => callTo_complete (o := .reg rC) hC h, callTo_complete (o := .imm imm) rfl h⟩

/-- Settles O51: the popped word goes to `pc` (R143). -/
theorem retCompletes : Obligations.RetCompletes := by
  intro s base h
  obtain ⟨v, n, hpop, hagrees⟩ := poppable_popWord h
  exact ⟨v, n, execRet_of_popWord hpop, hagrees⟩

/-- What a push leaves does not depend on how its base was found (R52). -/
theorem byteAfterPush_base_unique {s : State} {sp base base' : Word} (v : Word) (key : Nat) (h : pushable s sp base)
    (h' : pushable s sp base') : byteAfterPush s sp base v key = byteAfterPush s sp base' v key := by
  unfold byteAfterPush
  split
  · rfl
  · next hr =>
    obtain ⟨⟨hb, -, -⟩, -⟩ := h.resolve_left hr
    obtain ⟨⟨hb', -, -⟩, -⟩ := h'.resolve_left hr
    cases hb.symm.trans hb'
    rfl

/-- INT while enabled is taken (R150). -/
theorem execIntI_enabled {s : State} (n : Word) (hi : s.flag .i = true) :
    execIntI n s = finish (takeInterrupt s n (nextPc s 4)) := by
  rw [execIntI, if_pos hi]

/-- Settles O53: the entry can be carried out, and `takeInterrupt_ok` says what it has then done (R150, decisions D11,
D14, D19, D23). -/
theorem intTakesTheInterrupt : Obligations.IntTakesTheInterrupt := by
  intro s n base₁ base₂ vbase hi hn p₁ p₂ hv
  obtain ⟨t, ht⟩ := takeInterrupt_complete (nextPc s 4) hn p₁ p₂ hv
  have hexec : exec (.intI n) s = .next t := by
    change execIntI n s = .next t
    rw [execIntI_enabled n hi, ht, finish_ok]
  obtain ⟨-, base₁', base₂', vbase', m₁, m₂, d, handler, p₁', p₂', hm₁, hm₂, -, hv', hagrees, rfl⟩ :=
    takeInterrupt_ok ht
  cases hv.1.symm.trans hv'.1
  refine ⟨m₁, m₂, d, handler, hexec, fun key => ?_, fun key => ?_, hagrees⟩
  · rw [hm₁, byteAfterPush_base_unique _ _ p₁ p₁']
  · rw [hm₂]
    exact byteAfterPush_base_unique (s := s.withMem m₁) _ _ p₂' p₂

/-- IRET while enabled, or under IRET_MASKED = return, returns (R151, decision D35). -/
theorem execIret_returns {s : State} (h : s.flag .i = true ∨ s.cfg.iretMasked = .returns) :
    execIret s = finish (returnFromInterrupt s) := by
  rw [execIret, if_pos]
  simpa using h

/-- Settles O57: the return can be carried out, and `returnFromInterrupt_ok` says what it has then done (R151, decisions
D12, D35). -/
theorem iretCompletes : Obligations.IretCompletes := by
  intro s base₁ base₂
  refine ⟨fun h p₁ p₂ => ?returns, fun hi hnop => ?masked⟩
  case returns =>
    obtain ⟨t, ht⟩ := returnFromInterrupt_complete p₁ p₂
    have hexec : exec .iret s = .next t := by
      change execIret s = .next t
      rw [execIret_returns h, ht, finish_ok]
    obtain ⟨base₁', base₂', flags, target, d, p₁', p₂', hflags, htarget, rfl⟩ := returnFromInterrupt_ok ht
    cases p₁.1.1.symm.trans p₁'.1.1
    cases p₂.1.1.symm.trans p₂'.1.1
    exact ⟨flags, target, d, hexec, hflags, htarget⟩
  case masked => simp [exec, execIret, hi, hnop]

/-! ## STACK_AREA -/

section StackArea

variable {s : State} {area : StackArea} (harea : s.cfg.stackArea = some area)

include harea

/-- A push below the area stops (U9, log 37). -/
theorem pushWord_overflow (v : Word) (ha : isOdd s.sp = false) (hr : inRom s.sp = false)
    (hlow : s.sp.toNat < area.lo.toNat) : pushWord s v = .error (.stackOverflow s.sp) := by
  simp [pushWord, stackWrite, hr, wordBase_of_even s.cfg ha, pushWithin, harea, Nat.not_le_of_lt hlow]

/-- A pop above the area stops (U9, log 37). -/
theorem popWord_underflow (ha : isOdd s.sp = false) (hhigh : area.hi.toNat < (s.sp + 3#16).toNat) :
    popWord s = .error (.stackUnderflow (s.sp + 2#16)) := by
  have hupper : s.sp + 2#16 + 1#16 = s.sp + 3#16 := by bv_omega
  have hout : popWithin s.cfg (s.sp + 2#16) = false := by
    simp only [popWithin, harea, hupper, Nat.not_le_of_lt hhigh, decide_false, Bool.and_false]
  simp [popWord, wordBase_of_even s.cfg (isOdd_add_two_of_even ha), hout]

end StackArea

/-- Settles O40: the first push or pop stops the instruction, or the second after a first that can be carried out (U9,
log 37). -/
theorem stackAreaStops : Obligations.StackAreaStops := by
  intro s rC imm area hC ha harea
  refine ⟨fun hr hlow => ?push, fun hpush hr hlow hi hn => ?secondPush, fun hhigh => ?pop,
    fun hpop hhigh h => ?secondPop⟩
  case push =>
    have hpush (v : Word) := pushWord_overflow harea v ha hr hlow
    refine ⟨?_, ?_, ?_, ?_, fun hi hn => ?_⟩
    · simp [exec, execPushR, pushOperand, hC, pushUnlessRom, hr, hpush]
    · simp [exec, execPushI, pushOperand, pushUnlessRom, hr, hpush]
    · simp [exec, execCallR, callTo, hC, hpush]
    · simp [exec, execCallI, callTo, hpush]
    · simp [exec, execIntI_enabled imm hi, takeInterrupt, Nat.not_lt_of_le hn, hpush]
  case secondPush =>
    obtain ⟨m, hfirst, -, -⟩ := pushable_pushWord (nextPc s 4) hpush
    have hsecond := pushWord_overflow (s := (s.withMem m).withSp (s.sp - 2#16)) harea s.f
      (isOdd_sub_two_of_even ha) hr hlow
    simp only [State.withSp_sp] at hsecond
    simp [exec, execIntI_enabled imm hi, takeInterrupt, Nat.not_lt_of_le hn, hfirst, hsecond]
  case pop =>
    have hpop := popWord_underflow harea ha hhigh
    refine ⟨?_, ?_, fun h => ?_⟩
    · simp [exec, execPopR, popTo, hpop]
    · simp [exec, execRet, hpop]
    · simp [exec, execIret_returns h, returnFromInterrupt, hpop]
  case secondPop =>
    obtain ⟨flags, d, hfirst, -⟩ := poppable_popWord hpop
    have htop : s.sp + 2#16 + 3#16 = s.sp + 5#16 := by bv_omega
    have hnext : s.sp + 2#16 + 2#16 = s.sp + 4#16 := by bv_omega
    have hsecond := popWord_underflow (s := ((s.withSp (s.sp + 2#16)).withDraws d).withF flags) harea
      (isOdd_add_two_of_even ha) (by simpa only [State.withF_sp, State.withDraws_sp, State.withSp_sp, htop] using hhigh)
    simp only [State.withF_sp, State.withDraws_sp, State.withSp_sp, hnext] at hsecond
    simp [exec, execIret_returns h, returnFromInterrupt, hfirst, hsecond]

/-! ## The words that pushes leave -/

/-- A push at an even stack pointer outside ROM leaves its word there (R103, decision D11). -/
theorem holdsWord_after_push {s : State} {sp base v : Word} {m : Memory} (ha : isOdd sp = false)
    (hr : inRom sp = false) (hp : pushable s sp base) (hm : ∀ key, m.read key = byteAfterPush s sp base v key) :
    holdsWord (s.withMem m) sp v := by
  obtain ⟨hw, -⟩ := hp.resolve_left (by simp [hr])
  cases (wordBase_of_even s.cfg ha).symm.trans hw.1
  have hm' (key : Nat) : m.read key = byteAfterStore s sp v key := by rw [hm, byteAfterPush_of_not_rom _ _ hr]
  exact holdsWord_after_store hm' hw hr ((inRom_succ_of_even ha).trans hr)

/-- A byte whose location reads the same is found the same. -/
theorem peek_withMem_of_read {s : State} {m : Memory} {a : Word}
    (h : ∀ k, storageKey s.cfg s.mb a = .ok k → m.read k = s.mem.read k) : peek (s.withMem m) a = peek s a := by
  unfold peek
  simp only [State.withMem_cfg, State.withMem_mb, State.withMem_mem]
  split
  · rfl
  · next k hk => rw [h k hk]

/-- A word store at an even address touches no other address than its two. -/
theorem not_storesTo_of_ne {s : State} {a b : Word} {k : Nat} (ha : isOdd a = false)
    (hk : storageKey s.cfg s.mb b = .ok k) (hlow : b ≠ a) (hhigh : b ≠ a + 1#16) : ¬ storesTo s a k := by
  rintro ⟨base, hb, hkey⟩
  cases (wordBase_of_even s.cfg ha).symm.trans hb
  obtain hkey | hkey := hkey
  · exact hlow (storageKey_injective hk hkey)
  · exact hhigh (storageKey_injective hk hkey)

/-- A push two below an even address leaves the word at that address. -/
theorem holdsWord_push_below {s : State} {a base v w : Word} {m : Memory} (ha : isOdd a = false)
    (hp : pushable s (a - 2#16) base) (hm : ∀ key, m.read key = byteAfterPush s (a - 2#16) base w key)
    (h : holdsWord s a v) : holdsWord (s.withMem m) a v := by
  have keeps {b : Word} (hlow : b ≠ a - 2#16) (hhigh : b ≠ a - 2#16 + 1#16) : peek (s.withMem m) b = peek s b := by
    refine peek_withMem_of_read fun k hk => ?_
    rw [hm]
    exact byteAfterPush_other hp (.inr (not_storesTo_of_ne (isOdd_sub_two_of_even ha) hk hlow hhigh))
  obtain ⟨hlow, hhigh⟩ := h
  refine ⟨(keeps ?_ ?_).trans hlow, (keeps ?_ ?_).trans hhigh⟩ <;> bv_omega

/-- A pop at an even stack pointer takes the word that is held above it, and draws nothing (R104, decision D11). -/
theorem popWord_of_holdsWord {s : State} {a v : Word} (hsp : s.sp + 2#16 = a) (ha : isOdd a = false)
    (hwithin : popWithin s.cfg a = true) (h : holdsWord s a v) : popWord s = .ok (v, s.withSp a) := by
  have hbase : wordBase (s.withSp a).cfg a = .ok a := wordBase_of_even _ ha
  have hread : readWord (s.withSp a) a = .ok (v, s.withSp a) := readWord_of_holdsWord hbase h
  simp [popWord, hsp, wordBase_of_even s.cfg ha, hwithin, hread]

/-! ## Round trips -/

/-- Two below and two above is where it was. -/
theorem word_sub_two_add_two (a : Word) : a - 2#16 + 2#16 = a := by bv_omega

/-- PUSH outside ROM at an even SP: what a POP then finds. -/
theorem popWord_after_pushOperand {s t : State} {len : Nat} {o : Operand} (ha : isOdd s.sp = false)
    (hr : inRom s.sp = false) (hwithin : popWithin s.cfg s.sp = true) (h : pushOperand len o s = .next t) :
    popWord t = .ok (operandValue s len o, t.withSp s.sp) := by
  obtain ⟨-, ⟨hrom, -⟩ | ⟨-, base, m, hp, -, hm, rfl⟩⟩ := pushOperand_next h
  · cases hr.symm.trans hrom
  · have hheld := holdsWord_after_push ha hr hp hm
    refine popWord_of_holdsWord (word_sub_two_add_two s.sp) ha hwithin ?_
    exact (holdsWord_congr (s := s.withMem m) rfl rfl rfl _ _).2 hheld

/-- Settles O39: the pushed word is held at the SP that the POP restores (decision D11). -/
theorem pushThenPopReturnsTheValue : Obligations.PushThenPopReturnsTheValue := by
  intro s t rC rD v hD ha hr hwithin hpush
  have hpop : popWord t = .ok (v, t.withSp s.sp) := by
    obtain ⟨h, rfl⟩ | h := hpush
    · exact popWord_after_pushOperand (o := .reg rC) ha hr hwithin h
    · exact popWord_after_pushOperand (o := .imm v) ha hr hwithin h
  exact popTo_of_popWord hD hpop

/-- CALL outside ROM at an even SP: what a pop finds in any state that kept SP, MB, memory and parameters. -/
theorem popWord_after_callTo {s t u : State} {len : Nat} {o : Operand} (ha : isOdd s.sp = false)
    (hr : inRom s.sp = false) (hwithin : popWithin s.cfg s.sp = true) (h : callTo len o s = .next t) (hsp : u.sp = t.sp)
    (hmb : u.mb = t.mb) (hmem : u.mem = t.mem) (hcfg : u.cfg = t.cfg) :
    popWord u = .ok (nextPc s len, u.withSp s.sp) := by
  obtain ⟨-, base, m, hp, -, hm, rfl⟩ := callTo_next h
  have hheld := holdsWord_after_push ha hr hp hm
  refine popWord_of_holdsWord ?_ ha ?_ ?_
  · rw [hsp]
    exact word_sub_two_add_two s.sp
  · rw [hcfg]
    exact hwithin
  · exact (holdsWord_congr (s := s.withMem m) hcfg hmb hmem _ _).2 hheld

/-- Settles O52: the return address is held at the SP that RET restores (decisions D11, D13). -/
theorem retReturnsAfterTheCall : Obligations.RetReturnsAfterTheCall := by
  intro s t u rC imm len ha hr hwithin hcall hsp hmb hmem hcfg
  have hpop : popWord u = .ok (nextPc s len, u.withSp s.sp) := by
    obtain ⟨h, rfl⟩ | ⟨h, rfl⟩ := hcall
    · exact popWord_after_callTo (o := .reg rC) ha hr hwithin h hsp hmb hmem hcfg
    · exact popWord_after_callTo (o := .imm imm) ha hr hwithin h hsp hmb hmem hcfg
  exact execRet_of_popWord hpop

/-- Entry outside ROM at an even SP leaves the return address at SP and F two below it (R165, decisions D11, D14). -/
theorem takeInterrupt_holdsWords {s t : State} {n ret : Word} (ha : isOdd s.sp = false) (hr : inRom s.sp = false)
    (hr₂ : inRom (s.sp - 2#16) = false) (h : takeInterrupt s n ret = .ok t) :
    holdsWord t s.sp ret ∧ holdsWord t (s.sp - 2#16) s.f ∧ t.sp = s.sp - 4#16 ∧ t.cfg = s.cfg := by
  obtain ⟨-, base₁, base₂, vbase, m₁, m₂, d, handler, p₁, p₂, hm₁, hm₂, -, -, -, rfl⟩ := takeInterrupt_ok h
  have hret₁ : holdsWord (s.withMem m₁) s.sp ret := holdsWord_after_push ha hr p₁ hm₁
  have p₂' : pushable (s.withMem m₁) (s.sp - 2#16) base₂ := p₂
  have hret : holdsWord (s.withMem m₂) s.sp ret :=
    holdsWord_push_below (s := s.withMem m₁) ha p₂' hm₂ hret₁
  have hf : holdsWord (s.withMem m₂) (s.sp - 2#16) s.f :=
    holdsWord_after_push (s := s.withMem m₁) (isOdd_sub_two_of_even ha) hr₂ p₂' hm₂
  exact ⟨(holdsWord_congr (s := s.withMem m₂) rfl rfl rfl _ _).2 hret,
    (holdsWord_congr (s := s.withMem m₂) rfl rfl rfl _ _).2 hf, rfl, rfl⟩

/-- A return at an even stack pointer takes F and then `pc` from the words held above it (R167, decision D12). -/
theorem returnFromInterrupt_of_holdsWords {s : State} {a flags target : Word} (hsp : s.sp = a - 4#16)
    (ha : isOdd a = false) (hwithin : popWithin s.cfg a = true) (hwithin₂ : popWithin s.cfg (a - 2#16) = true)
    (hflags : holdsWord s (a - 2#16) flags) (htarget : holdsWord s a target) :
    returnFromInterrupt s = .ok (((s.withSp a).withF flags).withPc target) := by
  have hfirst : popWord s = .ok (flags, s.withSp (a - 2#16)) :=
    popWord_of_holdsWord (by rw [hsp]; bv_omega) (isOdd_sub_two_of_even ha) hwithin₂ hflags
  have hsecond : popWord ((s.withSp (a - 2#16)).withF flags) =
      .ok (target, ((s.withSp (a - 2#16)).withF flags).withSp a) :=
    popWord_of_holdsWord (word_sub_two_add_two a) ha hwithin
      ((holdsWord_congr (s := s) rfl rfl rfl _ _).2 htarget)
  simp only [returnFromInterrupt, hfirst, ok_bind, hsecond, pure_eq_ok]
  rfl

/-- Settles O58: entry leaves F and the return address where IRET pops them, in this order (decisions D11, D12, D14,
D35). -/
theorem iretUndoesInt : Obligations.IretUndoesInt := by
  intro s t u n hi ha hr hr₂ hwithin hwithin₂ hint hsp hmb hmem hcfg hreturns
  obtain ⟨hret, hf, htsp, htcfg⟩ := takeInterrupt_holdsWords ha hr hr₂ (takeInterrupt_of_execIntI hi hint)
  have hreturn : returnFromInterrupt u = .ok (((u.withSp s.sp).withF s.f).withPc (nextPc s 4)) := by
    refine returnFromInterrupt_of_holdsWords (hsp.trans htsp) ha ?_ ?_ ?_ ?_
    · rwa [hcfg, htcfg]
    · rwa [hcfg, htcfg]
    · exact (holdsWord_congr hcfg hmb hmem _ _).2 hf
    · exact (holdsWord_congr hcfg hmb hmem _ _).2 hret
  change execIret u = _
  rw [execIret_returns hreturns, hreturn, finish_ok]

end Sys2Proof.Machine
